-- ==== Sys2Proof/Word.lean ====
section
/-! DEFINITION. The word types of HPTX (spec/00_scope.md R7, R10; spec/30_encoding.md R102). -/

namespace Sys2Proof

/-- A register value, `REG_BITS = 32` bits (R7, R53). -/
abbrev Word := BitVec 32

/-- An operation word or a command cell, 16 bits (R93, R94, R102). -/
abbrev Cell := BitVec 16

/-- One byte of the platform's metadata files (R71, R78). -/
abbrev Byte := BitVec 8

end Sys2Proof
end

