-- ==== Sys2Proof/Config.lean ====
section
/-! DEFINITION. Constants the spec prints, the parameters of one instance, and the free values
(spec/00_scope.md R7, R8, R9; spec/92_eei_decisions.md, open parameters). -/

namespace Sys2Proof

namespace Config

/-- `PIN_MAX`, the largest valid pin index (R7). -/
def pinMax : Nat := 27
/-- `PAGE_BYTES` (R7). -/
def pageBytes : Nat := 4096
/-- `NREGS`, registers in the page (R7, R50). -/
def nregs : Nat := 1024
/-- `FSEL_PINS`, pins of one function-select register (R7). -/
def fselPins : Nat := 10
/-- `FSEL_FIELD_BITS`, bits of one pin's field (R7). -/
def fselFieldBits : Nat := 3
/-- `FSEL_INDEX_MAX`, the largest function-select index (R7). -/
def fselIndexMax : Nat := 6
/-- `LEVEL_BANK_PINS`, pins of one SET or CLEAR register (R7). -/
def levelBankPins : Nat := 32
/-- `T_HALF` in microseconds (R7). -/
def tHalf : Nat := 100
/-- `T_WAIT` in microseconds (R7). -/
def tWait : Nat := 120000
/-- `GPIO_BLOCK_OFFSET` (R7, R67). -/
def gpioBlockOffset : Nat := 0x200000
/-- `GPIO_CHILD_ADDRESS` (R7, R74). -/
def gpioChildAddress : Nat := 0x7e200000
/-- `DEF_ROOT_ADDR_CELLS` (R7, R71). -/
def defRootAddrCells : Nat := 2
/-- `DEF_CHILD_ADDR_CELLS` (R7, R71). -/
def defChildAddrCells : Nat := 2
/-- `DEF_CHILD_SIZE_CELLS` (R7, R71). -/
def defChildSizeCells : Nat := 1

/-- FREE VALUE: what the `n`-th read of the write-only registers SET and CLEAR returns (R23, R24, R56:
"any 32-bit value", "a draw, fresh each time"). No body: nothing can be proved of it. Log entry 9. -/
opaque freeRead : Nat → Word

/-- FREE VALUE: the 64-bit physical address where the exact sum of R75 does not fit 64 bits; the spec
states no result there. Log entry 17. -/
opaque addressOverflow : Nat → BitVec 64

end Config

/-- `MODE_CODE`: the 3-bit hardware code of each PinMode variant (R8, R96, R128), one field each. -/
structure ModeCode where
  input  : BitVec 3
  output : BitVec 3
  alt0   : BitVec 3
  alt1   : BitVec 3
  alt2   : BitVec 3
  alt3   : BitVec 3
  alt4   : BitVec 3
  alt5   : BitVec 3
  deriving DecidableEq, Repr

/-- The eight codes in the order of the variants. -/
def ModeCode.list (c : ModeCode) : List (BitVec 3) :=
  [c.input, c.output, c.alt0, c.alt1, c.alt2, c.alt3, c.alt4, c.alt5]

/-- The parameters of one instance, fixed for its life (R8, R9, R20, R203). A pin is an index 0 to 27 by
its type; the other constraints are `Params.wf` (WellFormed.lean). -/
structure Params where
  pinClk   : Fin 28
  pinData  : Fin 28
  pinCs    : Fin 28
  modeCode : ModeCode
  /-- `GPSET_INDEX` -/
  gpset    : Nat
  /-- `GPCLR_INDEX` -/
  gpclr    : Nat
  /-- `CMDS`, as command cells (R9, R93) -/
  cmds     : List Cell
  deriving DecidableEq, Repr

/-- The default column of R8 and R96, and no command. PRESUMED: the spec marks the values as general
knowledge of the platform's family, not in its source; no rule rests on them. Log entries 4 and 5. -/
def Params.family : Params where
  pinClk := 27
  pinData := 26
  pinCs := 18
  modeCode := ⟨0b000, 0b001, 0b100, 0b101, 0b110, 0b111, 0b011, 0b010⟩
  gpset := 7
  gpclr := 10
  cmds := []

end Sys2Proof
end

