-- ==== Sys2Proof/Syntax.lean ====
section
/-! DEFINITION. The seven operations as abstract syntax (spec/30_encoding.md R90, R91, R96; opcode_table.json). -/

namespace Sys2Proof

/-- PinMode, the "enumerated variant over Input, Output, Alt0..Alt5" (R15, R96). -/
inductive PinMode where
  | input | output | alt0 | alt1 | alt2 | alt3 | alt4 | alt5
  deriving DecidableEq, Repr

/-- One operation, one constructor per row of the opcode table (R90). -/
inductive Instr where
  /-- `XFER w`: send the nine bits of `w`; `w[8]` is the mode bit (R97, R141). -/
  | xfer (w : BitVec 9)
  /-- `WAIT` (R143). -/
  | wait
  /-- `SET_PIN_MODE p, m`; the word has eight bits for `p` (R94, R120). -/
  | setPinMode (p : Nat) (m : PinMode)
  /-- `SET_PIN_LEVEL p, l`; `true` is level 1 (R94, R122). -/
  | setPinLevel (p : Nat) (l : Bool)
  /-- `SETUP` (R144). -/
  | setup
  /-- `TEARDOWN` (R145). -/
  | teardown
  /-- `RUN` (R147). -/
  | run
  deriving DecidableEq, Repr

end Sys2Proof
end

