-- ==== Sys2Proof/WellFormed.lean ====
section
/-! DEFINITION. Which instructions have a word, and which parameter sets an instance may have
(spec/30_encoding.md R94; spec/00_scope.md R8). -/

namespace Sys2Proof

/-- An instruction is well formed when its operands fit the fields of its word: the pin field has eight
bits (R94). A pin above 27 is well formed: it decodes and faults when started (R101). -/
def Instr.wf : Instr → Bool
  | .setPinMode p _ => p < 256
  | .setPinLevel p _ => p < 256
  | .xfer _ => true
  | .wait => true
  | .setup => true
  | .teardown => true
  | .run => true

/-- The constraints of R8 on a parameter set (the range of the pins is in their type): pins pairwise
distinct, `MODE_CODE` injective, both level registers in 7 to 1023 and distinct. -/
abbrev Params.wf (c : Params) : Prop :=
  (c.pinClk ≠ c.pinData ∧ c.pinClk ≠ c.pinCs ∧ c.pinData ≠ c.pinCs) ∧
  c.modeCode.list.Nodup ∧
  (7 ≤ c.gpset ∧ c.gpset ≤ 1023) ∧ (7 ≤ c.gpclr ∧ c.gpclr ≤ 1023) ∧ c.gpset ≠ c.gpclr

end Sys2Proof
end

