-- ==== Sys2Proof/Decode.lean ====
section
/-! DEFINITION. The decoder, total on 16-bit words, the encoder, and the cells of the command space
(spec/30_encoding.md R93 to R97, R100, R106). -/

namespace Sys2Proof

/-- Why a word is reserved (R100): the row of that rule it falls under. -/
inductive Reserved where
  /-- `0000` with any of bits 11:9 set. -/
  | xferHighBits
  /-- `0001`, `0010`, `0011`, `0110`, `0111`, `1001`, `1010`, `1011` or `1111` in bits 15:12. -/
  | opcode
  /-- `0100` with bit 11 set. -/
  | modeBit11
  /-- `0101` with any of bits 11:9 set. -/
  | levelHighBits
  /-- `1000`, `1100`, `1101` or `1110` with any of bits 11:0 set. -/
  | lowBits
  deriving DecidableEq, Repr

/-- The answer of the decoder: an instruction, or INVALID with the reason (R100). -/
inductive Decoded where
  | instr (i : Instr)
  | invalid (why : Reserved)
  deriving DecidableEq, Repr

/-- The selector `s` of a PinMode: its position in the list of variants (R96). -/
def selector : PinMode → BitVec 3
  | .input => 0
  | .output => 1
  | .alt0 => 2
  | .alt1 => 3
  | .alt2 => 4
  | .alt3 => 5
  | .alt4 => 6
  | .alt5 => 7

/-- The PinMode a selector names; all eight selectors are legal (R101). -/
def modeOfSelector (s : BitVec 3) : PinMode :=
  match s.toNat with
  | 0 => .input
  | 1 => .output
  | 2 => .alt0
  | 3 => .alt1
  | 4 => .alt2
  | 5 => .alt3
  | 6 => .alt4
  | _ => .alt5

/-- Which row of R100 a word outside R93 and R94 falls under, by its bits 15:12 (R95). -/
def reservedReason (w : Cell) : Reserved :=
  match (w.extractLsb' 12 4).toNat with
  | 0x0 => .xferHighBits
  | 0x4 => .modeBit11
  | 0x5 => .levelHighBits
  | 0x8 => .lowBits
  | 0xC => .lowBits
  | 0xD => .lowBits
  | 0xE => .lowBits
  | _ => .opcode

/-- The decoder: the mask and match columns of R93 and R94, every other word reserved (R95, R100). -/
def decode (w : Cell) : Decoded :=
  if w &&& 0xFE00#16 = 0x0000#16 then .instr (.xfer (w.extractLsb' 0 9))
  else if w &&& 0xFFFF#16 = 0x8000#16 then .instr .wait
  else if w &&& 0xF800#16 = 0x4000#16 then
    .instr (.setPinMode (w.extractLsb' 0 8).toNat (modeOfSelector (w.extractLsb' 8 3)))
  else if w &&& 0xFE00#16 = 0x5000#16 then .instr (.setPinLevel (w.extractLsb' 0 8).toNat (w.getLsbD 8))
  else if w &&& 0xFFFF#16 = 0xC000#16 then .instr .setup
  else if w &&& 0xFFFF#16 = 0xD000#16 then .instr .teardown
  else if w &&& 0xFFFF#16 = 0xE000#16 then .instr .run
  else .invalid (reservedReason w)

/-- The words of a well-formed instruction, by the patterns of R93 and R94; one word each (R102). -/
def encode : Instr → Cell
  | .xfer w => 0#7 ++ w
  | .wait => 0x8000#16
  | .setPinMode p m => 0b01000#5 ++ selector m ++ BitVec.ofNat 8 p
  | .setPinLevel p l => 0b0101000#7 ++ BitVec.ofBool l ++ BitVec.ofNat 8 p
  | .setup => 0xC000#16
  | .teardown => 0xD000#16
  | .run => 0xE000#16

/-- A command: an element of CMDS (R91). -/
inductive Command where
  | xfer (w : BitVec 9)
  | wait
  deriving DecidableEq, Repr

/-- The command a cell of the command space holds; only format C is admitted there (R93, R101, R106). -/
def decodeCommand (c : Cell) : Option Command :=
  match decode c with
  | .instr (.xfer w) => some (.xfer w)
  | .instr .wait => some .wait
  | _ => none

/-- CMDS is well formed when every cell decodes to XFER or WAIT (R106). -/
def cmdsWellFormed (cmds : List Cell) : Bool :=
  cmds.all (fun c => (decodeCommand c).isSome)

/-- The word the hardware reads from an instruction of `nbits` bits: its low 16 bits, the bits above
`nbits` zero (R102). -/
def tableCell (nbits w : Nat) : Cell := BitVec.ofNat 16 (w % 2 ^ nbits)

end Sys2Proof

/-- The instruction the decoder reads from an instruction whose bits are `w` (`none` where it answers
INVALID). -/
def Sys2Proof.decodeTableWord (nbits w : Nat) : Option Sys2Proof.Instr :=
  match Sys2Proof.decode (Sys2Proof.tableCell nbits w) with
  | .instr i => some i
  | .invalid _ => none
end

