-- ==== Sys2Proof/Machine/State.lean ====
section
/-! DEFINITION. The state of HPTX as plain data, the events, the host's inputs, how a step can stop, and
the state after reset (spec/10_state.md R20 to R38; spec/60_exceptions.md R170, R175, R177). -/

namespace Sys2Proof.Machine

/-- `phase` (R28). -/
inductive Phase where
  | idle | busy | done | aborted
  deriving DecidableEq, Repr

/-- `stage`: `S_ONLY`, `S_SETUP`, `S_CMD`, `S_TEARDOWN` (R27). -/
inductive Stage where
  | only | setup | cmd | teardown
  deriving DecidableEq, Repr

/-- Whether a failing access was a read or a write (R170). -/
inductive Rw where
  | read | write
  deriving DecidableEq, Repr

/-- The fault kinds HPTX itself can raise (R170). -/
inductive FaultKind where
  | invalidPin | registerSpaceInvalid | registerIndexOutOfRange
  deriving DecidableEq, Repr

/-- The value a fault records, the last column of R170. -/
inductive FaultInfo where
  | pin (p : Nat)
  | access (i : Nat) (rw : Rw)
  | index (i : Nat)
  deriving DecidableEq, Repr

/-- The fault record `(kind, code, (op, stage, ci, k, info))` (R177). -/
structure FaultRecord where
  kind  : FaultKind
  code  : Nat
  op    : Option Instr
  stage : Stage
  ci    : Nat
  k     : Nat
  info  : FaultInfo
  deriving DecidableEq, Repr

/-- One event of the trace: `R(i, v)`, `W(i, v)`, `D(n)`, `F(rec)` (R12). -/
inductive Event where
  | read (i : Nat) (v : Word)
  | write (i : Nat) (v : Word)
  | delay (n : Nat)
  | fault (r : FaultRecord)
  deriving DecidableEq, Repr

/-- A device file of the platform (R69, R78): missing or not to be opened, opened but the map call fails,
or usable. -/
inductive Device where
  | absent | mapFails | usable
  deriving DecidableEq, Repr

/-- What the platform step finds (R69, R71, R78, R183): the privilege, the two devices, the three
cell-size entries and the ranges table, each absent or its bytes in file order. -/
structure Platform where
  privileged     : Bool
  gpioDevice     : Device
  physDevice     : Device
  rootAddrCells  : Option (List Byte)
  childAddrCells : Option (List Byte)
  childSizeCells : Option (List Byte)
  ranges         : Option (List Byte)
  deriving DecidableEq, Repr

/-- Where the mapped page sits (R67): offset 0 of the unprivileged device, or a physical address. -/
inductive Page where
  | gpioDevice
  | physical (address : BitVec 64)
  deriving DecidableEq, Repr

/-- What the host may do next. -/
inductive HostEvent where
  /-- Present the word `w` at the operation input and let it run to its end (R151, R153). Log entry 7. -/
  | call (w : Cell)
  /-- Present the word `w` alone: `start` of R151. The steps that follow are the steps of R153. -/
  | start (w : Cell)
  /-- `MemRead(i, 4)` by the host (R58). -/
  | memRead (i : Nat)
  /-- `MemWrite(i, 4, v)` by the host (R58). -/
  | memWrite (i : Nat) (v : Word)
  /-- UNMAP (R60), after `n` more micro-operations: `unmapAfter 0` is UNMAP now. Log entry 8. -/
  | unmapAfter (n : Nat)
  /-- The platform step: privilege check and opening of the register space (R69, R70, R204). -/
  | openSpace (p : Platform)
  /-- Reset: a fresh instance with its parameters bound (R200, R201, R203). -/
  | reset (par : Params)
  deriving DecidableEq, Repr

/-- How a step ends in a fault of the PLATFORM: the software around HPTX ends before HPTX runs (R175).
The faults of HPTX itself are next states with `phase = ABORTED` (R176), not these. All raised by the
`openSpace` event; safe: the spec says no operation is started after one. -/
inductive Fault where
  /-- Code 16: the privilege check fails (R175, R183). Safe. -/
  | privilegeError
  /-- Code 17: neither device path is usable (R175, C4). Safe. -/
  | deviceUnavailableError
  /-- Code 18: a device opened and its map call failed (R175, C4). Safe. -/
  | mappingError
  /-- Code 19: missing or malformed metadata, or an unsupported cell width (R76, R175). Safe. -/
  | metadataParseError
  /-- Code 20: no ranges entry covers the target (R76, R175). Safe. -/
  | addressNotFoundError
  deriving DecidableEq, Repr

/-- The refusals of R174 (and two the model needs): cases the spec gives no meaning. All safe: the run
stops and no claim can be made about it. -/
inductive Refusal where
  /-- Raised by an arm of `exec` whose instruction has no meaning yet; no arm does. Safe. -/
  | notModelled (mnemonic : String)
  /-- Raised by `step` on a reserved operation word (R100, R174). Safe. -/
  | reservedWord (w : Cell) (why : Reserved)
  /-- Raised by `start` and by a direct host access while `phase` does not admit it (R58, R151, R174). Safe. -/
  | notAdmitted
  /-- Raised by `start` of RUN when CMDS is ill formed (R106, R174). Safe. -/
  | illFormedCommands
  /-- Raised by an access to an index below 1024 that is no known register (R55, R174). Safe. -/
  | unknownRegister (i : Nat)
  /-- Raised by the `reset` event with a parameter set that breaks R8 (R171, R174). Safe. -/
  | badParameters
  /-- Raised by the `openSpace` event when the register space was opened before or an operation has
  already been started (R30, R70, D29). Safe. -/
  | openNotAdmitted
  /-- Raised by a micro-step where the program counter names no micro-operation: only in states no run
  reaches (R27). Safe. -/
  | noMicroOperation
  deriving DecidableEq, Repr

/-- The state of HPTX (R20), the parameters of the instance, and the host's inputs still to come. -/
structure State where
  /-- `FSEL[0..6]` (R22) -/
  fsel    : Vector Word 7
  /-- `LAT`, the output level latch (R32) -/
  lat     : Word
  /-- `T` (R25) -/
  t       : Word
  /-- operation in progress (R27) -/
  op      : Option Instr
  stage   : Stage
  /-- command index (R27) -/
  ci      : Nat
  /-- index of the next micro-operation (R27) -/
  k       : Nat
  phase   : Phase
  /-- the fault record (R29) -/
  fault   : Option FaultRecord
  /-- `rs_valid` (R30) -/
  rsValid : Bool
  /-- the trace, first event first (R12, R31) -/
  trace   : List Event
  /-- the instance's parameters (R8, R9); no operation changes them. Log entry 4. -/
  par     : Params
  /-- the page the platform mapped (R67, R70). Log entry 16. -/
  page    : Option Page
  /-- MODEL: host events still to come, next first. Log entry 6. -/
  inputs  : List HostEvent
  /-- MODEL: how many micro-operations until the host's UNMAP (R60). Log entry 8. -/
  unmapIn : Option Nat
  /-- MODEL: how many free draws have been taken (R56). Log entry 9. -/
  draws   : Nat
  deriving DecidableEq, Repr

/-- The state after reset (R38, R201). FSEL, LAT and T have no value in the spec: DESIGN CHOICE 0, log
entries 1 to 3. `par` is PRESUMED, log entries 4 and 5. The last three are the model's own fields. -/
def State.reset : State where
  fsel := Vector.replicate 7 0#32
  lat := 0#32
  t := 0#32
  op := none
  stage := .only
  ci := 0
  k := 0
  phase := .idle
  fault := none
  rsValid := false
  trace := []
  par := Params.family
  page := none
  inputs := []
  unmapIn := none
  draws := 0

/-- How a step or an operation ends. -/
abbrev Result := Host.Outcome State Fault Refusal

end Sys2Proof.Machine
end

