-- ==== Sys2Proof/Machine/Flags.lean ====
section
/-! DEFINITION. The status of HPTX. There are no condition codes and no arithmetic flags (spec/10_state.md
R36); what stands here is what the status admits and what the host reads from it. -/

namespace Sys2Proof.Machine

/-- The phases that admit an operation or a direct host access: IDLE and DONE (R28, R58, R151). -/
def admits : Phase → Bool
  | .idle => true
  | .done => true
  | .busy => false
  | .aborted => false

/-- The code of a fault kind (R170, D18). -/
def faultCode : FaultKind → Nat
  | .invalidPin => 1
  | .registerSpaceInvalid => 2
  | .registerIndexOutOfRange => 3

/-- The code of a platform fault (R175, D18). -/
def platformCode : Fault → Nat
  | .privilegeError => 16
  | .deviceUnavailableError => 17
  | .mappingError => 18
  | .metadataParseError => 19
  | .addressNotFoundError => 20

/-- An operation has ended (R154). -/
def ended (s : State) : Bool := s.phase == .done || s.phase == .aborted

/-- Exit status zero: `phase = DONE` and `fault = none` after RUN (R190). -/
def exitStatusZero (s : State) : Bool :=
  s.phase == .done && s.fault.isNone && s.op == some .run

end Sys2Proof.Machine
end

