-- ==== Sys2Proof/Machine/Operands.lean ====
section
/-! DEFINITION. Operand computations: from a pin index to register operands, and from a PinMode to its
hardware code (spec/30_encoding.md R96, R98; spec/40_gpio_controller.md R125, R127). -/

namespace Sys2Proof.Machine

/-- `MODE_CODE(m)`: the one table of hardware codes (R96, R128). -/
def modeCodeOf (c : ModeCode) : PinMode → BitVec 3
  | .input => c.input
  | .output => c.output
  | .alt0 => c.alt0
  | .alt1 => c.alt1
  | .alt2 => c.alt2
  | .alt3 => c.alt3
  | .alt4 => c.alt4
  | .alt5 => c.alt5

/-- A pin index is valid when it is at most `PIN_MAX` (R37, R120, R122). -/
def pinValid (p : Nat) : Bool := p ≤ Config.pinMax

/-- Function-select register of a pin, `p / 10` (R98). -/
def fselIndex (p : Nat) : Nat := p / Config.fselPins

/-- Shift of a pin's field, `(p % 10) * 3` (R98). -/
def fieldShift (p : Nat) : Nat := p % Config.fselPins * Config.fselFieldBits

/-- `~(0b111 << sh)` at 32 bits (R98). -/
def clearMask (sh : Nat) : Word := ~~~(0b111#32 <<< sh)

/-- `(v & ~(0b111 << sh)) | (zext_32(c) << sh)` (R120). -/
def insertField (v : Word) (sh : Nat) (c : BitVec 3) : Word :=
  (v &&& clearMask sh) ||| (c.setWidth 32 <<< sh)

/-- The 3-bit field of `v` at shift `sh`, `v[sh + 2 : sh]` (R22). -/
def fieldOf (v : Word) (sh : Nat) : BitVec 3 := v.extractLsb' sh 3

/-- Level bank of a pin, `p / 32`, 0 for every valid pin (R98). -/
def levelBank (p : Nat) : Nat := p / Config.levelBankPins

/-- Level bit of a pin, `p % 32` (R98). -/
def levelBit (p : Nat) : Nat := p % Config.levelBankPins

/-- Level word of a pin, `1 << bit` at 32 bits (R98). -/
def levelWord (p : Nat) : Word := 1#32 <<< levelBit p

/-- The register a level write goes to: `GPSET_INDEX + b` to raise, `GPCLR_INDEX + b` to lower (R122). -/
def levelIndex (c : Params) (p : Nat) (l : Bool) : Nat :=
  (if l then c.gpset else c.gpclr) + levelBank p

end Sys2Proof.Machine
end

