-- ==== Sys2Proof/Machine/Ops.lean ====
section
/-! DEFINITION. The named operations: trace, fault, the two access primitives, delay, micro-operations,
UNMAP, reset (spec/20_memory.md R55 to R60; spec/60_exceptions.md R176, R177, R185; spec/41_serial_transmitter.md R152). -/

namespace Sys2Proof.Machine

/-! ### Updates of one or two fields -/

/-- `trace <- trace ++ [e]` (R12). -/
def emit (e : Event) (s : State) : State := { s with trace := s.trace ++ [e] }

/-- `FSEL[i] <- v` (R22). -/
def writeFsel (i : Nat) (h : i < 7) (v : Word) (s : State) : State := { s with fsel := s.fsel.set i v }

/-- `LAT <- v` (R32). -/
def writeLat (v : Word) (s : State) : State := { s with lat := v }

/-- `T <- v` (R25). -/
def writeT (v : Word) (s : State) : State := { s with t := v }

/-- One free draw has been taken (R56). -/
def countDraw (s : State) : State := { s with draws := s.draws + 1 }

/-- Write of the position inside the operation in progress (R27). -/
def setPosition (stage : Stage) (ci k : Nat) (s : State) : State :=
  { s with stage := stage, ci := ci, k := k }

/-- `phase <- DONE` (R153). -/
def complete (s : State) : State := { s with phase := .done }

/-! ### Faults -/

/-- `raise K(info)` with the context `(op, stage, ci, k, info)`: the record is stored, `phase` becomes
ABORTED, the trace gains `F(rec)`, and nothing else changes (R176, R177). -/
def raiseWith (kind : FaultKind) (op : Option Instr) (stage : Stage) (ci k : Nat) (info : FaultInfo)
    (s : State) : State :=
  let rec_ : FaultRecord := ⟨kind, faultCode kind, op, stage, ci, k, info⟩
  { s with fault := some rec_, phase := .aborted, trace := s.trace ++ [.fault rec_] }

/-- `raise` in a step: the context is the program counter of the state (R177). For a direct host access
it is what the last operation left; log entry 14. -/
def raise (kind : FaultKind) (info : FaultInfo) (s : State) : State :=
  raiseWith kind s.op s.stage s.ci s.k info s

/-! ### The access primitives -/

/-- How an access or a micro-operation ends: it answers, it raised (the state is the one after `raise`),
or it is refused. -/
inductive Access (α : Type) where
  | ok (a : α) (s : State)
  | raised (s : State)
  | refused (r : Refusal)
  deriving Repr

/-- `MemRead(i, 4)` (R56), the checks in the order of R179. -/
def memRead (i : Nat) (s : State) : Access Word :=
  if Config.nregs ≤ i then .raised (raise .registerIndexOutOfRange (.index i) s)
  else if !s.rsValid then .raised (raise .registerSpaceInvalid (.access i .read) s)
  else if h : i < 7 then .ok s.fsel[i] (emit (.read i s.fsel[i]) s)
  else if i = s.par.gpset ∨ i = s.par.gpclr then
    .ok (Config.freeRead s.draws) (countDraw (emit (.read i (Config.freeRead s.draws)) s))
  else .refused (.unknownRegister i)

/-- `MemWrite(i, 4, v)` (R57), the checks in the order of R179. -/
def memWrite (i : Nat) (v : Word) (s : State) : Access Unit :=
  if Config.nregs ≤ i then .raised (raise .registerIndexOutOfRange (.index i) s)
  else if !s.rsValid then .raised (raise .registerSpaceInvalid (.access i .write) s)
  else if h : i < 7 then .ok () (emit (.write i v) (writeFsel i h v s))
  else if i = s.par.gpset then .ok () (emit (.write i v) (writeLat (s.lat ||| v) s))
  else if i = s.par.gpclr then .ok () (emit (.write i v) (writeLat (s.lat &&& ~~~v) s))
  else .refused (.unknownRegister i)

/-- `Delay(n)`: the event with the nominal length; no other state changes (R185). -/
def delay (n : Nat) (s : State) : State := emit (.delay n) s

/-! ### Micro-operations -/

/-- The value a `WR` writes (R152): a constant, or the expression of `T` inside SET_PIN_MODE. -/
inductive Expr where
  | const (v : Word)
  | insertT (sh : Nat) (c : BitVec 3)
  deriving DecidableEq, Repr

/-- The three micro-operations (R152). -/
inductive Micro where
  | rd (i : Nat)
  | wr (i : Nat) (e : Expr)
  | dly (n : Nat)
  deriving DecidableEq, Repr

/-- The value of the expression of a `WR`, evaluated at its step (R152). -/
def evalExpr (t : Word) : Expr → Word
  | .const v => v
  | .insertT sh c => insertField t sh c

/-- The effect of one micro-operation (R152). -/
def perform (mu : Micro) (s : State) : Access Unit :=
  match mu with
  | .rd i =>
    match memRead i s with
    | .ok v s1 => .ok () (writeT v s1)
    | .raised s1 => .raised s1
    | .refused r => .refused r
  | .wr i e => memWrite i (evalExpr s.t e) s
  | .dly n => .ok () (delay n s)

/-! ### UNMAP and reset -/

/-- UNMAP: `rs_valid <- 0` (R60). DESIGN CHOICE: of a register space that was never opened it changes nothing and
bars no opening; the spec does not say. Log entry 29. -/
def unmap (s : State) : State := { s with rsValid := false, unmapIn := none }

/-- UNMAP after `n` more micro-operations; at once when `n = 0` (R60; log entry 8). -/
def armUnmap (n : Nat) (s : State) : State :=
  match n with
  | 0 => unmap s
  | n + 1 => { s with unmapIn := some (n + 1) }

/-- One micro-operation has completed: an armed UNMAP comes one nearer (R60; log entry 8). -/
def tickUnmap (s : State) : State :=
  match s.unmapIn with
  | none => s
  | some 0 => unmap s
  | some (n + 1) => armUnmap n s

/-- Reset: a fresh instance with its parameters bound; the register block (`fsel`, `lat`) is not touched
(R200, R201, R203). The host's events still to come and the count of draws are not HPTX's. Log entry 20. -/
def restart (par : Params) (s : State) : State :=
  { State.reset with fsel := s.fsel, lat := s.lat, par := par, inputs := s.inputs, draws := s.draws }

end Sys2Proof.Machine
end

