-- ==== Sys2Proof/Machine/Micros.lean ====
section
/-! DEFINITION. The micro-operation lists of the operations (spec/40_gpio_controller.md R120, R122;
spec/41_serial_transmitter.md R141, R143, R144, R145, R147). -/

namespace Sys2Proof.Machine

/-- `SET_PIN_MODE(p, m)`: `[RD(r), WR(r, ...)]` (R120). -/
def setPinModeMicros (c : Params) (p : Nat) (m : PinMode) : List Micro :=
  [.rd (fselIndex p), .wr (fselIndex p) (.insertT (fieldShift p) (modeCodeOf c.modeCode m))]

/-- `SET_PIN_LEVEL(p, l)`: one write (R122). -/
def setPinLevelMicros (c : Params) (p : Nat) (l : Bool) : List Micro :=
  [.wr (levelIndex c p l) (.const (levelWord p))]

/-- One bit of a word: data, clock low, delay, clock high, delay; the order is fixed (R141, R212). -/
def bitMicros (c : Params) (b : Bool) : List Micro :=
  setPinLevelMicros c c.pinData b ++ setPinLevelMicros c c.pinClk false ++ [.dly Config.tHalf] ++
  setPinLevelMicros c c.pinClk true ++ [.dly Config.tHalf]

/-- The nine bits of a word in the order they are sent, most significant first (R97, R141). -/
def bitsSent (w : BitVec 9) : List Bool := (List.range 9).map (fun j => w.getLsbD (8 - j))

/-- `XFER(w)` (R141). -/
def xferMicros (c : Params) (w : BitVec 9) : List Micro :=
  setPinLevelMicros c c.pinCs false ++ (bitsSent w).flatMap (bitMicros c) ++
  setPinLevelMicros c c.pinData false ++ setPinLevelMicros c c.pinCs true

/-- `WAIT` (R143). -/
def waitMicros : List Micro := [.dly Config.tWait]

/-- `SETUP` (R144). -/
def setupMicros (c : Params) : List Micro :=
  setPinModeMicros c c.pinClk .output ++ setPinModeMicros c c.pinData .output ++
  setPinModeMicros c c.pinCs .output ++ setPinLevelMicros c c.pinCs true ++
  setPinLevelMicros c c.pinClk false ++ setPinLevelMicros c c.pinData false

/-- `TEARDOWN` (R145). -/
def teardownMicros (c : Params) : List Micro :=
  setPinModeMicros c c.pinClk .input ++ setPinModeMicros c c.pinData .input ++
  setPinModeMicros c c.pinCs .input

/-- The item of one command cell inside RUN (R147); a cell that holds no command has none (R106). -/
def cellMicros (c : Params) (cell : Cell) : List Micro :=
  match decodeCommand cell with
  | some (.xfer w) => xferMicros c w
  | some .wait => waitMicros
  | none => []

/-- The items of RUN by stage (R147). -/
def runMicros (c : Params) (stage : Stage) (ci : Nat) : List Micro :=
  match stage with
  | .setup => setupMicros c
  | .cmd =>
    match c.cmds[ci]? with
    | some cell => cellMicros c cell
    | none => []
  | .teardown => teardownMicros c
  | .only => []

/-- The micro-operation list of the item an operation is at (R153: "by op, stage, ci"). -/
def itemMicros (c : Params) (o : Instr) (stage : Stage) (ci : Nat) : List Micro :=
  match o with
  | .xfer w => xferMicros c w
  | .wait => waitMicros
  | .setPinMode p m => setPinModeMicros c p m
  | .setPinLevel p l => setPinLevelMicros c p l
  | .setup => setupMicros c
  | .teardown => teardownMicros c
  | .run => runMicros c stage ci

/-- How many steps an operation takes when nothing faults; known when it starts (R148, R149). -/
def opLength (c : Params) (o : Instr) : Nat :=
  match o with
  | .run =>
    (setupMicros c).length + (c.cmds.map (fun cell => (cellMicros c cell).length)).sum +
    (teardownMicros c).length
  | _ => (itemMicros c o .only 0).length

end Sys2Proof.Machine
end

