-- ==== Sys2Proof/Machine/Sequencer.lean ====
section
/-! DEFINITION. The sequencer: starting an operation, one step, an operation from its start to its end, and
the values that are functions of the program counter (spec/41_serial_transmitter.md R146, R151, R153;
spec/10_state.md R26, R27). -/

namespace Sys2Proof.Machine

/-- The pin an operation names that is out of range, if any (R151, R171): only SET_PIN_MODE and
SET_PIN_LEVEL name one. -/
def badPin : Instr → Option Nat
  | .setPinMode p _ => if pinValid p then none else some p
  | .setPinLevel p _ => if pinValid p then none else some p
  | .xfer _ => none
  | .wait => none
  | .setup => none
  | .teardown => none
  | .run => none

/-- The last lines of `start`: `op <- o; phase <- BUSY; k <- 0`, the first stage, `ci <- 0` (R151). -/
def launch (o : Instr) (s : State) : State :=
  { s with op := some o, phase := .busy, stage := if o = .run then .setup else .only, ci := 0, k := 0 }

/-- `start(o)` of a decoded operation, the checks in the order of R151 and R179. -/
def start (o : Instr) (s : State) : Result :=
  if !admits s.phase then .refused .notAdmitted
  else if o = .run ∧ cmdsWellFormed s.par.cmds = false then .refused .illFormedCommands
  else
    match badPin o with
    | some p => .next (raiseWith .invalidPin (some o) .only 0 0 (.pin p) s)
    | none => .next (launch o s)

/-- The micro-operation list of the current item (R153). -/
def currentItem (s : State) : List Micro :=
  match s.op with
  | some o => itemMicros s.par o s.stage s.ci
  | none => []

/-- The program counter moves past a micro-operation that completed (R27, R153). -/
def advance (s : State) : State :=
  if s.k + 1 < (currentItem s).length then setPosition s.stage s.ci (s.k + 1) s
  else
    match s.stage with
    | .only => complete s
    | .setup => if 0 < s.par.cmds.length then setPosition .cmd 0 0 s else setPosition .teardown s.ci 0 s
    | .cmd =>
      if s.ci + 1 < s.par.cmds.length then setPosition .cmd (s.ci + 1) 0 s
      else setPosition .teardown s.ci 0 s
    | .teardown => complete s

/-- One step of the sequencer (R153): exactly one micro-operation, then the program counter moves; a
fault leaves it where it stands (R176). -/
def microStep (s : State) : Result :=
  match (currentItem s)[s.k]? with
  | none => .refused .noMicroOperation
  | some mu =>
    match perform mu s with
    | .ok () s1 => .next (tickUnmap (advance s1))
    | .raised s1 => .next s1
    | .refused r => .refused r

/-- Up to `n` steps of the sequencer, while it is BUSY (R153, R154). -/
def finish : Nat → State → Result
  | 0, s => .next s
  | n + 1, s =>
    if s.phase = .busy then
      match microStep s with
      | .next s1 => finish n s1
      | .fault r => .fault r
      | .refused r => .refused r
    else .next s

/-- An operation from its start to its end: `start`, then one step for each of its micro-operations
(R149, R151, R153). -/
def runOperation (o : Instr) (s : State) : Result :=
  match start o s with
  | .next s1 => finish (opLength s1.par o) s1
  | .fault r => .fault r
  | .refused r => .refused r

/-- `Wd`, the word being sent, in stage `S_CMD` of RUN (R26, R146). -/
def wordSent (s : State) : Option (BitVec 9) :=
  if s.op = some .run ∧ s.stage = .cmd then
    match (s.par.cmds[s.ci]?).bind decodeCommand with
    | some (.xfer w) => some w
    | some .wait => none
    | none => none
  else none

/-- `bi`, the bit counter, a function of `k`: 8 down to 0 for `k` 1 to 45, none at 0, 46 and 47 (R146). -/
def bitCounter (k : Nat) : Option Nat :=
  if 1 ≤ k ∧ k ≤ 45 then some (8 - (k - 1) / 5) else none

end Sys2Proof.Machine
end

