-- ==== Sys2Proof/Machine/Gpio.lean ====
section
/-! DEFINITION. The operations of the GPIO controller (spec/40_gpio_controller.md R120, R122, R124, R129). -/

namespace Sys2Proof.Machine

/-- `SET_PIN_MODE p, m` (R120, R124): `InvalidPin` before any access when `p > 27`, else the
read-modify-write of `setPinModeMicros`. -/
def execSetPinMode (p : Nat) (m : PinMode) (s : State) : Result := runOperation (.setPinMode p m) s

/-- `SET_PIN_LEVEL p, l` (R122, R124): `InvalidPin` before any access when `p > 27`, else the one write of
`setPinLevelMicros`. -/
def execSetPinLevel (p : Nat) (l : Bool) (s : State) : Result := runOperation (.setPinLevel p l) s

end Sys2Proof.Machine
end

