-- ==== Sys2Proof/Machine/Transmitter.lean ====
section
/-! DEFINITION. The operations of the serial transmitter (spec/41_serial_transmitter.md R141, R143, R144, R145, R147). -/

namespace Sys2Proof.Machine

/-- `XFER w` (R141): the 48 micro-operations of `xferMicros`. -/
def execXfer (w : BitVec 9) (s : State) : Result := runOperation (.xfer w) s

/-- `WAIT` (R143): the one delay of `waitMicros`. -/
def execWait (s : State) : Result := runOperation .wait s

/-- `SETUP` (R144): the nine micro-operations of `setupMicros`. -/
def execSetup (s : State) : Result := runOperation .setup s

/-- `TEARDOWN` (R145): the six micro-operations of `teardownMicros`. -/
def execTeardown (s : State) : Result := runOperation .teardown s

/-- `RUN` (R147): SETUP, every command of CMDS in order, TEARDOWN; refused as a whole when CMDS is ill
formed (R106). -/
def execRun (s : State) : Result := runOperation .run s

end Sys2Proof.Machine
end

