-- ==== Sys2Proof/Machine/Dispatch.lean ====
section
/-! DEFINITION. One arm per operation (spec/30_encoding.md R90). -/

namespace Sys2Proof.Machine

def exec (i : Instr) (s : State) : Host.Outcome State Fault Refusal :=
  match i with
  | .xfer w => Sys2Proof.Machine.execXfer w s
  | .wait => Sys2Proof.Machine.execWait s
  | .setPinMode p m => Sys2Proof.Machine.execSetPinMode p m s
  | .setPinLevel p l => Sys2Proof.Machine.execSetPinLevel p l s
  | .setup => Sys2Proof.Machine.execSetup s
  | .teardown => Sys2Proof.Machine.execTeardown s
  | .run => Sys2Proof.Machine.execRun s

end Sys2Proof.Machine
end

