-- ==== Sys2Proof/Machine/Platform.lean ====
section
/-! DEFINITION. The platform step around HPTX: privilege check, opening of the register space, address
resolution (spec/20_memory.md R67 to R78; spec/60_exceptions.md R175, R183; spec/70_reset_and_hazards.md R204). -/

namespace Sys2Proof.Machine

/-- The value of big-endian bytes in file order (R71, R72). -/
def bigEndian (bytes : List Byte) : Nat := bytes.foldl (fun a b => 256 * a + b.toNat) 0

/-- A cell-size field: its default when the entry is absent, else a 4-byte big-endian integer which must
be 1 or 2 (R71, R72, R76; log entry 24). -/
def cellSize (default : Nat) (entry : Option (List Byte)) : Except Fault Nat :=
  match entry with
  | none => .ok default
  | some bytes =>
    if bytes.length = 4 ∧ (bigEndian bytes = 1 ∨ bigEndian bytes = 2) then .ok (bigEndian bytes)
    else .error .metadataParseError

/-- An AddressRange: `(child_address, parent_address, length)` (R77). -/
structure AddressRange where
  child  : Nat
  parent : Nat
  length : Nat
  deriving DecidableEq, Repr

/-- Record `j` of a ranges table: the three fields in order, widths `4 * cells` (R72). -/
def rangeAt (child root size : Nat) (table : List Byte) (j : Nat) : AddressRange :=
  let r := (table.drop (j * (4 * (child + root + size)))).take (4 * (child + root + size))
  ⟨bigEndian (r.take (4 * child)), bigEndian ((r.drop (4 * child)).take (4 * root)),
    bigEndian (r.drop (4 * (child + root)))⟩

/-- The records of a ranges table; a table that is no whole number of records is malformed (R72). -/
def parseRanges (child root size : Nat) (table : List Byte) : Except Fault (List AddressRange) :=
  if table.length % (4 * (child + root + size)) = 0 then
    .ok ((List.range (table.length / (4 * (child + root + size)))).map (rangeAt child root size table))
  else .error .metadataParseError

/-- A range contains the target; the sum does not wrap (R73). -/
def AddressRange.covers (target : Nat) (r : AddressRange) : Bool :=
  r.child ≤ target && target < r.child + r.length

/-- A PeripheralAddress: the exact sum where it fits 64 bits, a free value where it does not (R75; log
entry 17). -/
def peripheralAddress (n : Nat) : BitVec 64 :=
  if n < 2 ^ 64 then BitVec.ofNat 64 n else Config.addressOverflow n

/-- `resolve(target)` (R71 to R76): the first record that covers the target, and
`target - child + parent`. -/
def resolve (p : Platform) (target : Nat) : Except Fault (BitVec 64) := do
  let root ← cellSize Config.defRootAddrCells p.rootAddrCells
  let child ← cellSize Config.defChildAddrCells p.childAddrCells
  let size ← cellSize Config.defChildSizeCells p.childSizeCells
  match p.ranges with
  | none => .error .metadataParseError
  | some table =>
    let records ← parseRanges child root size table
    match records.find? (AddressRange.covers target) with
    | none => .error .addressNotFoundError
    | some r => .ok (peripheralAddress (target - r.child + r.parent))

/-- Opening (R69, R74, R175, C4): the privilege check, the unprivileged device, else the privileged
device at `resolve(GPIO_CHILD_ADDRESS)`. Log entry 15 says which failure surfaces. -/
def openPage (p : Platform) : Except Fault Page :=
  if !p.privileged then .error .privilegeError
  else if p.gpioDevice = .usable then .ok .gpioDevice
  else
    match p.physDevice with
    | .absent =>
      .error (if p.gpioDevice = .mapFails then .mappingError else .deviceUnavailableError)
    | .mapFails =>
      match resolve p Config.gpioChildAddress with
      | .ok _ => .error .mappingError
      | .error f => .error f
    | .usable =>
      match resolve p Config.gpioChildAddress with
      | .ok a => .ok (.physical a)
      | .error f => .error f

/-- The platform step on the state: `rs_valid <- 1` on success (R70), a platform fault otherwise (R175);
once per instance, before the first operation (R30, R205, D29; log entry 16). DESIGN CHOICE: "once" counts
openings (`page`), so an UNMAP taken before the first opening does not bar it; log entry 29. -/
def openSpace (p : Platform) (s : State) : Result :=
  if s.phase = .idle ∧ s.page = none then
    match openPage p with
    | .ok page => .next { s with rsValid := true, page := some page }
    | .error f => .fault f
  else .refused .openNotAdmitted

end Sys2Proof.Machine
end

