-- ==== Sys2Proof/Machine/HostPort.lean ====
section
/-! DEFINITION. The host's side: direct register accesses, the host's events, and what moves next
(spec/20_memory.md R58, R60; spec/41_serial_transmitter.md R151, R153; spec/70_reset_and_hazards.md R200, R202). -/

namespace Sys2Proof.Machine

/-- A direct host access, admitted only while `phase` is IDLE or DONE (R58). A fault it raises sets
`phase <- ABORTED` like any other. -/
def hostAccess {α : Type} (access : State → Access α) (s : State) : Result :=
  if admits s.phase then
    match access s with
    | .ok _ s1 => .next s1
    | .raised s1 => .next s1
    | .refused r => .refused r
  else .refused .notAdmitted

/-- Decode the word at the operation input; a reserved word is refused (R100, R151). -/
def fetch (w : Cell) (run : Instr → State → Result) (s : State) : Result :=
  match decode w with
  | .instr i => run i s
  | .invalid why => .refused (.reservedWord w why)

/-- One host event; `run` is the meaning of an operation from its start to its end. -/
def takeInput (run : Instr → State → Result) (e : HostEvent) (s : State) : Result :=
  match e with
  | .call w => fetch w run s
  | .start w => fetch w start s
  | .memRead i => hostAccess (memRead i) s
  | .memWrite i v => hostAccess (memWrite i v) s
  | .unmapAfter n => .next (armUnmap n s)
  | .openSpace p => openSpace p s
  | .reset par => if par.wf then .next (restart par s) else .refused .badParameters

/-- What moves next: while BUSY the sequencer steps and the host waits (R153, D20); otherwise the host's
next event is taken; with none, HPTX does nothing (R202; log entry 11). -/
def machineStep (run : Instr → State → Result) (s : State) : Result :=
  if s.phase = .busy then microStep s
  else
    match s.inputs with
    | [] => .next s
    | e :: rest => takeInput run e { s with inputs := rest }

/-- Place the word `w` as the next event at the operation input. An operation in progress would move
first, so it is taken as ended (log entry 6). -/
def placeWord (w : Cell) (s : State) : State :=
  { s with inputs := .call w :: s.inputs, phase := if s.phase = .busy then .done else s.phase }

end Sys2Proof.Machine
end

