-- ==== Sys2Proof/Machine/Step.lean ====
section
/-! DEFINITION. One step of the machine, and the placing of a word where the step fetches
(spec/41_serial_transmitter.md R151, R153). -/

namespace Sys2Proof.Machine

/-- One step: of the sequencer while BUSY, else the host's next event. -/
def step (s : State) : Host.Outcome State Fault Refusal := machineStep exec s

/-- `s` with the word `w` (bits above `nbits` zero) as the next event at the operation input. -/
def State.withFetchWord (s : State) (nbits w : Nat) : State := placeWord (tableCell nbits w) s

end Sys2Proof.Machine
end

