-- ==== Sys2Proof/Machine/Assembler.lean ====
section
/-! DEFINITION. The textual form of programs and its pseudo-instructions (spec/30_encoding.md R103, R104). -/

namespace Sys2Proof.Machine

/-- The pseudo-instructions (R104). -/
inductive Pseudo where
  | xferm (m : Bool) (d : BitVec 8)
  | output (p : Nat)
  | input (p : Nat)
  | high (p : Nat)
  | low (p : Nat)
  deriving DecidableEq, Repr

/-- What a pseudo-instruction stands for (R104). -/
def expand : Pseudo → Instr
  | .xferm m d => .xfer (BitVec.ofBool m ++ d)
  | .output p => .setPinMode p .output
  | .input p => .setPinMode p .input
  | .high p => .setPinLevel p true
  | .low p => .setPinLevel p false

/-- White space inside a line (log entry 25). -/
def isBlank (c : Char) : Bool := c == ' ' || c == '\t' || c == '\r'

/-- A text without the white space at its two ends. -/
def trim (cs : List Char) : List Char :=
  ((cs.dropWhile isBlank).reverse.dropWhile isBlank).reverse

/-- The pieces of a text between separators; a text without separator is one piece. -/
def pieces (sep : Char) : List Char → List (List Char)
  | [] => [[]]
  | c :: rest =>
    if c = sep then [] :: pieces sep rest
    else
      match pieces sep rest with
      | [] => [[c]]
      | p :: ps => (c :: p) :: ps

/-- The value of a digit. -/
def digitValue (c : Char) : Option Nat :=
  if '0' ≤ c ∧ c ≤ '9' then some (c.toNat - 48)
  else if 'a' ≤ c ∧ c ≤ 'f' then some (c.toNat - 87)
  else if 'A' ≤ c ∧ c ≤ 'F' then some (c.toNat - 55)
  else none

/-- The digits of a number in a base, after the part `acc` already read. -/
def digits (base acc : Nat) : List Char → Option Nat
  | [] => some acc
  | c :: rest =>
    match digitValue c with
    | some d => if d < base then digits base (base * acc + d) rest else none
    | none => none

/-- A number: decimal, `0x` hexadecimal or `0b` binary (R103). -/
def number (cs : List Char) : Option Nat :=
  match cs with
  | '0' :: 'x' :: d :: rest => digits 16 0 (d :: rest)
  | '0' :: 'b' :: d :: rest => digits 2 0 (d :: rest)
  | d :: rest => digits 10 0 (d :: rest)
  | [] => none

/-- A number below a bound. -/
def numberBelow (bound : Nat) (cs : List Char) : Option Nat :=
  match number cs with
  | some n => if n < bound then some n else none
  | none => none

/-- The mode names, case sensitive (R103). -/
def modeName (cs : List Char) : Option PinMode :=
  if cs = "Input".toList then some .input
  else if cs = "Output".toList then some .output
  else if cs = "Alt0".toList then some .alt0
  else if cs = "Alt1".toList then some .alt1
  else if cs = "Alt2".toList then some .alt2
  else if cs = "Alt3".toList then some .alt3
  else if cs = "Alt4".toList then some .alt4
  else if cs = "Alt5".toList then some .alt5
  else none

/-- The level names: `0`, `1`, `Low`, `High` (R103). -/
def levelName (cs : List Char) : Option Bool :=
  if cs = "0".toList ∨ cs = "Low".toList then some false
  else if cs = "1".toList ∨ cs = "High".toList then some true
  else none

/-- A mnemonic with its operands: the seven operations (R103) and the pseudo-instructions (R104). -/
def assembleOperation (mnemonic : List Char) (operands : List (List Char)) : Option Instr :=
  match operands with
  | [] =>
    if mnemonic = "WAIT".toList then some .wait
    else if mnemonic = "SETUP".toList then some .setup
    else if mnemonic = "TEARDOWN".toList then some .teardown
    else if mnemonic = "RUN".toList then some .run
    else none
  | [a] =>
    if mnemonic = "XFER".toList then (numberBelow 512 a).map (fun n => .xfer (BitVec.ofNat 9 n))
    else if mnemonic = "OUTPUT".toList then (numberBelow 256 a).map (fun p => expand (.output p))
    else if mnemonic = "INPUT".toList then (numberBelow 256 a).map (fun p => expand (.input p))
    else if mnemonic = "HIGH".toList then (numberBelow 256 a).map (fun p => expand (.high p))
    else if mnemonic = "LOW".toList then (numberBelow 256 a).map (fun p => expand (.low p))
    else none
  | [a, b] =>
    if mnemonic = "SET_PIN_MODE".toList then
      (numberBelow 256 a).bind (fun p => (modeName b).map (fun m => .setPinMode p m))
    else if mnemonic = "SET_PIN_LEVEL".toList then
      (numberBelow 256 a).bind (fun p => (levelName b).map (fun l => .setPinLevel p l))
    else if mnemonic = "XFERM".toList then
      (numberBelow 2 a).bind (fun m =>
        (numberBelow 256 b).map (fun d => expand (.xferm (m == 1) (BitVec.ofNat 8 d))))
    else none
  | _ => none

/-- One line: `some none` for a line that holds no operation, `none` for a malformed one (R103). -/
def assembleLine (line : List Char) : Option (Option Instr) :=
  let code := trim (line.takeWhile (· != ';'))
  let mnemonic := code.takeWhile (fun c => !isBlank c)
  let rest := trim (code.dropWhile (fun c => !isBlank c))
  if code.isEmpty then some none
  else (assembleOperation mnemonic (if rest.isEmpty then [] else (pieces ',' rest).map trim)).map some

/-- A program: its operations, first line first; `none` when a line is malformed (R103). -/
def assemble (text : List Char) : Option (List Instr) :=
  ((pieces '\n' text).mapM assembleLine).map (fun ls => ls.filterMap id)

/-- A command sequence: a program made only of XFER and WAIT lines, as cells (R103, R107). -/
def assembleCommands (text : List Char) : Option (List Cell) :=
  match assemble text with
  | none => none
  | some is => if cmdsWellFormed (is.map encode) then some (is.map encode) else none

end Sys2Proof.Machine
end

