-- ==== Sys2Proof/Machine/Observation.lean ====
section
/-! DEFINITION. What is observed: the drive state of a pin, the wire, edges, samples and frames, and counts
over the trace (spec/10_state.md R33; spec/41_serial_transmitter.md R142, R148, R156; spec/70_reset_and_hazards.md R225).
Nothing here is state and nothing in the machine reads it. -/

namespace Sys2Proof.Machine

/-! ### Pins and the wire -/

/-- What a pin presents to the outside (R16, R33). A released or alternate pin carries no level. -/
inductive Drive where
  | driven (level : Bool)
  | released
  | alt (code : BitVec 3)
  deriving DecidableEq, Repr

/-- The mode field of a valid pin (R22). -/
def pinField (s : State) (p : Fin 28) : BitVec 3 :=
  fieldOf (s.fsel[p.val / 10]'(by omega)) (fieldShift p.val)

/-- The drive state of a valid pin, a function of FSEL and LAT (R33). -/
def drive (s : State) (p : Fin 28) : Drive :=
  if pinField s p = modeCodeOf s.par.modeCode .output then .driven (s.lat.getLsbD p.val)
  else if pinField s p = modeCodeOf s.par.modeCode .input then .released
  else .alt (pinField s p)

/-- The wire: `(CLK, DATA, CS)` (R156). -/
structure Wire where
  clk  : Drive
  data : Drive
  cs   : Drive
  deriving DecidableEq, Repr

/-- The wire of a state (R156). -/
def wire (s : State) : Wire := ⟨drive s s.par.pinClk, drive s s.par.pinData, drive s s.par.pinCs⟩

/-- A pin goes from driven at `x` to driven at `!x` across a step. -/
def risesFrom (x : Bool) (before after : Drive) : Bool :=
  before == .driven x && after == .driven (!x)

/-- A rising clock edge across a step (R156). -/
def risingClock (before after : Wire) : Bool := risesFrom false before.clk after.clk

/-- The level a drive state carries, none when the pin is not driven (R33). -/
def levelOf : Drive → Option Bool
  | .driven x => some x
  | .released => none
  | .alt _ => none

/-- A sample across a step: a rising clock edge with chip-select driven low; its value is the driven data
level, not defined (`none`) otherwise (R156; log entry 21). -/
def sampleAt (before after : Wire) : Option (Option Bool) :=
  if risingClock before after ∧ after.cs = .driven false then some (levelOf after.data) else none

/-- The closed frames of a sequence of wires: `cur` holds the samples since chip-select fell, `w` is the
last wire (R156). -/
def framesFrom (cur : Option (List (Option Bool))) (w : Wire) : List Wire → List (List (Option Bool))
  | [] => []
  | v :: rest =>
    let fallen := if risesFrom true w.cs v.cs then some [] else cur
    let sampled :=
      match fallen, sampleAt w v with
      | some f, some x => some (f ++ [x])
      | some f, none => some f
      | none, _ => none
    if risesFrom false w.cs v.cs then
      match sampled with
      | some f => f :: framesFrom none v rest
      | none => framesFrom none v rest
    else framesFrom sampled v rest

/-- How many rising clock edges a sequence of wires shows, from the wire `w` on. -/
def risingEdges (w : Wire) : List Wire → Nat
  | [] => 0
  | v :: rest => (if risingClock w v then 1 else 0) + risingEdges v rest

/-- The wires after each of up to `n` steps of the sequencer (R156). -/
def wiresOf : Nat → State → List Wire
  | 0, _ => []
  | n + 1, s =>
    if s.phase = .busy then
      match microStep s with
      | .next s1 => wire s1 :: wiresOf n s1
      | .fault _ => []
      | .refused _ => []
    else []

/-- The wires an operation shows after each of its steps, when it starts. -/
def operationWires (o : Instr) (s : State) : List Wire :=
  match start o s with
  | .next s1 => wiresOf (opLength s1.par o) s1
  | .fault _ => []
  | .refused _ => []

/-! ### Counts over the trace -/

/-- The event is a read. -/
def isRead : Event → Bool
  | .read _ _ => true
  | .write _ _ => false
  | .delay _ => false
  | .fault _ => false

/-- The event is a write. -/
def isWrite : Event → Bool
  | .read _ _ => false
  | .write _ _ => true
  | .delay _ => false
  | .fault _ => false

/-- The nominal length of an event in microseconds (R185, R225). -/
def nominalOf : Event → Nat
  | .read _ _ => 0
  | .write _ _ => 0
  | .delay n => n
  | .fault _ => 0

/-- The nominal duration of a trace: the sum of its `D` events (R225). -/
def nominalDuration (tr : List Event) : Nat := (tr.map nominalOf).sum

/-- The fault records of a trace (R12, R176). -/
def faultRecords (tr : List Event) : List FaultRecord :=
  tr.filterMap (fun e =>
    match e with
    | .read _ _ => none
    | .write _ _ => none
    | .delay _ => none
    | .fault r => some r)

/-- The register an event accessed. -/
def registerOf : Event → Option Nat
  | .read i _ => some i
  | .write i _ => some i
  | .delay _ => none
  | .fault _ => none

/-- The registers this spec gives meaning to (R21, R55): `FSEL[0..6]`, SET and CLEAR. -/
def knownRegister (c : Params) (i : Nat) : Bool := i ≤ Config.fselIndexMax || i == c.gpset || i == c.gpclr

end Sys2Proof.Machine
end

