-- ==== Sys2Proof/Safety.lean ====
section
/-! DEFINITION. The invariant of the machine, and what counts as a run that succeeded
(spec/10_state.md R27 to R30, R37; spec/60_exceptions.md R178, R179). -/

namespace Sys2Proof.Machine

/-- The program counter of an operation in progress names a micro-operation (R27): the pin is valid, `k`
is below the length of the item, `stage` is one of the operation's stages, and inside RUN the cells are
commands and `ci` is one of them while a command is sent. -/
abbrev positionLegal (o : Instr) (s : State) : Prop :=
  badPin o = none ∧ s.k < (itemMicros s.par o s.stage s.ci).length ∧
  (o = .run ↔ s.stage ≠ .only) ∧ (o = .run → cmdsWellFormed s.par.cmds = true) ∧
  (s.stage = .cmd → s.ci < s.par.cmds.length)

/-- While an operation is in progress the program counter is legal (R27, R28). -/
abbrev busyLegal (s : State) : Prop :=
  s.phase = .busy → s.op.isSome = true ∧ ∀ o ∈ s.op, positionLegal o s

/-- What every step keeps: the parameters meet R8; the program counter is legal while BUSY; IDLE has run
nothing (R28); a fault is recorded exactly in ABORTED and it is the only fault of the trace (R29, R179);
the register space is usable only once opened (R30, R70); an armed UNMAP has not yet come; every access in
the trace is to a known register (R55). -/
abbrev Inv (s : State) : Prop :=
  s.par.wf ∧ busyLegal s ∧ (s.phase = .idle → s.op = none) ∧
  (s.fault.isSome = true ↔ s.phase = .aborted) ∧ faultRecords s.trace = s.fault.toList ∧
  (s.rsValid = true → s.page.isSome = true) ∧ s.unmapIn ≠ some 0 ∧
  ∀ e ∈ s.trace, ∀ i ∈ registerOf e, knownRegister s.par i = true

/-- A run that succeeded: `phase = DONE` and no fault (R28, R178). -/
abbrev succeeded (s : State) : Prop := s.phase = .done ∧ s.fault = none

end Sys2Proof.Machine
end

