-- ==== Sys2Proof/Certificates/Slice0/Obligations.lean ====
section
/-! DEFINITION. The statements for the provers, each from the rules its docstring names. The helpers come
first: the traces and register contents the rules write out, in terms of the parameters alone. -/

open Sys2Proof Sys2Proof.Machine

namespace Sys2Proof.Expected

/-- `1 << p` for a pin: the abbreviations `bCLK`, `bDAT`, `bCS` of the spec (R98). -/
def pinBit (p : Nat) : Word := 1#32 <<< p

/-- `(v & ~(0b111 << sh)) | (zext_32(c) << sh)` with `sh = (p % 10) * 3` (R120). -/
def withCode (v : Word) (p : Nat) (c : BitVec 3) : Word :=
  (v &&& ~~~(7#32 <<< (p % 10 * 3))) ||| (c.setWidth 32 <<< (p % 10 * 3))

/-- The function-select register of a valid pin, `FSEL[p / 10]` (R22). -/
def bankOf (f : Vector Word 7) (p : Fin 28) : Word := f[p.val / 10]'(by omega)

/-- The function-select registers after one read-modify-write for a valid pin (R120). -/
def modeSet (f : Vector Word 7) (p : Fin 28) (c : BitVec 3) : Vector Word 7 :=
  f.set (p.val / 10) (withCode (bankOf f p) p.val c) (by omega)

/-- The three modes set one after another: clock, data, chip-select (R144, R145). -/
def threeModes (c : Params) (code : BitVec 3) (f : Vector Word 7) : Vector Word 7 :=
  modeSet (modeSet (modeSet f c.pinClk code) c.pinData code) c.pinCs code

/-- The six events of the three read-modify-writes (R144, R145). -/
def modeEvents (c : Params) (code : BitVec 3) (f : Vector Word 7) : List Event :=
  let f1 := modeSet f c.pinClk code
  let f2 := modeSet f1 c.pinData code
  let f3 := modeSet f2 c.pinCs code
  [.read (c.pinClk.val / 10) (bankOf f c.pinClk), .write (c.pinClk.val / 10) (bankOf f1 c.pinClk),
   .read (c.pinData.val / 10) (bankOf f1 c.pinData), .write (c.pinData.val / 10) (bankOf f2 c.pinData),
   .read (c.pinCs.val / 10) (bankOf f2 c.pinCs), .write (c.pinCs.val / 10) (bankOf f3 c.pinCs)]

/-- The value the third of the three read-modify-writes leaves in `T` (R25, R144, R145). -/
def lastRead (c : Params) (code : BitVec 3) (f : Vector Word 7) : Word :=
  bankOf (modeSet (modeSet f c.pinClk code) c.pinData code) c.pinCs

/-- The nine events of SETUP (R144). -/
def setupEvents (c : Params) (f : Vector Word 7) : List Event :=
  modeEvents c c.modeCode.output f ++
  [.write c.gpset (pinBit c.pinCs), .write c.gpclr (pinBit c.pinClk), .write c.gpclr (pinBit c.pinData)]

/-- The latch after SETUP (R144). -/
def setupLat (c : Params) (v : Word) : Word :=
  ((v ||| pinBit c.pinCs) &&& ~~~pinBit c.pinClk) &&& ~~~pinBit c.pinData

/-- The six events of TEARDOWN (R145). -/
def teardownEvents (c : Params) (f : Vector Word 7) : List Event := modeEvents c c.modeCode.input f

/-- The 48 events of XFER, by the table of R141. -/
def xferEvents (c : Params) (w : BitVec 9) : List Event :=
  [.write c.gpclr (pinBit c.pinCs)] ++
  (List.range 9).flatMap (fun j =>
    [.write (if w.getLsbD (8 - j) then c.gpset else c.gpclr) (pinBit c.pinData),
     .write c.gpclr (pinBit c.pinClk), .delay 100, .write c.gpset (pinBit c.pinClk), .delay 100]) ++
  [.write c.gpclr (pinBit c.pinData), .write c.gpset (pinBit c.pinCs)]

/-- The latch after XFER: clock high, data low, chip-select high, the rest as before (R141, R157). -/
def xferLat (c : Params) (v : Word) : Word :=
  ((v ||| pinBit c.pinClk) &&& ~~~pinBit c.pinData) ||| pinBit c.pinCs

/-- The events of one cell of CMDS inside RUN (R147). -/
def cellEvents (c : Params) (cell : Cell) : List Event :=
  match decode cell with
  | .instr (.xfer w) => xferEvents c w
  | .instr .wait => [.delay 120000]
  | _ => []

/-- The cell is an XFER. -/
def isXferCell (cell : Cell) : Bool :=
  match decode cell with
  | .instr (.xfer _) => true
  | _ => false

/-- The cell is a WAIT. -/
def isWaitCell (cell : Cell) : Bool :=
  match decode cell with
  | .instr .wait => true
  | _ => false

/-- All events of RUN (R147). -/
def runEvents (c : Params) (f : Vector Word 7) : List Event :=
  setupEvents c f ++ c.cmds.flatMap (cellEvents c) ++
  teardownEvents c (threeModes c c.modeCode.output f)

/-- The state in which a fault of kind `kind` leaves the machine (R176, R177). -/
def abortedWith (s : State) (r : FaultRecord) : State :=
  { s with fault := some r, phase := .aborted, trace := s.trace ++ [.fault r] }

/-- The function-select registers after the writes of a list of events (R22, R61). -/
def replayFsel (f : Vector Word 7) : List Event → Vector Word 7
  | [] => f
  | .write i v :: rest => replayFsel (if h : i < 7 then f.set i v else f) rest
  | .read _ _ :: rest => replayFsel f rest
  | .delay _ :: rest => replayFsel f rest
  | .fault _ :: rest => replayFsel f rest

/-- The latch after the writes of a list of events: SET raises, CLEAR lowers, nothing else changes it (R32). -/
def replayLat (c : Params) (l : Word) : List Event → Word
  | [] => l
  | .write i v :: rest =>
    replayLat c (if i < 7 then l else if i = c.gpset then l ||| v else if i = c.gpclr then l &&& ~~~v else l)
      rest
  | .read _ _ :: rest => replayLat c l rest
  | .delay _ :: rest => replayLat c l rest
  | .fault _ :: rest => replayLat c l rest

/-- Every read of a function-select register returns the value of the latest write before it, or what it
held at the start (R61). -/
def readsAgree (f : Vector Word 7) : List Event → Prop
  | [] => True
  | .read i v :: rest => (∀ h : i < 7, v = f[i]) ∧ readsAgree f rest
  | .write i v :: rest => readsAgree (if h : i < 7 then f.set i v else f) rest
  | .delay _ :: rest => readsAgree f rest
  | .fault _ :: rest => readsAgree f rest

/-- An event with the value of a function-select access hidden (R155). -/
def hideFsel : Event → Event
  | .read i v => .read i (if i < 7 then 0 else v)
  | .write i v => .write i (if i < 7 then 0 else v)
  | .delay n => .delay n
  | .fault r => .fault r

/-- The nominal time from event `a` (inclusive) to event `b` (exclusive). -/
def between (tr : List Event) (a b : Nat) : Nat := nominalDuration ((tr.drop a).take (b - a))

/-- Bit `b` of function-select register `j` belongs to the field of pin `p` (R22). -/
def inFieldOf (p : Fin 28) (j b : Nat) : Prop :=
  j = p.val / 10 ∧ p.val % 10 * 3 ≤ b ∧ b < p.val % 10 * 3 + 3

/-- Two pins whose mode fields stand in one function-select register (R217). -/
def shareBank (p q : Fin 28) : Prop := p.val / 10 = q.val / 10

/-- The operation is one the host may start in this state and that no check of `start` turns away (R151). -/
def startable (i : Instr) (s : State) : Prop :=
  (s.phase = .idle ∨ s.phase = .done) ∧ badPin i = none ∧ (i = .run → cmdsWellFormed s.par.cmds = true)

/-- Nothing in the way of a run: parameters as R8 asks, the register space valid, no UNMAP to come (R60). -/
def clear (s : State) : Prop := s.par.wf ∧ s.rsValid = true ∧ s.unmapIn = none

end Sys2Proof.Expected

open Sys2Proof.Expected

/-! ### Encoding -/

/-- R103, R104, R105: the worked encodings, the six words that are INVALID, and the textual form of the worked
encodings and of the pseudo-instructions. -/
def Obligations.WorkedEncodings : Prop :=
  [0x01FF#16, 0x00A5#16, 0x0100#16, 0x0000#16, 0x8000#16, 0x411B#16, 0x411C#16, 0x4209#16, 0x4012#16,
   0x470A#16, 0x5112#16, 0x501A#16, 0xC000#16, 0xD000#16, 0xE000#16].map decode =
  [.instr (.xfer 0x1FF#9), .instr (.xfer 0x0A5#9), .instr (.xfer 0x100#9), .instr (.xfer 0x000#9),
   .instr .wait, .instr (.setPinMode 27 .output), .instr (.setPinMode 28 .output),
   .instr (.setPinMode 9 .alt0), .instr (.setPinMode 18 .input), .instr (.setPinMode 10 .alt5),
   .instr (.setPinLevel 18 true), .instr (.setPinLevel 26 false), .instr .setup, .instr .teardown,
   .instr .run] ∧
  (∀ w ∈ [0x0200#16, 0x8001#16, 0x4800#16, 0x5200#16, 0xF000#16, 0x1000#16], ∃ why, decode w = .invalid why) ∧
  (assemble "XFER 0x1FF\nWAIT\nSET_PIN_MODE 27, Output ; clock\nSET_PIN_LEVEL 18, 1\nSETUP\nTEARDOWN\nRUN".toList).map
      (fun is => is.map encode) = some [0x01FF#16, 0x8000#16, 0x411B#16, 0x5112#16, 0xC000#16, 0xD000#16, 0xE000#16] ∧
  (assemble "XFERM 1, 0xFF\nOUTPUT 18\nINPUT 18\nHIGH 18\nLOW 18".toList).map (fun is => is.map encode) =
      some [0x01FF#16, 0x4112#16, 0x4012#16, 0x5112#16, 0x5012#16] ∧
  assemble "XFER 0x200".toList = none ∧ assemble "SET_PIN_MODE 27, output".toList = none

/-- R93, R94, R96: decoding the word of a well-formed instruction gives the instruction back. -/
def Obligations.DecodeOfEncode : Prop :=
  ∀ i : Instr, i.wf = true → decode (encode i) = .instr i

/-- R93 to R95, D5: a word that decodes is the word of what it decodes to, which is well formed: no two
words share a meaning and no bit is dropped. -/
def Obligations.EncodeOfDecode : Prop :=
  ∀ (w : Cell) (i : Instr), decode w = .instr i → i.wf = true ∧ encode i = w

/-- R100: the reserved words are exactly the listed ones; at the operation input one is refused. -/
def Obligations.ReservedWordsExactly : Prop :=
  ∀ w : Cell,
    ((∃ why, decode w = .invalid why) ↔
      (w.extractLsb' 12 4 = 0b0000#4 ∧ w.extractLsb' 9 3 ≠ 0#3) ∨
      (w.extractLsb' 12 4 ∈ [0b0001#4, 0b0010#4, 0b0011#4, 0b0110#4, 0b0111#4, 0b1001#4, 0b1010#4, 0b1011#4,
        0b1111#4]) ∨
      (w.extractLsb' 12 4 = 0b0100#4 ∧ w.extractLsb' 11 1 ≠ 0#1) ∨
      (w.extractLsb' 12 4 = 0b0101#4 ∧ w.extractLsb' 9 3 ≠ 0#3) ∨
      (w.extractLsb' 12 4 ∈ [0b1000#4, 0b1100#4, 0b1101#4, 0b1110#4] ∧ w.extractLsb' 0 12 ≠ 0#12)) ∧
    ∀ (why : Reserved) (s : State) (rest : List HostEvent), decode w = .invalid why → s.phase ≠ .busy →
      (s.inputs = .call w :: rest ∨ s.inputs = .start w :: rest) → step s = .refused (.reservedWord w why)

/-! ### Operands -/

/-- R127, which the spec derives from R120, R122 and R125: the table of register, shift, clear mask and level word for each valid pin. -/
def Obligations.PinOperandTable : Prop :=
  (List.range 28).map (fun p => (fselIndex p, fieldShift p, clearMask (fieldShift p), levelWord p)) =
  [(0, 0, 0xFFFFFFF8#32, 0x00000001#32), (0, 3, 0xFFFFFFC7#32, 0x00000002#32),
   (0, 6, 0xFFFFFE3F#32, 0x00000004#32), (0, 9, 0xFFFFF1FF#32, 0x00000008#32),
   (0, 12, 0xFFFF8FFF#32, 0x00000010#32), (0, 15, 0xFFFC7FFF#32, 0x00000020#32),
   (0, 18, 0xFFE3FFFF#32, 0x00000040#32), (0, 21, 0xFF1FFFFF#32, 0x00000080#32),
   (0, 24, 0xF8FFFFFF#32, 0x00000100#32), (0, 27, 0xC7FFFFFF#32, 0x00000200#32),
   (1, 0, 0xFFFFFFF8#32, 0x00000400#32), (1, 3, 0xFFFFFFC7#32, 0x00000800#32),
   (1, 6, 0xFFFFFE3F#32, 0x00001000#32), (1, 9, 0xFFFFF1FF#32, 0x00002000#32),
   (1, 12, 0xFFFF8FFF#32, 0x00004000#32), (1, 15, 0xFFFC7FFF#32, 0x00008000#32),
   (1, 18, 0xFFE3FFFF#32, 0x00010000#32), (1, 21, 0xFF1FFFFF#32, 0x00020000#32),
   (1, 24, 0xF8FFFFFF#32, 0x00040000#32), (1, 27, 0xC7FFFFFF#32, 0x00080000#32),
   (2, 0, 0xFFFFFFF8#32, 0x00100000#32), (2, 3, 0xFFFFFFC7#32, 0x00200000#32),
   (2, 6, 0xFFFFFE3F#32, 0x00400000#32), (2, 9, 0xFFFFF1FF#32, 0x00800000#32),
   (2, 12, 0xFFFF8FFF#32, 0x01000000#32), (2, 15, 0xFFFC7FFF#32, 0x02000000#32),
   (2, 18, 0xFFE3FFFF#32, 0x04000000#32), (2, 21, 0xFF1FFFFF#32, 0x08000000#32)]

/-- R96: with the parameters R8 asks, the eight variants take the eight 3-bit values, and a field value
names exactly one variant. -/
def Obligations.FieldValueNamesOneMode : Prop :=
  ∀ (c : Params) (v : BitVec 3), c.wf →
    ∃ m, modeCodeOf c.modeCode m = v ∧ ∀ m', modeCodeOf c.modeCode m' = v → m' = m

/-! ### What moves next -/

/-- R151, R153: with the machine not BUSY and a word that decodes to `i` next at the operation input, a
step takes the word and is `exec i` on the rest. -/
def Obligations.StepRunsTheOperation : Prop :=
  ∀ (s : State) (w : Cell) (i : Instr) (rest : List HostEvent), s.phase ≠ .busy →
    s.inputs = .call w :: rest → decode w = .instr i → step s = exec i { s with inputs := rest }

/-- R151: `start`, every check in its order, with what each leaves. -/
def Obligations.StartChecksInOrder : Prop :=
  ∀ (s : State) (w : Cell) (rest : List HostEvent), s.phase ≠ .busy → s.inputs = .start w :: rest →
    (∀ why, decode w = .invalid why → step s = .refused (.reservedWord w why)) ∧
    ∀ o, decode w = .instr o →
      (s.phase = .aborted → step s = .refused .notAdmitted) ∧
      (s.phase ≠ .aborted → o = .run → (∃ cell ∈ s.par.cmds, decodeCommand cell = none) →
        step s = .refused .illFormedCommands) ∧
      (s.phase ≠ .aborted → ∀ p, (∃ m, o = .setPinMode p m) ∨ (∃ l, o = .setPinLevel p l) → 27 < p →
        step s = .next (abortedWith { s with inputs := rest }
          ⟨.invalidPin, 1, some o, .only, 0, 0, .pin p⟩)) ∧
      (s.phase ≠ .aborted → (o = .run → ∀ cell ∈ s.par.cmds, decodeCommand cell ≠ none) →
        (∀ p, (∃ m, o = .setPinMode p m) ∨ (∃ l, o = .setPinLevel p l) → p ≤ 27) →
        step s = .next { s with
          inputs := rest, op := some o, phase := .busy, k := 0, ci := 0,
          stage := if o = .run then .setup else .only })

/-- R151, R101, V78: an operation presented while BUSY or ABORTED is not admitted. -/
def Obligations.NotAdmittedWhileBusyOrAborted : Prop :=
  ∀ (i : Instr) (s : State), exec i s = .refused .notAdmitted ↔ (s.phase = .busy ∨ s.phase = .aborted)

/-- R106: RUN checks CMDS before its first micro-operation; if any cell is reserved or a format H word it
is refused as a whole, and otherwise it is not refused for that. -/
def Obligations.RunRefusedExactlyWhenIllFormed : Prop :=
  ∀ s : State, (s.phase = .idle ∨ s.phase = .done) →
    (exec .run s = .refused .illFormedCommands ↔
      ∃ cell ∈ s.par.cmds, (∀ w, decode cell ≠ .instr (.xfer w)) ∧ decode cell ≠ .instr .wait)

/-- R153: one step while BUSY performs exactly one micro-operation and moves the program counter as the
rule writes it out. `s1` is the state after the micro-operation. -/
def Obligations.SequencerStep : Prop :=
  ∀ (s s1 : State) (o : Instr) (mu : Micro), s.phase = .busy → s.op = some o → s.unmapIn = none →
    (itemMicros s.par o s.stage s.ci)[s.k]? = some mu →
    (perform mu s = .ok () s1 →
      (s.k + 1 < (itemMicros s.par o s.stage s.ci).length → step s = .next { s1 with k := s.k + 1 }) ∧
      (s.k + 1 = (itemMicros s.par o s.stage s.ci).length →
        (s.stage = .only → step s = .next { s1 with phase := .done }) ∧
        (s.stage = .setup → 0 < s.par.cmds.length →
          step s = .next { s1 with stage := .cmd, ci := 0, k := 0 }) ∧
        (s.stage = .setup → s.par.cmds.length = 0 → step s = .next { s1 with stage := .teardown, k := 0 }) ∧
        (s.stage = .cmd → s.ci + 1 < s.par.cmds.length →
          step s = .next { s1 with ci := s.ci + 1, k := 0 }) ∧
        (s.stage = .cmd → s.par.cmds.length ≤ s.ci + 1 →
          step s = .next { s1 with stage := .teardown, k := 0 }) ∧
        (s.stage = .teardown → step s = .next { s1 with phase := .done }))) ∧
    (perform mu s = .raised s1 → step s = .next s1)

/-- R152, R185: the three micro-operations while the register space is valid, with the event each adds. -/
def Obligations.MicroOperationEffects : Prop :=
  ∀ s : State, s.rsValid = true → s.par.wf →
    (∀ (i : Nat) (h : i < 7),
      perform (.rd i) s = .ok () { s with t := s.fsel[i], trace := s.trace ++ [.read i s.fsel[i]] }) ∧
    (∀ (i : Nat) (h : i < 7) (v : Word),
      perform (.wr i (.const v)) s =
        .ok () { s with fsel := s.fsel.set i v, trace := s.trace ++ [.write i v] }) ∧
    (∀ v : Word, perform (.wr s.par.gpset (.const v)) s =
        .ok () { s with lat := s.lat ||| v, trace := s.trace ++ [.write s.par.gpset v] }) ∧
    (∀ v : Word, perform (.wr s.par.gpclr (.const v)) s =
        .ok () { s with lat := s.lat &&& ~~~v, trace := s.trace ++ [.write s.par.gpclr v] }) ∧
    (∀ n : Nat, perform (.dly n) s = .ok () { s with trace := s.trace ++ [.delay n] })

/-- R153, R13, log entry 7: an operation called in one step is the same as the operation started alone and
then stepped one micro-operation at a time, with nothing else from the host. -/
def Obligations.CallIsStartThenSteps : Prop :=
  ∀ (s : State) (w : Cell) (i : Instr) (n : Nat), s.phase ≠ .busy → decode w = .instr i →
    opLength s.par i ≤ n →
    core.run (n + 1) { s with inputs := [.start w] } = step { s with inputs := [.call w] }

/-- R202: with no operation in progress and nothing from the host, HPTX does nothing. -/
def Obligations.NothingHappensUnasked : Prop :=
  ∀ s : State, s.phase ≠ .busy → s.inputs = [] → step s = .next s

/-! ### The operations -/

/-- R120: SET_PIN_MODE in every case the rule gives: a bad pin, the read that faults (decision D17), UNMAP
between the read and the write (R60, D29; the countdown is log entry 8), and the read-modify-write. An UNMAP
that lands later is in `UnmapCutsAtNextAccess`. -/
def Obligations.SetPinModeEffect : Prop :=
  ∀ (s : State) (p : Nat) (m : PinMode), (s.phase = .idle ∨ s.phase = .done) →
    (27 < p → exec (.setPinMode p m) s = .next (abortedWith s
      ⟨.invalidPin, 1, some (.setPinMode p m), .only, 0, 0, .pin p⟩)) ∧
    (p ≤ 27 → s.rsValid = false → exec (.setPinMode p m) s = .next (abortedWith
      { s with op := some (.setPinMode p m), stage := .only, ci := 0, k := 0 }
      ⟨.registerSpaceInvalid, 2, some (.setPinMode p m), .only, 0, 0, .access (p / 10) .read⟩)) ∧
    (∀ h : p ≤ 27, s.rsValid = true → s.unmapIn = some 1 → exec (.setPinMode p m) s = .next (abortedWith
      { s with
        op := some (.setPinMode p m), stage := .only, ci := 0, k := 1, rsValid := false, unmapIn := none,
        t := s.fsel[p / 10], trace := s.trace ++ [.read (p / 10) s.fsel[p / 10]] }
      ⟨.registerSpaceInvalid, 2, some (.setPinMode p m), .only, 0, 1, .access (p / 10) .write⟩)) ∧
    (∀ h : p ≤ 27, s.rsValid = true → s.unmapIn = none → exec (.setPinMode p m) s = .next
      { s with
        op := some (.setPinMode p m), stage := .only, ci := 0, k := 1, phase := .done,
        t := s.fsel[p / 10],
        fsel := s.fsel.set (p / 10) (withCode s.fsel[p / 10] p (modeCodeOf s.par.modeCode m)),
        trace := s.trace ++ [.read (p / 10) s.fsel[p / 10],
          .write (p / 10) (withCode s.fsel[p / 10] p (modeCodeOf s.par.modeCode m))] })

/-- R121: the postcondition of SET_PIN_MODE: the field holds the code, every other bit of the register is as
before (bits 31:30 by decision D14); every other register and the latch are as before, which the spec derives
from R120 and R57. No other agent writes (D21, log entry 19). -/
def Obligations.SetPinModePostcondition : Prop :=
  ∀ (s : State) (p : Fin 28) (m : PinMode), (s.phase = .idle ∨ s.phase = .done) → s.rsValid = true →
    s.unmapIn = none →
    ∃ t, exec (.setPinMode p.val m) s = .next t ∧ t.phase = .done ∧
      (bankOf t.fsel p).extractLsb' (p.val % 10 * 3) 3 = modeCodeOf s.par.modeCode m ∧
      bankOf t.fsel p &&& ~~~(7#32 <<< (p.val % 10 * 3)) = bankOf s.fsel p &&& ~~~(7#32 <<< (p.val % 10 * 3)) ∧
      (∀ (j : Nat) (h : j < 7), j ≠ p.val / 10 → t.fsel[j] = s.fsel[j]) ∧ t.lat = s.lat

/-- R122: SET_PIN_LEVEL in every case the rule gives. -/
def Obligations.SetPinLevelEffect : Prop :=
  ∀ (s : State) (p : Nat) (l : Bool), (s.phase = .idle ∨ s.phase = .done) → s.par.wf →
    (27 < p → exec (.setPinLevel p l) s = .next (abortedWith s
      ⟨.invalidPin, 1, some (.setPinLevel p l), .only, 0, 0, .pin p⟩)) ∧
    (p ≤ 27 → s.rsValid = false → exec (.setPinLevel p l) s = .next (abortedWith
      { s with op := some (.setPinLevel p l), stage := .only, ci := 0, k := 0 }
      ⟨.registerSpaceInvalid, 2, some (.setPinLevel p l), .only, 0, 0,
        .access (if l then s.par.gpset else s.par.gpclr) .write⟩)) ∧
    (p ≤ 27 → s.rsValid = true → s.unmapIn = none → exec (.setPinLevel p l) s = .next
      { s with
        op := some (.setPinLevel p l), stage := .only, ci := 0, k := 0, phase := .done,
        lat := if l then s.lat ||| pinBit p else s.lat &&& ~~~pinBit p,
        trace := s.trace ++ [.write (if l then s.par.gpset else s.par.gpclr) (pinBit p)] })

/-- R123, which the spec derives from R122 and R57: the postcondition of SET_PIN_LEVEL, bit by bit, with the drive state of a pin in Output mode. -/
def Obligations.SetPinLevelPostcondition : Prop :=
  ∀ (s : State) (p : Fin 28) (l : Bool), (s.phase = .idle ∨ s.phase = .done) → s.par.wf →
    s.rsValid = true → s.unmapIn = none →
    ∃ t e, exec (.setPinLevel p.val l) s = .next t ∧ t.lat.getLsbD p.val = l ∧
      (∀ j, j ≠ p.val → t.lat.getLsbD j = s.lat.getLsbD j) ∧ t.fsel = s.fsel ∧
      t.trace = s.trace ++ [e] ∧ isWrite e = true ∧
      (pinField s p = modeCodeOf s.par.modeCode .output → drive t p = .driven l)

/-- R141: XFER sends the 48 events of the table and leaves the latch with clock high, data low and
chip-select high; when the register space is not valid it raises at its first write and does nothing. -/
def Obligations.XferEffect : Prop :=
  ∀ (s : State) (w : BitVec 9), (s.phase = .idle ∨ s.phase = .done) → s.par.wf →
    (s.rsValid = true → s.unmapIn = none → exec (.xfer w) s = .next
      { s with
        op := some (.xfer w), stage := .only, ci := 0, k := 47, phase := .done,
        lat := xferLat s.par s.lat, trace := s.trace ++ xferEvents s.par w }) ∧
    (s.rsValid = false → exec (.xfer w) s = .next (abortedWith
      { s with op := some (.xfer w), stage := .only, ci := 0, k := 0 }
      ⟨.registerSpaceInvalid, 2, some (.xfer w), .only, 0, 0, .access s.par.gpclr .write⟩))

/-- R142: the counts of one XFER. -/
def Obligations.XferCounts : Prop :=
  ∀ (s : State) (w : BitVec 9), (s.phase = .idle ∨ s.phase = .done) → clear s →
    ∃ t ev, exec (.xfer w) s = .next t ∧ t.trace = s.trace ++ ev ∧ ev.countP isWrite = 30 ∧
      ev.count (.delay 100) = 18 ∧ ev.countP isRead = 0 ∧ nominalDuration ev = 1800 ∧
      ev.count (.write s.par.gpset (pinBit s.par.pinClk)) = 9 ∧
      (∀ a, ev[a]? = some (.write s.par.gpset (pinBit s.par.pinClk)) →
        2 ≤ a ∧ ev[a - 2]? = some (.write s.par.gpclr (pinBit s.par.pinClk)) ∧ ev[a - 1]? = some (.delay 100)) ∧
      ev.count (.write s.par.gpclr (pinBit s.par.pinCs)) = 1 ∧
      ev.head? = some (.write s.par.gpclr (pinBit s.par.pinCs)) ∧
      ev.count (.write s.par.gpset (pinBit s.par.pinCs)) = 1 ∧
      ev.getLast? = some (.write s.par.gpset (pinBit s.par.pinCs))

/-- R221, which the spec derives from R141, R61 and R185: every event inside a word by its position, and the
nominal time of each row of the table that lies inside a word: setup, hold, clock low, clock high,
chip-select to the first edge, the last edge to chip-select, edge to edge, chip-select low. That a minimum
interval is read from the nominal lengths of the delays between two events is log entry 18. -/
def Obligations.XferMinimumIntervals : Prop :=
  ∀ (s : State) (w : BitVec 9), (s.phase = .idle ∨ s.phase = .done) → clear s →
    ∃ t ev, exec (.xfer w) s = .next t ∧ t.trace = s.trace ++ ev ∧ ev.length = 48 ∧
      ev[0]? = some (.write s.par.gpclr (pinBit s.par.pinCs)) ∧
      (∀ j < 9,
        ev[1 + 5 * j]? = some
          (.write (if w.getLsbD (8 - j) then s.par.gpset else s.par.gpclr) (pinBit s.par.pinData)) ∧
        ev[2 + 5 * j]? = some (.write s.par.gpclr (pinBit s.par.pinClk)) ∧
        ev[3 + 5 * j]? = some (.delay 100) ∧
        ev[4 + 5 * j]? = some (.write s.par.gpset (pinBit s.par.pinClk)) ∧
        ev[5 + 5 * j]? = some (.delay 100) ∧
        between ev (1 + 5 * j) (4 + 5 * j) = 100 ∧ between ev (4 + 5 * j) (6 + 5 * j) = 100 ∧
        between ev (2 + 5 * j) (4 + 5 * j) = 100 ∧ between ev (4 + 5 * j) (7 + 5 * j) = 100) ∧
      ev[46]? = some (.write s.par.gpclr (pinBit s.par.pinData)) ∧
      ev[47]? = some (.write s.par.gpset (pinBit s.par.pinCs)) ∧
      between ev 0 4 = 100 ∧ between ev 44 47 = 100 ∧
      (∀ j < 8, between ev (4 + 5 * j) (4 + 5 * (j + 1)) = 200) ∧ between ev 0 47 = 1800

/-- R143: WAIT adds one delay of 120000 microseconds and changes nothing else, whether or not the register
space is valid. -/
def Obligations.WaitEffect : Prop :=
  ∀ s : State, (s.phase = .idle ∨ s.phase = .done) → s.unmapIn = none →
    exec .wait s = .next
      { s with
        op := some .wait, stage := .only, ci := 0, k := 0, phase := .done,
        trace := s.trace ++ [.delay 120000] }

/-- R144: SETUP: the three modes to Output, then chip-select high, clock low, data low, in that order. -/
def Obligations.SetupEffect : Prop :=
  ∀ s : State, (s.phase = .idle ∨ s.phase = .done) → clear s →
    exec .setup s = .next
      { s with
        op := some .setup, stage := .only, ci := 0, k := 8, phase := .done,
        t := lastRead s.par s.par.modeCode.output s.fsel,
        fsel := threeModes s.par s.par.modeCode.output s.fsel, lat := setupLat s.par s.lat,
        trace := s.trace ++ setupEvents s.par s.fsel }

/-- R145: TEARDOWN: the three modes to Input in the order clock, data, chip-select; the latch is not changed. -/
def Obligations.TeardownEffect : Prop :=
  ∀ s : State, (s.phase = .idle ∨ s.phase = .done) → clear s →
    exec .teardown s = .next
      { s with
        op := some .teardown, stage := .only, ci := 0, k := 5, phase := .done,
        t := lastRead s.par s.par.modeCode.input s.fsel,
        fsel := threeModes s.par s.par.modeCode.input s.fsel,
        trace := s.trace ++ teardownEvents s.par s.fsel }

/-- R147: RUN: SETUP, every command of CMDS in order, TEARDOWN, the whole state it leaves. -/
def Obligations.RunEffect : Prop :=
  ∀ s : State, (s.phase = .idle ∨ s.phase = .done) → clear s → cmdsWellFormed s.par.cmds = true →
    exec .run s = .next
      { s with
        op := some .run, stage := .teardown, ci := s.par.cmds.length - 1, k := 5, phase := .done,
        t := lastRead s.par s.par.modeCode.input (threeModes s.par s.par.modeCode.output s.fsel),
        fsel := threeModes s.par s.par.modeCode.input (threeModes s.par s.par.modeCode.output s.fsel),
        lat := if s.par.cmds.any isXferCell then xferLat s.par (setupLat s.par s.lat)
          else setupLat s.par s.lat,
        trace := s.trace ++ runEvents s.par s.fsel }

/-- R148, which the spec derives from R142 to R147: the counts of one RUN over CMDS with `X` XFERs and `Y` WAITs. -/
def Obligations.RunCounts : Prop :=
  ∀ s : State, (s.phase = .idle ∨ s.phase = .done) → clear s → cmdsWellFormed s.par.cmds = true →
    ∃ t ev, exec .run s = .next t ∧ t.trace = s.trace ++ ev ∧
      s.par.cmds.length = s.par.cmds.countP isXferCell + s.par.cmds.countP isWaitCell ∧
      ev.countP isRead = 6 ∧ ev.countP isWrite = 9 + 30 * s.par.cmds.countP isXferCell ∧
      ev.count (.delay 100) = 18 * s.par.cmds.countP isXferCell ∧
      ev.count (.delay 120000) = s.par.cmds.countP isWaitCell ∧
      ev.length = 15 + 48 * s.par.cmds.countP isXferCell + s.par.cmds.countP isWaitCell ∧
      opLength s.par .run = ev.length ∧
      nominalDuration ev = 1800 * s.par.cmds.countP isXferCell + 120000 * s.par.cmds.countP isWaitCell

/-- R146: in stage `S_CMD` at an XFER, the word sent is the cell's, and for `k` 1 to 45 the bit counter and
the step inside the bit are functions of `k`. -/
def Obligations.PositionInsideWord : Prop :=
  ∀ (s : State) (cell : Cell) (w : BitVec 9), s.op = some .run → s.stage = .cmd →
    s.par.cmds[s.ci]? = some cell → decode cell = .instr (.xfer w) →
    wordSent s = some w ∧ bitCounter 0 = none ∧ bitCounter 46 = none ∧ bitCounter 47 = none ∧
    ∀ k, 1 ≤ k → k ≤ 45 →
      bitCounter k = some (8 - (k - 1) / 5) ∧
      (xferMicros s.par w)[k]? = some (
        if (k - 1) % 5 = 0 then
          .wr (if w.getLsbD (8 - (k - 1) / 5) then s.par.gpset else s.par.gpclr) (.const (pinBit s.par.pinData))
        else if (k - 1) % 5 = 1 then .wr s.par.gpclr (.const (pinBit s.par.pinClk))
        else if (k - 1) % 5 = 3 then .wr s.par.gpset (.const (pinBit s.par.pinClk))
        else .dly 100)

/-- R149, R154: every operation that is admitted takes a finite number of steps and ends, DONE or ABORTED. -/
def Obligations.AdmittedOperationsEnd : Prop :=
  ∀ (i : Instr) (s : State), s.par.wf → (s.phase = .idle ∨ s.phase = .done) →
    (i = .run → cmdsWellFormed s.par.cmds = true) →
    ∃ t, exec i s = .next t ∧ (t.phase = .done ∨ t.phase = .aborted)

/-! ### Frames -/

/-- What no operation changes, however it ends: the parameters, the page, the host's events, the count of
draws; `FSEL[3..6]` (R22); bits 31:30 of every function-select register; latch bits 28 to 31 (R32); and the
trace only grows. -/
def Obligations.EveryOperationFrame : Prop :=
  ∀ (i : Instr) (s t : State), s.par.wf → exec i s = .next t →
    t.par = s.par ∧ t.page = s.page ∧ t.inputs = s.inputs ∧ t.draws = s.draws ∧
    (∀ (j : Nat) (h : j < 7), 3 ≤ j → t.fsel[j] = s.fsel[j]) ∧
    (∀ (j : Nat) (h : j < 7) (b : Nat), 30 ≤ b → t.fsel[j].getLsbD b = s.fsel[j].getLsbD b) ∧
    (∀ b, 28 ≤ b → t.lat.getLsbD b = s.lat.getLsbD b) ∧ s.trace <+: t.trace ∧
    (t.rsValid = s.rsValid ∨ t.rsValid = false) ∧ (t.fault = s.fault ∨ t.phase = .aborted)

/-- SET_PIN_MODE leaves the latch, every other function-select register and the nine other fields (R120, R121). -/
def Obligations.SetPinModeFrame : Prop :=
  ∀ (s t : State) (p : Nat) (m : PinMode), exec (.setPinMode p m) s = .next t →
    t.lat = s.lat ∧ (∀ (j : Nat) (h : j < 7), j ≠ p / 10 → t.fsel[j] = s.fsel[j]) ∧
    ∀ (j : Nat) (h : j < 7) (b : Nat), b < p % 10 * 3 ∨ p % 10 * 3 + 3 ≤ b →
      t.fsel[j].getLsbD b = s.fsel[j].getLsbD b

/-- SET_PIN_LEVEL leaves `T`, every function-select register and every other latch bit; WAIT leaves all
three registers; XFER leaves `T`, the function-select registers and the latch bits of every pin but its
three (R122, R141, R143). -/
def Obligations.LevelOperationsFrame : Prop :=
  (∀ (s t : State) (p : Nat) (l : Bool), s.par.wf → exec (.setPinLevel p l) s = .next t →
    t.t = s.t ∧ t.fsel = s.fsel ∧ ∀ b, b ≠ p → t.lat.getLsbD b = s.lat.getLsbD b) ∧
  (∀ s t : State, exec .wait s = .next t → t.t = s.t ∧ t.fsel = s.fsel ∧ t.lat = s.lat) ∧
  (∀ (s t : State) (w : BitVec 9), s.par.wf → exec (.xfer w) s = .next t →
    t.t = s.t ∧ t.fsel = s.fsel ∧
    ∀ b, b ≠ s.par.pinClk.val → b ≠ s.par.pinData.val → b ≠ s.par.pinCs.val →
      t.lat.getLsbD b = s.lat.getLsbD b)

/-- SETUP, TEARDOWN and RUN, with or without a fault, change no bit of any function-select register but those
of the three pins' fields (so no field of another pin, and none of those no valid pin has) and no latch bit
but theirs; TEARDOWN changes no latch bit (R144, R145, R147). -/
def Obligations.WholeBlockOperationsFrame : Prop :=
  ∀ (i : Instr) (s t : State), i = .setup ∨ i = .teardown ∨ i = .run → s.par.wf → exec i s = .next t →
    (∀ p : Fin 28, p ≠ s.par.pinClk → p ≠ s.par.pinData → p ≠ s.par.pinCs → pinField t p = pinField s p) ∧
    (∀ (j : Nat) (h : j < 7) (b : Nat), ¬ inFieldOf s.par.pinClk j b → ¬ inFieldOf s.par.pinData j b →
      ¬ inFieldOf s.par.pinCs j b → t.fsel[j].getLsbD b = s.fsel[j].getLsbD b) ∧
    (∀ b, b ≠ s.par.pinClk.val → b ≠ s.par.pinData.val → b ≠ s.par.pinCs.val →
      t.lat.getLsbD b = s.lat.getLsbD b) ∧
    (i = .teardown → t.lat = s.lat)

/-! ### The register space, direct host accesses, faults -/

/-- R56, R58: a direct `MemRead` by the host. In IDLE and DONE: the two faults in their order, a
function-select register, a free draw for SET or CLEAR, and the refusal. In ABORTED it is not admitted, and
while BUSY it is not made (D20; that it stays in the queue is log entry 28). -/
def Obligations.HostReadCases : Prop :=
  ∀ (s : State) (i : Nat) (rest : List HostEvent), s.inputs = .memRead i :: rest →
    (s.phase = .aborted → step s = .refused .notAdmitted) ∧
    (∀ t, s.phase = .busy → step s = .next t → t.inputs = s.inputs) ∧
    ((s.phase = .idle ∨ s.phase = .done) →
    (1024 ≤ i → step s = .next (abortedWith { s with inputs := rest }
      ⟨.registerIndexOutOfRange, 3, s.op, s.stage, s.ci, s.k, .index i⟩)) ∧
    (i < 1024 → s.rsValid = false → step s = .next (abortedWith { s with inputs := rest }
      ⟨.registerSpaceInvalid, 2, s.op, s.stage, s.ci, s.k, .access i .read⟩)) ∧
    (∀ h : i < 7, s.rsValid = true →
      step s = .next { s with inputs := rest, trace := s.trace ++ [.read i s.fsel[i]] }) ∧
    (7 ≤ i → i < 1024 → s.rsValid = true → (i = s.par.gpset ∨ i = s.par.gpclr) →
      step s = .next { s with
        inputs := rest, draws := s.draws + 1, trace := s.trace ++ [.read i (Config.freeRead s.draws)] }) ∧
    (7 ≤ i → i < 1024 → s.rsValid = true → i ≠ s.par.gpset → i ≠ s.par.gpclr →
      step s = .refused (.unknownRegister i)))

/-- R57, R58: a direct `MemWrite` by the host, every case, in every phase as `HostReadCases`. -/
def Obligations.HostWriteCases : Prop :=
  ∀ (s : State) (i : Nat) (v : Word) (rest : List HostEvent), s.inputs = .memWrite i v :: rest →
    (s.phase = .aborted → step s = .refused .notAdmitted) ∧
    (∀ t, s.phase = .busy → step s = .next t → t.inputs = s.inputs) ∧
    ((s.phase = .idle ∨ s.phase = .done) →
    (1024 ≤ i → step s = .next (abortedWith { s with inputs := rest }
      ⟨.registerIndexOutOfRange, 3, s.op, s.stage, s.ci, s.k, .index i⟩)) ∧
    (i < 1024 → s.rsValid = false → step s = .next (abortedWith { s with inputs := rest }
      ⟨.registerSpaceInvalid, 2, s.op, s.stage, s.ci, s.k, .access i .write⟩)) ∧
    (∀ h : i < 7, s.rsValid = true →
      step s = .next { s with inputs := rest, fsel := s.fsel.set i v, trace := s.trace ++ [.write i v] }) ∧
    (7 ≤ i → i < 1024 → s.rsValid = true → i = s.par.gpset →
      step s = .next { s with inputs := rest, lat := s.lat ||| v, trace := s.trace ++ [.write i v] }) ∧
    (7 ≤ i → i < 1024 → s.rsValid = true → i ≠ s.par.gpset → i = s.par.gpclr →
      step s = .next { s with inputs := rest, lat := s.lat &&& ~~~v, trace := s.trace ++ [.write i v] }) ∧
    (7 ≤ i → i < 1024 → s.rsValid = true → i ≠ s.par.gpset → i ≠ s.par.gpclr →
      step s = .refused (.unknownRegister i)))

/-- R57: the write primitive, every line of it: the two faults, with no register changed and no `W` event, a
function-select register, SET, CLEAR, and the refusal, in every phase. -/
def Obligations.WritePrimitive : Prop :=
  ∀ (s : State) (i : Nat) (v : Word),
    (1024 ≤ i → ∃ r, r.kind = .registerIndexOutOfRange ∧ r.info = .index i ∧
      memWrite i v s = .raised (abortedWith s r)) ∧
    (i < 1024 → s.rsValid = false → ∃ r, r.kind = .registerSpaceInvalid ∧ r.info = .access i .write ∧
      memWrite i v s = .raised (abortedWith s r)) ∧
    (∀ h : i < 7, s.rsValid = true →
      memWrite i v s = .ok () { s with fsel := s.fsel.set i v, trace := s.trace ++ [.write i v] }) ∧
    (7 ≤ i → i < 1024 → s.rsValid = true → memWrite i v s =
      if i = s.par.gpset then .ok () { s with lat := s.lat ||| v, trace := s.trace ++ [.write i v] }
      else if i = s.par.gpclr then .ok () { s with lat := s.lat &&& ~~~v, trace := s.trace ++ [.write i v] }
      else .refused (.unknownRegister i))

/-- R32, R34, R61: every step but a reset appends to the trace, the function-select registers and the latch
are the replay of the writes it appended, and every read of a function-select register agrees with the
latest write before it. -/
def Obligations.RegistersReplayTheTrace : Prop :=
  ∀ s t : State, (∀ (par : Params) (rest : List HostEvent), s.inputs ≠ .reset par :: rest) →
    step s = .next t →
    ∃ ev, t.trace = s.trace ++ ev ∧ t.fsel = replayFsel s.fsel ev ∧ t.lat = replayLat s.par s.lat ev ∧
      readsAgree s.fsel ev

/-- R172: an access to a register while `rs_valid = 0` is not made: it raises, no register changes and no
`R` or `W` event is appended; a WAIT is not touched by it (R143). -/
def Obligations.InvalidSpaceStopsAccess : Prop :=
  ∀ (s : State) (i : Nat) (e : Expr), s.rsValid = false → i < 1024 →
    perform (.rd i) s = .raised (abortedWith s
      ⟨.registerSpaceInvalid, 2, s.op, s.stage, s.ci, s.k, .access i .read⟩) ∧
    perform (.wr i e) s = .raised (abortedWith s
      ⟨.registerSpaceInvalid, 2, s.op, s.stage, s.ci, s.k, .access i .write⟩)

/-- R60, R158, R172, R176: with UNMAP after `n` micro-operations, the operation is cut at its first access
from there on: every event before it is in the trace, the fault follows, nothing after is executed; when
there is no such access the operation completes. `ev` is what the operation does without the UNMAP. -/
def Obligations.UnmapCutsAtNextAccess : Prop :=
  ∀ (i : Instr) (s t0 : State) (ev : List Event) (n : Nat), startable i s → s.par.wf → s.rsValid = true →
    s.unmapIn = some n → 1 ≤ n → exec i { s with unmapIn := none } = .next t0 →
    t0.trace = s.trace ++ ev →
    (∀ j e, n ≤ j → ev[j]? = some e → (registerOf e).isSome = true →
      (∀ a e', n ≤ a → a < j → ev[a]? = some e' → registerOf e' = none) →
      ∃ t r reg, exec i s = .next t ∧ t.phase = .aborted ∧ t.rsValid = false ∧ t.fault = some r ∧
        t.trace = s.trace ++ ev.take j ++ [.fault r] ∧ r.kind = .registerSpaceInvalid ∧ r.code = 2 ∧
        r.op = some i ∧ registerOf e = some reg ∧
        r.info = .access reg (if isRead e = true then .read else .write)) ∧
    ((∀ a e', n ≤ a → ev[a]? = some e' → registerOf e' = none) →
      ∃ t, exec i s = .next t ∧ t.phase = .done ∧ t.fault = s.fault ∧ t.trace = s.trace ++ ev)

/-- R171: an operation leaves `InvalidPin` exactly when it is SET_PIN_MODE or SET_PIN_LEVEL (D10) with a pin
above 27, and then the trace gains that fault alone, so no register was accessed. -/
def Obligations.InvalidPinExactly : Prop :=
  ∀ (i : Instr) (s t : State), s.fault = none → exec i s = .next t →
    ((∃ r, t.fault = some r ∧ r.kind = .invalidPin) ↔
      ∃ p, 27 < p ∧ ((∃ m, i = .setPinMode p m) ∨ (∃ l, i = .setPinLevel p l))) ∧
    ∀ p, 27 < p → ((∃ m, i = .setPinMode p m) ∨ (∃ l, i = .setPinLevel p l)) →
      t.trace = s.trace ++ [.fault ⟨.invalidPin, 1, some i, .only, 0, 0, .pin p⟩]

/-- R173: with the parameters R8 asks, no operation raises `RegisterIndexOutOfRange`. -/
def Obligations.OperationsStayInRange : Prop :=
  ∀ (i : Instr) (s t : State) (r : FaultRecord), s.par.wf → s.fault = none → exec i s = .next t →
    t.fault = some r → r.kind ≠ .registerIndexOutOfRange

/-- R151, R58 (decision D20), R178, R200 (D27): in ABORTED nothing but a reset changes the phase, the recorded
fault or the trace. -/
def Obligations.AbortedUntilReset : Prop :=
  ∀ s t : State, s.phase = .aborted → step s = .next t →
    (t.phase = .aborted ∧ t.fault = s.fault ∧ t.trace = s.trace) ∨
    ∃ par rest, s.inputs = .reset par :: rest

/-- R178: no operation clears the abort or the fault, started alone, stepped or run to its end, and a faulted
state is never a good final state. -/
def Obligations.FaultIsNeverCleared : Prop :=
  (∀ (i : Instr) (s t : State), exec i s = .next t →
    s.phase ≠ .aborted ∧ (s.fault ≠ none → t.fault ≠ none ∧ ¬ succeeded t)) ∧
  (∀ (i : Instr) (s t : State), start i s = .next t →
    s.phase ≠ .aborted ∧ (s.fault ≠ none → t.fault ≠ none ∧ ¬ succeeded t)) ∧
  (∀ s t : State, s.phase = .busy → step s = .next t → s.fault ≠ none → t.fault ≠ none ∧ ¬ succeeded t) ∧
  ∀ s : State, s.phase = .aborted → ¬ succeeded s

/-- R30, R70: `rs_valid` rises only by the platform's successful opening, before any operation and once (log
entry 16; an earlier UNMAP of a space never opened is log entry 29). -/
def Obligations.SpaceBecomesValidOnlyByOpening : Prop :=
  ∀ s t : State, step s = .next t → s.rsValid = false → t.rsValid = true →
    ∃ p page rest, s.inputs = .openSpace p :: rest ∧ s.phase = .idle ∧ s.page = none ∧
      openPage p = .ok page ∧ t = { s with inputs := rest, rsValid := true, page := some page }

/-- R30, R60: `rs_valid` falls only by UNMAP or reset, and what UNMAP does: at once it clears `rs_valid` and
changes nothing else of the spec's state; armed, it counts the micro-operations that complete and clears
`rs_valid` after the last of them, the step being otherwise what it is without it. The countdown `unmapIn` is
log entry 8; that UNMAP acts the same on a register space never opened is log entry 29. -/
def Obligations.SpaceBecomesInvalidOnlyByUnmapOrReset : Prop :=
  (∀ s t : State, step s = .next t → s.rsValid = true → t.rsValid = false →
    s.unmapIn ≠ none ∨ (∃ rest, s.inputs = .unmapAfter 0 :: rest) ∨
    ∃ par rest, s.inputs = .reset par :: rest) ∧
  (∀ (s : State) (rest : List HostEvent), s.phase ≠ .busy → s.inputs = .unmapAfter 0 :: rest →
    step s = .next { s with inputs := rest, rsValid := false, unmapIn := none }) ∧
  (∀ (s : State) (n : Nat) (rest : List HostEvent), s.phase ≠ .busy →
    s.inputs = .unmapAfter (n + 1) :: rest →
    step s = .next { s with inputs := rest, unmapIn := some (n + 1) }) ∧
  ∀ (s t : State) (n : Nat), s.phase = .busy → s.unmapIn = none → step s = .next t → t.phase ≠ .aborted →
    step { s with unmapIn := some 1 } = .next { t with rsValid := false } ∧
    step { s with unmapIn := some (n + 2) } = .next { t with unmapIn := some (n + 1) }

/-- R38, R200, R201, R203: the values the spec gives after reset; a reset sets the sequencer's own state,
binds the parameters and leaves the register block; a parameter set that breaks R8 is refused (R171, R174). -/
def Obligations.ResetEffect : Prop :=
  (State.reset.op = none ∧ State.reset.stage = .only ∧ State.reset.ci = 0 ∧ State.reset.k = 0 ∧
    State.reset.phase = .idle ∧ State.reset.fault = none ∧ State.reset.rsValid = false ∧
    State.reset.trace = []) ∧
  ∀ (s : State) (par : Params) (rest : List HostEvent), s.phase ≠ .busy → s.inputs = .reset par :: rest →
    (par.wf → ∃ t, step s = .next t ∧ t.phase = .idle ∧ t.fault = none ∧ t.op = none ∧ t.stage = .only ∧
      t.ci = 0 ∧ t.k = 0 ∧ t.rsValid = false ∧ t.trace = [] ∧ t.fsel = s.fsel ∧ t.lat = s.lat ∧ t.par = par) ∧
    (¬ par.wf → step s = .refused .badParameters)

/-- R203: the parameters are bound by a reset and no other step changes them. -/
def Obligations.ParametersAreFixed : Prop :=
  (∀ (s t : State) (par : Params) (rest : List HostEvent), s.phase ≠ .busy → s.inputs = .reset par :: rest →
    step s = .next t → t.par = par) ∧
  ∀ s t : State, (s.phase = .busy ∨ ∀ (par : Params) (rest : List HostEvent), s.inputs ≠ .reset par :: rest) →
    step s = .next t → t.par = s.par

/-! ### Invariants -/

/-- The invariant holds after reset. -/
def Obligations.InvariantAtReset : Prop := Inv State.reset

/-- R27 to R30, R55, R179: every step keeps the invariant, from every state that meets it. -/
def Obligations.StepKeepsInvariant : Prop :=
  ∀ s t : State, Inv s → step s = .next t → Inv t

/-- R154: HPTX has no stuck state: while BUSY a step of a state that meets the invariant is always a next
state, whose trace has exactly one event more (R153). -/
def Obligations.BusyStepsNeverStick : Prop :=
  ∀ s : State, Inv s → s.phase = .busy → ∃ t e, step s = .next t ∧ t.trace = s.trace ++ [e]

/-- R27: inside RUN nothing lowers `ci` or skips an index: a step keeps it, raises it by one from the end of
a command to the start of the next, or sets it to 0 from SETUP to the first command. -/
def Obligations.CommandIndexOnlyCountsUp : Prop :=
  ∀ s t : State, Inv s → s.phase = .busy → step s = .next t →
    t.ci = s.ci ∨ (s.stage = .cmd ∧ t.stage = .cmd ∧ t.ci = s.ci + 1 ∧ t.k = 0) ∨
    (s.stage = .setup ∧ t.stage = .cmd ∧ t.ci = 0 ∧ t.k = 0)

/-! ### Whole-machine rules -/

/-- R155: what an operation appends is a function of the operation, the parameters and the function-select
registers at its start; with the values of the function-select accesses hidden, of the operation and the
parameters alone. -/
def Obligations.TraceDeterminedByParameters : Prop :=
  ∀ (i : Instr) (s1 s2 t1 : State) (ev1 : List Event), clear s1 → clear s2 → s1.par = s2.par →
    startable i s1 → startable i s2 → exec i s1 = .next t1 → t1.trace = s1.trace ++ ev1 →
    ∃ t2 ev2, exec i s2 = .next t2 ∧ t2.trace = s2.trace ++ ev2 ∧ ev2.map hideFsel = ev1.map hideFsel ∧
      (s1.fsel = s2.fsel → ev2 = ev1)

/-- R156 (decision D30; how the model writes wires and closed frames is log entries 21 and 27): with the three
pins in Output mode and chip-select high, XFER shows exactly one frame of nine samples, the bits of the word
from `w[8]` to `w[0]`. -/
def Obligations.XferShowsOneFrame : Prop :=
  ∀ (s : State) (w : BitVec 9), (s.phase = .idle ∨ s.phase = .done) → clear s →
    pinField s s.par.pinClk = s.par.modeCode.output → pinField s s.par.pinData = s.par.modeCode.output →
    pinField s s.par.pinCs = s.par.modeCode.output → s.lat.getLsbD s.par.pinCs = true →
    framesFrom none (wire s) (operationWires (.xfer w) s) =
      [(List.range 9).map (fun j => some (w.getLsbD (8 - j)))]

/-- R156, R211 (wire: decision D30): no rising clock edge in a SETUP, a TEARDOWN or a WAIT, whatever the pins were before. -/
def Obligations.NoRisingEdgeInSetupTeardownWait : Prop :=
  ∀ (i : Instr) (s : State), i = .setup ∨ i = .teardown ∨ i = .wait →
    (s.phase = .idle ∨ s.phase = .done) → clear s →
    (operationWires i s).length = opLength s.par i ∧ risingEdges (wire s) (operationWires i s) = 0

/-- R157, R207: the levels between operations: after SETUP the three pins are driven at `(0, 0, 1)`; an
XFER after it leaves them driven at `(1, 0, 1)`; after TEARDOWN all three are released. -/
def Obligations.LevelsBetweenOperations : Prop :=
  ∀ (s : State) (w : BitVec 9), (s.phase = .idle ∨ s.phase = .done) → clear s →
    ∃ a b d, exec .setup s = .next a ∧ exec (.xfer w) a = .next b ∧ exec .teardown b = .next d ∧
      wire a = ⟨.driven false, .driven false, .driven true⟩ ∧
      wire b = ⟨.driven true, .driven false, .driven true⟩ ∧
      wire d = ⟨.released, .released, .released⟩ ∧ d.lat = b.lat

/-- R217: the `W` events of two consecutive RUNs over the same CMDS are identical if and only if, for every
two of the three pins that share a function-select register, the field of the pin SETUP handles later held
the code of Input when the first run started. -/
def Obligations.TwoRunsSameWritesIff : Prop :=
  ∀ s : State, (s.phase = .idle ∨ s.phase = .done) → clear s → cmdsWellFormed s.par.cmds = true →
    ∃ t1 t2 ev1 ev2, exec .run s = .next t1 ∧ exec .run t1 = .next t2 ∧
      t1.trace = s.trace ++ ev1 ∧ t2.trace = t1.trace ++ ev2 ∧
      (ev1.filter isWrite = ev2.filter isWrite ↔
        (shareBank s.par.pinClk s.par.pinData → pinField s s.par.pinData = s.par.modeCode.input) ∧
        (shareBank s.par.pinClk s.par.pinCs → pinField s s.par.pinCs = s.par.modeCode.input) ∧
        (shareBank s.par.pinData s.par.pinCs → pinField s s.par.pinCs = s.par.modeCode.input))

/-- R33: the drive state of every valid pin. -/
def Obligations.DriveStates : Prop :=
  ∀ (s : State) (p : Fin 28), s.par.wf →
    (pinField s p = s.par.modeCode.output → drive s p = .driven (s.lat.getLsbD p.val)) ∧
    (pinField s p = s.par.modeCode.input → drive s p = .released) ∧
    (pinField s p ≠ s.par.modeCode.output → pinField s p ≠ s.par.modeCode.input →
      drive s p = .alt (pinField s p))

/-- R190: the exit status is zero after a RUN that met no fault, and never zero after a fault. -/
def Obligations.ExitStatusAfterRun : Prop :=
  (∀ s : State, (s.phase = .idle ∨ s.phase = .done) → s.fault = none → clear s →
    cmdsWellFormed s.par.cmds = true → ∃ t, exec .run s = .next t ∧ exitStatusZero t = true) ∧
  ∀ (i : Instr) (s t : State), s.fault = none → exec i s = .next t → t.phase = .aborted →
    exitStatusZero t = false ∧ t.fault.isSome = true

/-! ### The platform step -/

/-- T3 and the first vectors of the resolver (R71 to R76): the source's worked example, the last address
inside, the first above, and the defaults. -/
def Obligations.ResolverWorkedExample : Prop :=
  let table : List Byte := [0x7e, 0, 0, 0, 0, 0, 0, 0, 0x3f, 0, 0, 0, 0x01, 0, 0, 0]
  let p : Platform := ⟨true, .absent, .usable, some [0, 0, 0, 2], some [0, 0, 0, 1], some [0, 0, 0, 1], some table⟩
  (resolve p 0x7e200000 = .ok 0x3f200000 ∧ resolve p 0x7effffff = .ok 0x3fffffff ∧
    resolve p 0x7f000000 = .error .addressNotFoundError) ∧
  resolve { p with rootAddrCells := none, childAddrCells := none, childSizeCells := none,
                   ranges := some [0, 0, 0, 0, 0x7e, 0, 0, 0, 0, 0, 0, 4, 0x7e, 0, 0, 0, 0x01, 0x80, 0, 0] }
    0x7e200000 = .ok 0x47e200000

/-- R73 (its sum without wrap-around is decision D32), R75: the first record that covers the target decides, and the result is
`target - child + parent`; with none, AddressNotFoundError (R76). -/
def Obligations.ResolverFirstMatchDecides : Prop :=
  ∀ (p : Platform) (root child size target : Nat) (table : List Byte) (records : List AddressRange),
    cellSize 2 p.rootAddrCells = .ok root → cellSize 2 p.childAddrCells = .ok child →
    cellSize 1 p.childSizeCells = .ok size → p.ranges = some table →
    parseRanges child root size table = .ok records →
    (∀ pre r post, records = pre ++ r :: post →
      (∀ q ∈ pre, ¬ (q.child ≤ target ∧ target < q.child + q.length)) →
      r.child ≤ target → target < r.child + r.length → target - r.child + r.parent < 2 ^ 64 →
      ∃ a, resolve p target = .ok a ∧ a.toNat = target - r.child + r.parent) ∧
    ((∀ q ∈ records, ¬ (q.child ≤ target ∧ target < q.child + q.length)) →
      resolve p target = .error .addressNotFoundError)

/-- R69, R70, R175, R183, C4: opening: the privilege first, then the unprivileged device, which short-circuits
the rest, then the privileged device. Which failure surfaces is log entry 15, when opening is admitted log
entry 16, and that an UNMAP before it does not bar it log entry 29. -/
def Obligations.OpeningCases : Prop :=
  ∀ (s : State) (p : Platform) (rest : List HostEvent), s.phase = .idle → s.page = none →
    s.inputs = .openSpace p :: rest →
    (p.privileged = false → step s = .fault .privilegeError) ∧
    (p.privileged = true → p.gpioDevice = .usable →
      step s = .next { s with inputs := rest, rsValid := true, page := some .gpioDevice }) ∧
    (p.privileged = true → p.gpioDevice = .absent → p.physDevice = .absent →
      step s = .fault .deviceUnavailableError) ∧
    (p.privileged = true → p.gpioDevice = .mapFails → p.physDevice = .absent →
      step s = .fault .mappingError) ∧
    (∀ a, p.privileged = true → p.gpioDevice ≠ .usable → p.physDevice = .usable →
      resolve p 0x7e200000 = .ok a →
      step s = .next { s with inputs := rest, rsValid := true, page := some (.physical a) }) ∧
    (∀ a, p.privileged = true → p.gpioDevice ≠ .usable → p.physDevice = .mapFails →
      resolve p 0x7e200000 = .ok a → step s = .fault .mappingError) ∧
    (∀ f, p.privileged = true → p.gpioDevice ≠ .usable → p.physDevice ≠ .absent →
      resolve p 0x7e200000 = .error f → step s = .fault f)
end

