-- ==== Sys2Proof/Laws/State.lean ====
section
/-! SUPPORT. One lemma per field per update of the state, so that no later proof unfolds a record update. -/

namespace Sys2Proof.Machine

/-! ### emit -/

@[simp] theorem emit_fsel (e : Event) (s : State) : (emit e s).fsel = s.fsel := rfl
@[simp] theorem emit_lat (e : Event) (s : State) : (emit e s).lat = s.lat := rfl
@[simp] theorem emit_t (e : Event) (s : State) : (emit e s).t = s.t := rfl
@[simp] theorem emit_op (e : Event) (s : State) : (emit e s).op = s.op := rfl
@[simp] theorem emit_stage (e : Event) (s : State) : (emit e s).stage = s.stage := rfl
@[simp] theorem emit_ci (e : Event) (s : State) : (emit e s).ci = s.ci := rfl
@[simp] theorem emit_k (e : Event) (s : State) : (emit e s).k = s.k := rfl
@[simp] theorem emit_phase (e : Event) (s : State) : (emit e s).phase = s.phase := rfl
@[simp] theorem emit_fault (e : Event) (s : State) : (emit e s).fault = s.fault := rfl
@[simp] theorem emit_rsValid (e : Event) (s : State) : (emit e s).rsValid = s.rsValid := rfl
@[simp] theorem emit_trace (e : Event) (s : State) : (emit e s).trace = s.trace ++ [e] := rfl
@[simp] theorem emit_par (e : Event) (s : State) : (emit e s).par = s.par := rfl
@[simp] theorem emit_page (e : Event) (s : State) : (emit e s).page = s.page := rfl
@[simp] theorem emit_inputs (e : Event) (s : State) : (emit e s).inputs = s.inputs := rfl
@[simp] theorem emit_unmapIn (e : Event) (s : State) : (emit e s).unmapIn = s.unmapIn := rfl
@[simp] theorem emit_draws (e : Event) (s : State) : (emit e s).draws = s.draws := rfl

/-! ### delay -/

@[simp] theorem delay_fsel (n : Nat) (s : State) : (delay n s).fsel = s.fsel := rfl
@[simp] theorem delay_lat (n : Nat) (s : State) : (delay n s).lat = s.lat := rfl
@[simp] theorem delay_t (n : Nat) (s : State) : (delay n s).t = s.t := rfl
@[simp] theorem delay_op (n : Nat) (s : State) : (delay n s).op = s.op := rfl
@[simp] theorem delay_stage (n : Nat) (s : State) : (delay n s).stage = s.stage := rfl
@[simp] theorem delay_ci (n : Nat) (s : State) : (delay n s).ci = s.ci := rfl
@[simp] theorem delay_k (n : Nat) (s : State) : (delay n s).k = s.k := rfl
@[simp] theorem delay_phase (n : Nat) (s : State) : (delay n s).phase = s.phase := rfl
@[simp] theorem delay_fault (n : Nat) (s : State) : (delay n s).fault = s.fault := rfl
@[simp] theorem delay_rsValid (n : Nat) (s : State) : (delay n s).rsValid = s.rsValid := rfl
@[simp] theorem delay_trace (n : Nat) (s : State) : (delay n s).trace = s.trace ++ [.delay n] := rfl
@[simp] theorem delay_par (n : Nat) (s : State) : (delay n s).par = s.par := rfl
@[simp] theorem delay_page (n : Nat) (s : State) : (delay n s).page = s.page := rfl
@[simp] theorem delay_inputs (n : Nat) (s : State) : (delay n s).inputs = s.inputs := rfl
@[simp] theorem delay_unmapIn (n : Nat) (s : State) : (delay n s).unmapIn = s.unmapIn := rfl
@[simp] theorem delay_draws (n : Nat) (s : State) : (delay n s).draws = s.draws := rfl

/-! ### writeFsel -/

@[simp] theorem writeFsel_fsel (i : Nat) (h : i < 7) (v : Word) (s : State) :
    (writeFsel i h v s).fsel = s.fsel.set i v := rfl
@[simp] theorem writeFsel_lat (i : Nat) (h : i < 7) (v : Word) (s : State) :
    (writeFsel i h v s).lat = s.lat := rfl
@[simp] theorem writeFsel_t (i : Nat) (h : i < 7) (v : Word) (s : State) : (writeFsel i h v s).t = s.t := rfl
@[simp] theorem writeFsel_op (i : Nat) (h : i < 7) (v : Word) (s : State) :
    (writeFsel i h v s).op = s.op := rfl
@[simp] theorem writeFsel_stage (i : Nat) (h : i < 7) (v : Word) (s : State) :
    (writeFsel i h v s).stage = s.stage := rfl
@[simp] theorem writeFsel_ci (i : Nat) (h : i < 7) (v : Word) (s : State) :
    (writeFsel i h v s).ci = s.ci := rfl
@[simp] theorem writeFsel_k (i : Nat) (h : i < 7) (v : Word) (s : State) : (writeFsel i h v s).k = s.k := rfl
@[simp] theorem writeFsel_phase (i : Nat) (h : i < 7) (v : Word) (s : State) :
    (writeFsel i h v s).phase = s.phase := rfl
@[simp] theorem writeFsel_fault (i : Nat) (h : i < 7) (v : Word) (s : State) :
    (writeFsel i h v s).fault = s.fault := rfl
@[simp] theorem writeFsel_rsValid (i : Nat) (h : i < 7) (v : Word) (s : State) :
    (writeFsel i h v s).rsValid = s.rsValid := rfl
@[simp] theorem writeFsel_trace (i : Nat) (h : i < 7) (v : Word) (s : State) :
    (writeFsel i h v s).trace = s.trace := rfl
@[simp] theorem writeFsel_par (i : Nat) (h : i < 7) (v : Word) (s : State) :
    (writeFsel i h v s).par = s.par := rfl
@[simp] theorem writeFsel_page (i : Nat) (h : i < 7) (v : Word) (s : State) :
    (writeFsel i h v s).page = s.page := rfl
@[simp] theorem writeFsel_inputs (i : Nat) (h : i < 7) (v : Word) (s : State) :
    (writeFsel i h v s).inputs = s.inputs := rfl
@[simp] theorem writeFsel_unmapIn (i : Nat) (h : i < 7) (v : Word) (s : State) :
    (writeFsel i h v s).unmapIn = s.unmapIn := rfl
@[simp] theorem writeFsel_draws (i : Nat) (h : i < 7) (v : Word) (s : State) :
    (writeFsel i h v s).draws = s.draws := rfl

/-! ### writeLat -/

@[simp] theorem writeLat_fsel (v : Word) (s : State) : (writeLat v s).fsel = s.fsel := rfl
@[simp] theorem writeLat_lat (v : Word) (s : State) : (writeLat v s).lat = v := rfl
@[simp] theorem writeLat_t (v : Word) (s : State) : (writeLat v s).t = s.t := rfl
@[simp] theorem writeLat_op (v : Word) (s : State) : (writeLat v s).op = s.op := rfl
@[simp] theorem writeLat_stage (v : Word) (s : State) : (writeLat v s).stage = s.stage := rfl
@[simp] theorem writeLat_ci (v : Word) (s : State) : (writeLat v s).ci = s.ci := rfl
@[simp] theorem writeLat_k (v : Word) (s : State) : (writeLat v s).k = s.k := rfl
@[simp] theorem writeLat_phase (v : Word) (s : State) : (writeLat v s).phase = s.phase := rfl
@[simp] theorem writeLat_fault (v : Word) (s : State) : (writeLat v s).fault = s.fault := rfl
@[simp] theorem writeLat_rsValid (v : Word) (s : State) : (writeLat v s).rsValid = s.rsValid := rfl
@[simp] theorem writeLat_trace (v : Word) (s : State) : (writeLat v s).trace = s.trace := rfl
@[simp] theorem writeLat_par (v : Word) (s : State) : (writeLat v s).par = s.par := rfl
@[simp] theorem writeLat_page (v : Word) (s : State) : (writeLat v s).page = s.page := rfl
@[simp] theorem writeLat_inputs (v : Word) (s : State) : (writeLat v s).inputs = s.inputs := rfl
@[simp] theorem writeLat_unmapIn (v : Word) (s : State) : (writeLat v s).unmapIn = s.unmapIn := rfl
@[simp] theorem writeLat_draws (v : Word) (s : State) : (writeLat v s).draws = s.draws := rfl

/-! ### writeT -/

@[simp] theorem writeT_fsel (v : Word) (s : State) : (writeT v s).fsel = s.fsel := rfl
@[simp] theorem writeT_lat (v : Word) (s : State) : (writeT v s).lat = s.lat := rfl
@[simp] theorem writeT_t (v : Word) (s : State) : (writeT v s).t = v := rfl
@[simp] theorem writeT_op (v : Word) (s : State) : (writeT v s).op = s.op := rfl
@[simp] theorem writeT_stage (v : Word) (s : State) : (writeT v s).stage = s.stage := rfl
@[simp] theorem writeT_ci (v : Word) (s : State) : (writeT v s).ci = s.ci := rfl
@[simp] theorem writeT_k (v : Word) (s : State) : (writeT v s).k = s.k := rfl
@[simp] theorem writeT_phase (v : Word) (s : State) : (writeT v s).phase = s.phase := rfl
@[simp] theorem writeT_fault (v : Word) (s : State) : (writeT v s).fault = s.fault := rfl
@[simp] theorem writeT_rsValid (v : Word) (s : State) : (writeT v s).rsValid = s.rsValid := rfl
@[simp] theorem writeT_trace (v : Word) (s : State) : (writeT v s).trace = s.trace := rfl
@[simp] theorem writeT_par (v : Word) (s : State) : (writeT v s).par = s.par := rfl
@[simp] theorem writeT_page (v : Word) (s : State) : (writeT v s).page = s.page := rfl
@[simp] theorem writeT_inputs (v : Word) (s : State) : (writeT v s).inputs = s.inputs := rfl
@[simp] theorem writeT_unmapIn (v : Word) (s : State) : (writeT v s).unmapIn = s.unmapIn := rfl
@[simp] theorem writeT_draws (v : Word) (s : State) : (writeT v s).draws = s.draws := rfl

/-! ### countDraw -/

@[simp] theorem countDraw_fsel (s : State) : (countDraw s).fsel = s.fsel := rfl
@[simp] theorem countDraw_lat (s : State) : (countDraw s).lat = s.lat := rfl
@[simp] theorem countDraw_t (s : State) : (countDraw s).t = s.t := rfl
@[simp] theorem countDraw_op (s : State) : (countDraw s).op = s.op := rfl
@[simp] theorem countDraw_stage (s : State) : (countDraw s).stage = s.stage := rfl
@[simp] theorem countDraw_ci (s : State) : (countDraw s).ci = s.ci := rfl
@[simp] theorem countDraw_k (s : State) : (countDraw s).k = s.k := rfl
@[simp] theorem countDraw_phase (s : State) : (countDraw s).phase = s.phase := rfl
@[simp] theorem countDraw_fault (s : State) : (countDraw s).fault = s.fault := rfl
@[simp] theorem countDraw_rsValid (s : State) : (countDraw s).rsValid = s.rsValid := rfl
@[simp] theorem countDraw_trace (s : State) : (countDraw s).trace = s.trace := rfl
@[simp] theorem countDraw_par (s : State) : (countDraw s).par = s.par := rfl
@[simp] theorem countDraw_page (s : State) : (countDraw s).page = s.page := rfl
@[simp] theorem countDraw_inputs (s : State) : (countDraw s).inputs = s.inputs := rfl
@[simp] theorem countDraw_unmapIn (s : State) : (countDraw s).unmapIn = s.unmapIn := rfl
@[simp] theorem countDraw_draws (s : State) : (countDraw s).draws = s.draws + 1 := rfl

/-! ### setPosition -/

@[simp] theorem setPosition_fsel (g : Stage) (c n : Nat) (s : State) :
    (setPosition g c n s).fsel = s.fsel := rfl
@[simp] theorem setPosition_lat (g : Stage) (c n : Nat) (s : State) : (setPosition g c n s).lat = s.lat := rfl
@[simp] theorem setPosition_t (g : Stage) (c n : Nat) (s : State) : (setPosition g c n s).t = s.t := rfl
@[simp] theorem setPosition_op (g : Stage) (c n : Nat) (s : State) : (setPosition g c n s).op = s.op := rfl
@[simp] theorem setPosition_stage (g : Stage) (c n : Nat) (s : State) : (setPosition g c n s).stage = g := rfl
@[simp] theorem setPosition_ci (g : Stage) (c n : Nat) (s : State) : (setPosition g c n s).ci = c := rfl
@[simp] theorem setPosition_k (g : Stage) (c n : Nat) (s : State) : (setPosition g c n s).k = n := rfl
@[simp] theorem setPosition_phase (g : Stage) (c n : Nat) (s : State) :
    (setPosition g c n s).phase = s.phase := rfl
@[simp] theorem setPosition_fault (g : Stage) (c n : Nat) (s : State) :
    (setPosition g c n s).fault = s.fault := rfl
@[simp] theorem setPosition_rsValid (g : Stage) (c n : Nat) (s : State) :
    (setPosition g c n s).rsValid = s.rsValid := rfl
@[simp] theorem setPosition_trace (g : Stage) (c n : Nat) (s : State) :
    (setPosition g c n s).trace = s.trace := rfl
@[simp] theorem setPosition_par (g : Stage) (c n : Nat) (s : State) : (setPosition g c n s).par = s.par := rfl
@[simp] theorem setPosition_page (g : Stage) (c n : Nat) (s : State) :
    (setPosition g c n s).page = s.page := rfl
@[simp] theorem setPosition_inputs (g : Stage) (c n : Nat) (s : State) :
    (setPosition g c n s).inputs = s.inputs := rfl
@[simp] theorem setPosition_unmapIn (g : Stage) (c n : Nat) (s : State) :
    (setPosition g c n s).unmapIn = s.unmapIn := rfl
@[simp] theorem setPosition_draws (g : Stage) (c n : Nat) (s : State) :
    (setPosition g c n s).draws = s.draws := rfl

/-! ### complete -/

@[simp] theorem complete_fsel (s : State) : (complete s).fsel = s.fsel := rfl
@[simp] theorem complete_lat (s : State) : (complete s).lat = s.lat := rfl
@[simp] theorem complete_t (s : State) : (complete s).t = s.t := rfl
@[simp] theorem complete_op (s : State) : (complete s).op = s.op := rfl
@[simp] theorem complete_stage (s : State) : (complete s).stage = s.stage := rfl
@[simp] theorem complete_ci (s : State) : (complete s).ci = s.ci := rfl
@[simp] theorem complete_k (s : State) : (complete s).k = s.k := rfl
@[simp] theorem complete_phase (s : State) : (complete s).phase = .done := rfl
@[simp] theorem complete_fault (s : State) : (complete s).fault = s.fault := rfl
@[simp] theorem complete_rsValid (s : State) : (complete s).rsValid = s.rsValid := rfl
@[simp] theorem complete_trace (s : State) : (complete s).trace = s.trace := rfl
@[simp] theorem complete_par (s : State) : (complete s).par = s.par := rfl
@[simp] theorem complete_page (s : State) : (complete s).page = s.page := rfl
@[simp] theorem complete_inputs (s : State) : (complete s).inputs = s.inputs := rfl
@[simp] theorem complete_unmapIn (s : State) : (complete s).unmapIn = s.unmapIn := rfl
@[simp] theorem complete_draws (s : State) : (complete s).draws = s.draws := rfl

/-! ### raiseWith -/

@[simp] theorem raiseWith_fsel (q : FaultKind) (o : Option Instr) (g : Stage) (c n : Nat) (x : FaultInfo) (s : State) :
    (raiseWith q o g c n x s).fsel = s.fsel := rfl
@[simp] theorem raiseWith_lat (q : FaultKind) (o : Option Instr) (g : Stage) (c n : Nat) (x : FaultInfo) (s : State) :
    (raiseWith q o g c n x s).lat = s.lat := rfl
@[simp] theorem raiseWith_t (q : FaultKind) (o : Option Instr) (g : Stage) (c n : Nat) (x : FaultInfo) (s : State) :
    (raiseWith q o g c n x s).t = s.t := rfl
@[simp] theorem raiseWith_op (q : FaultKind) (o : Option Instr) (g : Stage) (c n : Nat) (x : FaultInfo) (s : State) :
    (raiseWith q o g c n x s).op = s.op := rfl
@[simp] theorem raiseWith_stage (q : FaultKind) (o : Option Instr) (g : Stage) (c n : Nat) (x : FaultInfo) (s : State) :
    (raiseWith q o g c n x s).stage = s.stage := rfl
@[simp] theorem raiseWith_ci (q : FaultKind) (o : Option Instr) (g : Stage) (c n : Nat) (x : FaultInfo) (s : State) :
    (raiseWith q o g c n x s).ci = s.ci := rfl
@[simp] theorem raiseWith_k (q : FaultKind) (o : Option Instr) (g : Stage) (c n : Nat) (x : FaultInfo) (s : State) :
    (raiseWith q o g c n x s).k = s.k := rfl
@[simp] theorem raiseWith_phase (q : FaultKind) (o : Option Instr) (g : Stage) (c n : Nat) (x : FaultInfo) (s : State) :
    (raiseWith q o g c n x s).phase = .aborted := rfl
@[simp] theorem raiseWith_fault (q : FaultKind) (o : Option Instr) (g : Stage) (c n : Nat) (x : FaultInfo) (s : State) :
    (raiseWith q o g c n x s).fault = some ⟨q, faultCode q, o, g, c, n, x⟩ := rfl
@[simp] theorem raiseWith_rsValid (q : FaultKind) (o : Option Instr) (g : Stage) (c n : Nat) (x : FaultInfo) (s : State) :
    (raiseWith q o g c n x s).rsValid = s.rsValid := rfl
@[simp] theorem raiseWith_trace (q : FaultKind) (o : Option Instr) (g : Stage) (c n : Nat) (x : FaultInfo) (s : State) :
    (raiseWith q o g c n x s).trace = s.trace ++ [.fault ⟨q, faultCode q, o, g, c, n, x⟩] := rfl
@[simp] theorem raiseWith_par (q : FaultKind) (o : Option Instr) (g : Stage) (c n : Nat) (x : FaultInfo) (s : State) :
    (raiseWith q o g c n x s).par = s.par := rfl
@[simp] theorem raiseWith_page (q : FaultKind) (o : Option Instr) (g : Stage) (c n : Nat) (x : FaultInfo) (s : State) :
    (raiseWith q o g c n x s).page = s.page := rfl
@[simp] theorem raiseWith_inputs (q : FaultKind) (o : Option Instr) (g : Stage) (c n : Nat) (x : FaultInfo) (s : State) :
    (raiseWith q o g c n x s).inputs = s.inputs := rfl
@[simp] theorem raiseWith_unmapIn (q : FaultKind) (o : Option Instr) (g : Stage) (c n : Nat) (x : FaultInfo) (s : State) :
    (raiseWith q o g c n x s).unmapIn = s.unmapIn := rfl
@[simp] theorem raiseWith_draws (q : FaultKind) (o : Option Instr) (g : Stage) (c n : Nat) (x : FaultInfo) (s : State) :
    (raiseWith q o g c n x s).draws = s.draws := rfl

/-! ### raise -/

@[simp] theorem raise_fsel (q : FaultKind) (x : FaultInfo) (s : State) : (raise q x s).fsel = s.fsel := rfl
@[simp] theorem raise_lat (q : FaultKind) (x : FaultInfo) (s : State) : (raise q x s).lat = s.lat := rfl
@[simp] theorem raise_t (q : FaultKind) (x : FaultInfo) (s : State) : (raise q x s).t = s.t := rfl
@[simp] theorem raise_op (q : FaultKind) (x : FaultInfo) (s : State) : (raise q x s).op = s.op := rfl
@[simp] theorem raise_stage (q : FaultKind) (x : FaultInfo) (s : State) : (raise q x s).stage = s.stage := rfl
@[simp] theorem raise_ci (q : FaultKind) (x : FaultInfo) (s : State) : (raise q x s).ci = s.ci := rfl
@[simp] theorem raise_k (q : FaultKind) (x : FaultInfo) (s : State) : (raise q x s).k = s.k := rfl
@[simp] theorem raise_phase (q : FaultKind) (x : FaultInfo) (s : State) :
    (raise q x s).phase = .aborted := rfl
@[simp] theorem raise_fault (q : FaultKind) (x : FaultInfo) (s : State) :
    (raise q x s).fault = some ⟨q, faultCode q, s.op, s.stage, s.ci, s.k, x⟩ := rfl
@[simp] theorem raise_rsValid (q : FaultKind) (x : FaultInfo) (s : State) :
    (raise q x s).rsValid = s.rsValid := rfl
@[simp] theorem raise_trace (q : FaultKind) (x : FaultInfo) (s : State) :
    (raise q x s).trace = s.trace ++ [.fault ⟨q, faultCode q, s.op, s.stage, s.ci, s.k, x⟩] := rfl
@[simp] theorem raise_par (q : FaultKind) (x : FaultInfo) (s : State) : (raise q x s).par = s.par := rfl
@[simp] theorem raise_page (q : FaultKind) (x : FaultInfo) (s : State) : (raise q x s).page = s.page := rfl
@[simp] theorem raise_inputs (q : FaultKind) (x : FaultInfo) (s : State) :
    (raise q x s).inputs = s.inputs := rfl
@[simp] theorem raise_unmapIn (q : FaultKind) (x : FaultInfo) (s : State) :
    (raise q x s).unmapIn = s.unmapIn := rfl
@[simp] theorem raise_draws (q : FaultKind) (x : FaultInfo) (s : State) : (raise q x s).draws = s.draws := rfl

/-! ### unmap -/

@[simp] theorem unmap_fsel (s : State) : (unmap s).fsel = s.fsel := rfl
@[simp] theorem unmap_lat (s : State) : (unmap s).lat = s.lat := rfl
@[simp] theorem unmap_t (s : State) : (unmap s).t = s.t := rfl
@[simp] theorem unmap_op (s : State) : (unmap s).op = s.op := rfl
@[simp] theorem unmap_stage (s : State) : (unmap s).stage = s.stage := rfl
@[simp] theorem unmap_ci (s : State) : (unmap s).ci = s.ci := rfl
@[simp] theorem unmap_k (s : State) : (unmap s).k = s.k := rfl
@[simp] theorem unmap_phase (s : State) : (unmap s).phase = s.phase := rfl
@[simp] theorem unmap_fault (s : State) : (unmap s).fault = s.fault := rfl
@[simp] theorem unmap_rsValid (s : State) : (unmap s).rsValid = false := rfl
@[simp] theorem unmap_trace (s : State) : (unmap s).trace = s.trace := rfl
@[simp] theorem unmap_par (s : State) : (unmap s).par = s.par := rfl
@[simp] theorem unmap_page (s : State) : (unmap s).page = s.page := rfl
@[simp] theorem unmap_inputs (s : State) : (unmap s).inputs = s.inputs := rfl
@[simp] theorem unmap_unmapIn (s : State) : (unmap s).unmapIn = none := rfl
@[simp] theorem unmap_draws (s : State) : (unmap s).draws = s.draws := rfl

/-! ### launch -/

@[simp] theorem launch_fsel (o : Instr) (s : State) : (launch o s).fsel = s.fsel := rfl
@[simp] theorem launch_lat (o : Instr) (s : State) : (launch o s).lat = s.lat := rfl
@[simp] theorem launch_t (o : Instr) (s : State) : (launch o s).t = s.t := rfl
@[simp] theorem launch_op (o : Instr) (s : State) : (launch o s).op = some o := rfl
@[simp] theorem launch_stage (o : Instr) (s : State) :
    (launch o s).stage = if o = .run then .setup else .only := rfl
@[simp] theorem launch_ci (o : Instr) (s : State) : (launch o s).ci = 0 := rfl
@[simp] theorem launch_k (o : Instr) (s : State) : (launch o s).k = 0 := rfl
@[simp] theorem launch_phase (o : Instr) (s : State) : (launch o s).phase = .busy := rfl
@[simp] theorem launch_fault (o : Instr) (s : State) : (launch o s).fault = s.fault := rfl
@[simp] theorem launch_rsValid (o : Instr) (s : State) : (launch o s).rsValid = s.rsValid := rfl
@[simp] theorem launch_trace (o : Instr) (s : State) : (launch o s).trace = s.trace := rfl
@[simp] theorem launch_par (o : Instr) (s : State) : (launch o s).par = s.par := rfl
@[simp] theorem launch_page (o : Instr) (s : State) : (launch o s).page = s.page := rfl
@[simp] theorem launch_inputs (o : Instr) (s : State) : (launch o s).inputs = s.inputs := rfl
@[simp] theorem launch_unmapIn (o : Instr) (s : State) : (launch o s).unmapIn = s.unmapIn := rfl
@[simp] theorem launch_draws (o : Instr) (s : State) : (launch o s).draws = s.draws := rfl

/-! ### restart -/

@[simp] theorem restart_fsel (c : Params) (s : State) : (restart c s).fsel = s.fsel := rfl
@[simp] theorem restart_lat (c : Params) (s : State) : (restart c s).lat = s.lat := rfl
@[simp] theorem restart_t (c : Params) (s : State) : (restart c s).t = 0#32 := rfl
@[simp] theorem restart_op (c : Params) (s : State) : (restart c s).op = none := rfl
@[simp] theorem restart_stage (c : Params) (s : State) : (restart c s).stage = .only := rfl
@[simp] theorem restart_ci (c : Params) (s : State) : (restart c s).ci = 0 := rfl
@[simp] theorem restart_k (c : Params) (s : State) : (restart c s).k = 0 := rfl
@[simp] theorem restart_phase (c : Params) (s : State) : (restart c s).phase = .idle := rfl
@[simp] theorem restart_fault (c : Params) (s : State) : (restart c s).fault = none := rfl
@[simp] theorem restart_rsValid (c : Params) (s : State) : (restart c s).rsValid = false := rfl
@[simp] theorem restart_trace (c : Params) (s : State) : (restart c s).trace = [] := rfl
@[simp] theorem restart_par (c : Params) (s : State) : (restart c s).par = c := rfl
@[simp] theorem restart_page (c : Params) (s : State) : (restart c s).page = none := rfl
@[simp] theorem restart_inputs (c : Params) (s : State) : (restart c s).inputs = s.inputs := rfl
@[simp] theorem restart_unmapIn (c : Params) (s : State) : (restart c s).unmapIn = none := rfl
@[simp] theorem restart_draws (c : Params) (s : State) : (restart c s).draws = s.draws := rfl

end Sys2Proof.Machine
end

