-- ==== Sys2Proof/Laws/Access.lean ====
section
/-! SUPPORT. What the access primitives, a micro-operation and the sequencer's moves can do, said once
(spec/20_memory.md R55 to R57; spec/41_serial_transmitter.md R151 to R153). -/

namespace Sys2Proof.Machine

variable {s s1 : State} {i : Nat} {v : Word} {mu : Micro}

/-! ### The primitives on a register they know -/

theorem memRead_fsel (hv : s.rsValid = true) (hi : i < 7) :
    memRead i s = .ok s.fsel[i] (emit (.read i s.fsel[i]) s) := by
  have : ¬ Config.nregs ≤ i := by simp [Config.nregs]; omega
  simp [memRead, this, hv, hi]

theorem memWrite_fsel (hv : s.rsValid = true) (hi : i < 7) :
    memWrite i v s = .ok () (emit (.write i v) (writeFsel i hi v s)) := by
  have : ¬ Config.nregs ≤ i := by simp [Config.nregs]; omega
  simp [memWrite, this, hv, hi]

theorem memWrite_set (hw : s.par.wf) (hv : s.rsValid = true) :
    memWrite s.par.gpset v s = .ok () (emit (.write s.par.gpset v) (writeLat (s.lat ||| v) s)) := by
  obtain ⟨-, -, ⟨h1, h2⟩, -, -⟩ := hw
  have a : ¬ Config.nregs ≤ s.par.gpset := by simp [Config.nregs]; omega
  have b : ¬ s.par.gpset < 7 := by omega
  simp [memWrite, a, hv, b]

theorem memWrite_clear (hw : s.par.wf) (hv : s.rsValid = true) :
    memWrite s.par.gpclr v s = .ok () (emit (.write s.par.gpclr v) (writeLat (s.lat &&& ~~~v) s)) := by
  obtain ⟨-, -, -, ⟨h1, h2⟩, h3⟩ := hw
  have a : ¬ Config.nregs ≤ s.par.gpclr := by simp [Config.nregs]; omega
  have b : ¬ s.par.gpclr < 7 := by omega
  simp [memWrite, a, hv, b, Ne.symm h3]

theorem memRead_invalid (hv : s.rsValid = false) (hi : i < 1024) :
    memRead i s = .raised (raise .registerSpaceInvalid (.access i .read) s) := by
  have : ¬ Config.nregs ≤ i := by simp [Config.nregs]; omega
  simp [memRead, this, hv]

theorem memWrite_invalid (hv : s.rsValid = false) (hi : i < 1024) :
    memWrite i v s = .raised (raise .registerSpaceInvalid (.access i .write) s) := by
  have : ¬ Config.nregs ≤ i := by simp [Config.nregs]; omega
  simp [memWrite, this, hv]

/-! ### Everything the primitives can do -/

/-- A read that answers: a stored register, or a free draw of SET or CLEAR. -/
theorem memRead_ok (h : memRead i s = .ok v s1) :
    s.rsValid = true ∧ i < 1024 ∧
    ((∃ hi : i < 7, v = s.fsel[i] ∧ s1 = emit (.read i v) s) ∨
     (7 ≤ i ∧ (i = s.par.gpset ∨ i = s.par.gpclr) ∧ v = Config.freeRead s.draws ∧
      s1 = countDraw (emit (.read i v) s))) := by
  unfold memRead at h
  split at h
  · cases h
  · split at h
    · cases h
    · rename_i hn hv
      have hn' : i < 1024 := by simpa [Config.nregs] using hn
      have hv' : s.rsValid = true := by simpa using hv
      split at h
      · rename_i hi
        cases h
        exact ⟨hv', hn', .inl ⟨hi, rfl, rfl⟩⟩
      · split at h
        · cases h
          exact ⟨hv', hn', .inr ⟨by omega, ‹_›, rfl, rfl⟩⟩
        · cases h

/-- A write that answers: a function-select register, SET, or CLEAR. -/
theorem memWrite_ok {u : Unit} (h : memWrite i v s = .ok u s1) :
    s.rsValid = true ∧ i < 1024 ∧
    ((∃ hi : i < 7, s1 = emit (.write i v) (writeFsel i hi v s)) ∨
     (7 ≤ i ∧ i = s.par.gpset ∧ s1 = emit (.write i v) (writeLat (s.lat ||| v) s)) ∨
     (7 ≤ i ∧ i ≠ s.par.gpset ∧ i = s.par.gpclr ∧
      s1 = emit (.write i v) (writeLat (s.lat &&& ~~~v) s))) := by
  unfold memWrite at h
  split at h
  · cases h
  · split at h
    · cases h
    · rename_i hn hv
      have hn' : i < 1024 := by simpa [Config.nregs] using hn
      have hv' : s.rsValid = true := by simpa using hv
      split at h
      · rename_i hi
        cases h
        exact ⟨hv', hn', .inl ⟨hi, rfl⟩⟩
      · split at h
        · cases h
          exact ⟨hv', hn', .inr (.inl ⟨by omega, ‹_›, rfl⟩)⟩
        · split at h
          · cases h
            exact ⟨hv', hn', .inr (.inr ⟨by omega, ‹_›, ‹_›, rfl⟩)⟩
          · cases h

/-- A read that raises: out of range, or the register space is not valid. -/
theorem memRead_raised (h : memRead i s = .raised s1) :
    (1024 ≤ i ∧ s1 = raise .registerIndexOutOfRange (.index i) s) ∨
    (i < 1024 ∧ s.rsValid = false ∧ s1 = raise .registerSpaceInvalid (.access i .read) s) := by
  unfold memRead at h
  split at h
  · cases h
    exact .inl ⟨by simpa [Config.nregs] using ‹Config.nregs ≤ i›, rfl⟩
  · split at h
    · cases h
      rename_i hn hv
      exact .inr ⟨by simpa [Config.nregs] using hn, by simpa using hv, rfl⟩
    · split at h
      · cases h
      · split at h <;> cases h

/-- A write that raises: out of range, or the register space is not valid. -/
theorem memWrite_raised (h : memWrite i v s = .raised s1) :
    (1024 ≤ i ∧ s1 = raise .registerIndexOutOfRange (.index i) s) ∨
    (i < 1024 ∧ s.rsValid = false ∧ s1 = raise .registerSpaceInvalid (.access i .write) s) := by
  unfold memWrite at h
  split at h
  · cases h
    exact .inl ⟨by simpa [Config.nregs] using ‹Config.nregs ≤ i›, rfl⟩
  · split at h
    · cases h
      rename_i hn hv
      exact .inr ⟨by simpa [Config.nregs] using hn, by simpa using hv, rfl⟩
    · split at h
      · cases h
      · split at h
        · cases h
        · split at h <;> cases h

/-- An access that is refused names an unknown register below 1024. -/
theorem memWrite_refused {r : Refusal} (h : memWrite i v s = .refused r) :
    r = .unknownRegister i ∧ s.rsValid = true ∧ 7 ≤ i ∧ i < 1024 ∧ i ≠ s.par.gpset ∧ i ≠ s.par.gpclr := by
  unfold memWrite at h
  split at h
  · cases h
  · split at h
    · cases h
    · rename_i hn hv
      split at h
      · cases h
      · split at h
        · cases h
        · split at h
          · cases h
          · cases h
            exact ⟨rfl, by simpa using hv, by omega, by simpa [Config.nregs] using hn, ‹_›, ‹_›⟩

theorem memRead_refused {r : Refusal} (h : memRead i s = .refused r) :
    r = .unknownRegister i ∧ s.rsValid = true ∧ 7 ≤ i ∧ i < 1024 ∧ i ≠ s.par.gpset ∧ i ≠ s.par.gpclr := by
  unfold memRead at h
  split at h
  · cases h
  · split at h
    · cases h
    · rename_i hn hv
      split at h
      · cases h
      · split at h
        · cases h
        · rename_i hk
          cases h
          exact ⟨rfl, by simpa using hv, by omega, by simpa [Config.nregs] using hn,
            fun e => hk (.inl e), fun e => hk (.inr e)⟩

/-! ### A micro-operation -/

/-- What no micro-operation that completes changes: the program counter, the status, the parameters, the
page and the host's side; the trace gains one event, which is no fault. -/
structure SameButData (s s1 : State) : Prop where
  op : s1.op = s.op
  stage : s1.stage = s.stage
  ci : s1.ci = s.ci
  k : s1.k = s.k
  phase : s1.phase = s.phase
  fault : s1.fault = s.fault
  rsValid : s1.rsValid = s.rsValid
  par : s1.par = s.par
  page : s1.page = s.page
  inputs : s1.inputs = s.inputs
  unmapIn : s1.unmapIn = s.unmapIn

/-- The three ways a micro-operation completes, with the state they lead to. -/
theorem perform_ok {u : Unit} (h : perform mu s = .ok u s1) :
    (∃ i v s', mu = .rd i ∧ memRead i s = .ok v s' ∧ s1 = writeT v s') ∨
    (∃ i e, mu = .wr i e ∧ memWrite i (evalExpr s.t e) s = .ok () s1) ∨
    (∃ n, mu = .dly n ∧ s1 = delay n s) := by
  cases mu with
  | rd i =>
    simp only [perform] at h
    cases hr : memRead i s with
    | ok v s' =>
      rw [hr] at h
      cases h
      exact .inl ⟨i, v, s', rfl, hr, rfl⟩
    | raised s' => rw [hr] at h; cases h
    | refused r => rw [hr] at h; cases h
  | wr i e => exact .inr (.inl ⟨i, e, rfl, h⟩)
  | dly n => cases h; exact .inr (.inr ⟨n, rfl, rfl⟩)

/-- A micro-operation that raised made an access and led to the state of `raise`. -/
theorem perform_raised (h : perform mu s = .raised s1) :
    ∃ i rw, s1 = raise .registerIndexOutOfRange (.index i) s ∧ 1024 ≤ i ∧
        (mu = .rd i ∨ ∃ e, mu = .wr i e) ∨
      s1 = raise .registerSpaceInvalid (.access i rw) s ∧ i < 1024 ∧ s.rsValid = false ∧
        (mu = .rd i ∧ rw = .read ∨ ∃ e, mu = .wr i e ∧ rw = .write) := by
  cases mu with
  | rd i =>
    simp only [perform] at h
    cases hr : memRead i s with
    | ok v s' => rw [hr] at h; cases h
    | refused r => rw [hr] at h; cases h
    | raised s' =>
      rw [hr] at h
      cases h
      rcases memRead_raised hr with ⟨hi, rfl⟩ | ⟨hi, hv, rfl⟩
      · exact ⟨i, .read, .inl ⟨rfl, hi, .inl rfl⟩⟩
      · exact ⟨i, .read, .inr ⟨rfl, hi, hv, .inl ⟨rfl, rfl⟩⟩⟩
  | wr i e =>
    rcases memWrite_raised h with ⟨hi, rfl⟩ | ⟨hi, hv, rfl⟩
    · exact ⟨i, .write, .inl ⟨rfl, hi, .inr ⟨e, rfl⟩⟩⟩
    · exact ⟨i, .write, .inr ⟨rfl, hi, hv, .inr ⟨e, rfl, rfl⟩⟩⟩
  | dly n => cases h

/-- The frame of a micro-operation that completes. -/
theorem perform_frame {u : Unit} (h : perform mu s = .ok u s1) : SameButData s s1 := by
  rcases perform_ok h with ⟨i, v, s', rfl, hr, rfl⟩ | ⟨i, e, rfl, hw⟩ | ⟨n, rfl, rfl⟩
  · rcases memRead_ok hr with ⟨-, -, ⟨hi, rfl, rfl⟩ | ⟨-, -, rfl, rfl⟩⟩ <;> constructor <;> rfl
  · rcases memWrite_ok hw with ⟨-, -, ⟨hi, rfl⟩ | ⟨-, rfl, rfl⟩ | ⟨-, -, rfl, rfl⟩⟩ <;> constructor <;> rfl
  · constructor <;> rfl

/-! ### UNMAP, the program counter, one step -/

/-- Ticking changes nothing but `rs_valid` and the count, and leaves no count of 0. -/
theorem tickUnmap_cases (s : State) :
    (s.unmapIn = none ∧ tickUnmap s = s) ∨ tickUnmap s = unmap s ∨
    ∃ n, s.unmapIn = some (n + 2) ∧ tickUnmap s = { s with unmapIn := some (n + 1) } := by
  unfold tickUnmap
  split
  · exact .inl ⟨‹_›, rfl⟩
  · exact .inr (.inl rfl)
  · rename_i n hn
    cases n with
    | zero => exact .inr (.inl rfl)
    | succ n => exact .inr (.inr ⟨n, hn, rfl⟩)

@[simp] theorem tickUnmap_none (h : s.unmapIn = none) : tickUnmap s = s := by simp [tickUnmap, h]

/-- Where the program counter goes after a micro-operation (R153). -/
theorem advance_cases (s : State) :
    (s.k + 1 < (currentItem s).length ∧ advance s = setPosition s.stage s.ci (s.k + 1) s) ∨
    ((currentItem s).length ≤ s.k + 1 ∧
      ((s.stage = .only ∧ advance s = complete s) ∨
       (s.stage = .setup ∧ 0 < s.par.cmds.length ∧ advance s = setPosition .cmd 0 0 s) ∨
       (s.stage = .setup ∧ s.par.cmds.length = 0 ∧ advance s = setPosition .teardown s.ci 0 s) ∨
       (s.stage = .cmd ∧ s.ci + 1 < s.par.cmds.length ∧ advance s = setPosition .cmd (s.ci + 1) 0 s) ∨
       (s.stage = .cmd ∧ s.par.cmds.length ≤ s.ci + 1 ∧ advance s = setPosition .teardown s.ci 0 s) ∨
       (s.stage = .teardown ∧ advance s = complete s))) := by
  unfold advance
  split
  · exact .inl ⟨‹_›, rfl⟩
  · right
    refine ⟨by omega, ?_⟩
    cases hs : s.stage with
    | only => exact .inl ⟨rfl, rfl⟩
    | setup =>
      by_cases hn : 0 < s.par.cmds.length
      · exact .inr (.inl ⟨rfl, hn, if_pos hn⟩)
      · exact .inr (.inr (.inl ⟨rfl, by omega, if_neg hn⟩))
    | cmd =>
      by_cases hn : s.ci + 1 < s.par.cmds.length
      · exact .inr (.inr (.inr (.inl ⟨rfl, hn, if_pos hn⟩)))
      · exact .inr (.inr (.inr (.inr (.inl ⟨rfl, by omega, if_neg hn⟩))))
    | teardown => exact .inr (.inr (.inr (.inr (.inr ⟨rfl, rfl⟩))))

/-- Everything a step of the sequencer can do (R153, R176). -/
theorem microStep_next (h : microStep s = .next s1) :
    ∃ mu, (currentItem s)[s.k]? = some mu ∧
      ((∃ s', perform mu s = .ok () s' ∧ s1 = tickUnmap (advance s')) ∨ perform mu s = .raised s1) := by
  unfold microStep at h
  split at h
  · cases h
  · rename_i mu hmu
    refine ⟨mu, hmu, ?_⟩
    cases hp : perform mu s with
    | ok u s' => rw [hp] at h; cases h; exact .inl ⟨s', rfl, rfl⟩
    | raised s' => rw [hp] at h; cases h; exact .inr rfl
    | refused r => rw [hp] at h; cases h

/-- Everything `start` can do (R151). -/
theorem start_next {o : Instr} (h : start o s = .next s1) :
    admits s.phase = true ∧ (o = .run → cmdsWellFormed s.par.cmds = true) ∧
    ((∃ p, badPin o = some p ∧ s1 = raiseWith .invalidPin (some o) .only 0 0 (.pin p) s) ∨
     (badPin o = none ∧ s1 = launch o s)) := by
  unfold start at h
  split at h
  · cases h
  · rename_i ha
    split at h
    · cases h
    · rename_i hw
      refine ⟨by simpa using ha, fun ho => by simpa [ho] using hw, ?_⟩
      split at h
      · cases h; exact .inl ⟨_, ‹_›, rfl⟩
      · cases h; exact .inr ⟨‹_›, rfl⟩

end Sys2Proof.Machine
end

