-- ==== Sys2Proof/Laws/Run.lean ====
section
/-! SUPPORT. An operation that meets no fault: each item performs its micro-operations in order
(spec/41_serial_transmitter.md R147, R149, R153). -/

namespace Sys2Proof.Machine

variable {s s1 : State} {mu : Micro}

/-! ### Micro-operations that are known to complete -/

/-- The register a micro-operation names is one it may use. -/
def knownMicro (c : Params) : Micro → Prop
  | .rd i => i < 7
  | .wr i _ => i < 7 ∨ i = c.gpset ∨ i = c.gpclr
  | .dly _ => True

/-- The conditions under which no access fails: parameters as R8 asks, the register space valid, no UNMAP
to come. -/
structure Ready (s : State) : Prop where
  wf : s.par.wf
  valid : s.rsValid = true
  mapped : s.unmapIn = none

/-- The state after a micro-operation. -/
def effect (mu : Micro) (s : State) : State :=
  match perform mu s with
  | .ok _ s1 => s1
  | .raised s1 => s1
  | .refused _ => s

/-- The state after a list of micro-operations. -/
def effects (ms : List Micro) (s : State) : State := ms.foldl (fun s mu => effect mu s) s

@[simp] theorem effects_nil (s : State) : effects [] s = s := rfl

@[simp] theorem effects_cons (mu : Micro) (ms : List Micro) (s : State) :
    effects (mu :: ms) s = effects ms (effect mu s) := rfl

theorem effects_append (xs ys : List Micro) (s : State) :
    effects (xs ++ ys) s = effects ys (effects xs s) := by simp [effects, List.foldl_append]

theorem perform_known (hr : Ready s) (hk : knownMicro s.par mu) :
    perform mu s = .ok () (effect mu s) := by
  have : ∃ s', perform mu s = .ok () s' := by
    cases mu with
    | rd i => exact ⟨writeT s.fsel[i] (emit (.read i s.fsel[i]) s), by simp only [perform, memRead_fsel hr.valid hk]⟩
    | wr i e =>
      rcases hk with h | rfl | rfl
      · exact ⟨_, memWrite_fsel hr.valid h⟩
      · exact ⟨_, memWrite_set hr.wf hr.valid⟩
      · exact ⟨_, memWrite_clear hr.wf hr.valid⟩
    | dly n => exact ⟨_, rfl⟩
  obtain ⟨s', h⟩ := this
  simp [effect, h]

theorem effect_frame (hr : Ready s) (hk : knownMicro s.par mu) : SameButData s (effect mu s) :=
  perform_frame (perform_known hr hk)

theorem effect_ready (hr : Ready s) (hk : knownMicro s.par mu) : Ready (effect mu s) := by
  have f := effect_frame hr hk
  exact ⟨f.par ▸ hr.wf, f.rsValid ▸ hr.valid, f.unmapIn ▸ hr.mapped⟩

theorem SameButData.refl (s : State) : SameButData s s := by constructor <;> rfl

theorem SameButData.trans {a b c : State} (h : SameButData a b) (g : SameButData b c) : SameButData a c :=
  ⟨g.op.trans h.op, g.stage.trans h.stage, g.ci.trans h.ci, g.k.trans h.k, g.phase.trans h.phase,
    g.fault.trans h.fault, g.rsValid.trans h.rsValid, g.par.trans h.par, g.page.trans h.page,
    g.inputs.trans h.inputs, g.unmapIn.trans h.unmapIn⟩

theorem effects_frame {ms : List Micro} :
    ∀ {s : State}, Ready s → (∀ mu ∈ ms, knownMicro s.par mu) → SameButData s (effects ms s) := by
  induction ms with
  | nil => exact fun _ _ => .refl _
  | cons mu ms ih =>
    intro s hr hk
    have h1 := effect_frame hr (hk mu (by simp))
    exact h1.trans (ih (effect_ready hr (hk mu (by simp))) fun m hm => h1.par ▸ hk m (by simp [hm]))

theorem effects_ready {ms : List Micro} (hr : Ready s) (hk : ∀ mu ∈ ms, knownMicro s.par mu) :
    Ready (effects ms s) := by
  have f := effects_frame hr hk
  exact ⟨f.par ▸ hr.wf, f.rsValid ▸ hr.valid, f.unmapIn ▸ hr.mapped⟩

/-! ### The effect of one micro-operation on each kind of register -/

theorem effect_rd {i : Nat} (hv : s.rsValid = true) (hi : i < 7) :
    effect (.rd i) s = writeT s.fsel[i] (emit (.read i s.fsel[i]) s) := by
  simp [effect, perform, memRead_fsel hv hi]

theorem effect_wr_fsel {i : Nat} {e : Expr} (hv : s.rsValid = true) (hi : i < 7) :
    effect (.wr i e) s = emit (.write i (evalExpr s.t e)) (writeFsel i hi (evalExpr s.t e) s) := by
  simp [effect, perform, memWrite_fsel hv hi]

theorem effect_wr_set {e : Expr} (hr : Ready s) :
    effect (.wr s.par.gpset e) s =
      emit (.write s.par.gpset (evalExpr s.t e)) (writeLat (s.lat ||| evalExpr s.t e) s) := by
  simp [effect, perform, memWrite_set hr.wf hr.valid]

theorem effect_wr_clear {e : Expr} (hr : Ready s) :
    effect (.wr s.par.gpclr e) s =
      emit (.write s.par.gpclr (evalExpr s.t e)) (writeLat (s.lat &&& ~~~(evalExpr s.t e)) s) := by
  simp [effect, perform, memWrite_clear hr.wf hr.valid]

@[simp] theorem effect_dly (n : Nat) (s : State) : effect (.dly n) s = delay n s := rfl

/-! ### The program counter does not matter to an effect -/

/-- The state with another program counter and phase. -/
def relabel (o : Option Instr) (g : Stage) (ci k : Nat) (ph : Phase) (s : State) : State :=
  { s with op := o, stage := g, ci := ci, k := k, phase := ph }

theorem effect_relabel {o : Option Instr} {g : Stage} {ci k : Nat} {ph : Phase} (hr : Ready s)
    (hk : knownMicro s.par mu) :
    effect mu (relabel o g ci k ph s) = relabel o g ci k ph (effect mu s) := by
  have hr' : Ready (relabel o g ci k ph s) := ⟨hr.wf, hr.valid, hr.mapped⟩
  cases mu with
  | rd i => rw [effect_rd hr.valid hk, effect_rd (by exact hr.valid) hk]; rfl
  | wr i e =>
    rcases hk with h | rfl | rfl
    · rw [effect_wr_fsel hr.valid h, effect_wr_fsel (by exact hr.valid) h]; rfl
    · rw [effect_wr_set hr]; exact effect_wr_set hr'
    · rw [effect_wr_clear hr]; exact effect_wr_clear hr'
  | dly n => rfl

theorem effects_relabel {o : Option Instr} {g : Stage} {ci k : Nat} {ph : Phase} {ms : List Micro} :
    ∀ {s : State}, Ready s → (∀ mu ∈ ms, knownMicro s.par mu) →
      effects ms (relabel o g ci k ph s) = relabel o g ci k ph (effects ms s) := by
  induction ms with
  | nil => intros; rfl
  | cons mu ms ih =>
    intro s hr hk
    have h1 := hk mu (by simp)
    rw [effects_cons, effect_relabel hr h1, effects_cons,
      ih (effect_ready hr h1) fun m h => (effect_frame hr h1).par ▸ hk m (by simp [h])]

/-- Where a state comes from another by its own program counter. -/
theorem relabel_self (s : State) : relabel s.op s.stage s.ci s.k s.phase s = s := rfl

theorem launch_eq (o : Instr) (s : State) :
    launch o s = relabel (some o) (if o = .run then .setup else .only) 0 0 .busy s := rfl

/-! ### The items name only known registers -/

theorem fselIndex_valid {p : Nat} (hp : p ≤ 27) : fselIndex p < 7 := by
  simp [fselIndex, Config.fselPins]; omega

theorem levelIndex_valid (c : Params) {p : Nat} (hp : p ≤ 27) (l : Bool) :
    levelIndex c p l = if l then c.gpset else c.gpclr := by
  have : p / 32 = 0 := by omega
  simp [levelIndex, levelBank, Config.levelBankPins, this]

theorem pin_le (p : Fin 28) : p.val ≤ 27 := by omega

theorem pinValid_iff {p : Nat} : pinValid p = true ↔ p ≤ 27 := decide_eq_true_iff

theorem setPinModeMicros_known (c : Params) {p : Nat} (hp : p ≤ 27) (m : PinMode) :
    ∀ mu ∈ setPinModeMicros c p m, knownMicro c mu := by
  simp [setPinModeMicros, knownMicro, fselIndex_valid hp]

theorem setPinLevelMicros_known (c : Params) {p : Nat} (hp : p ≤ 27) (l : Bool) :
    ∀ mu ∈ setPinLevelMicros c p l, knownMicro c mu := by
  cases l <;> simp [setPinLevelMicros, knownMicro, levelIndex_valid c hp]

theorem bitMicros_known (c : Params) (b : Bool) : ∀ mu ∈ bitMicros c b, knownMicro c mu := by
  simp only [bitMicros, List.mem_append, List.mem_singleton]
  rintro mu ((((h | h) | rfl) | h) | rfl)
  · exact setPinLevelMicros_known c (pin_le _) _ _ h
  · exact setPinLevelMicros_known c (pin_le _) _ _ h
  · trivial
  · exact setPinLevelMicros_known c (pin_le _) _ _ h
  · trivial

theorem xferMicros_known (c : Params) (w : BitVec 9) : ∀ mu ∈ xferMicros c w, knownMicro c mu := by
  simp only [xferMicros, List.mem_append, List.mem_flatMap]
  rintro mu (((h | ⟨b, -, h⟩) | h) | h)
  · exact setPinLevelMicros_known c (pin_le _) _ _ h
  · exact bitMicros_known c b _ h
  · exact setPinLevelMicros_known c (pin_le _) _ _ h
  · exact setPinLevelMicros_known c (pin_le _) _ _ h

theorem waitMicros_known (c : Params) : ∀ mu ∈ waitMicros, knownMicro c mu := by
  simp [waitMicros, knownMicro]

theorem setupMicros_known (c : Params) : ∀ mu ∈ setupMicros c, knownMicro c mu := by
  simp only [setupMicros, List.mem_append]
  rintro mu (((((h | h) | h) | h) | h) | h)
  all_goals first
    | exact setPinModeMicros_known c (pin_le _) _ _ h
    | exact setPinLevelMicros_known c (pin_le _) _ _ h

theorem teardownMicros_known (c : Params) : ∀ mu ∈ teardownMicros c, knownMicro c mu := by
  simp only [teardownMicros, List.mem_append]
  rintro mu ((h | h) | h) <;> exact setPinModeMicros_known c (pin_le _) _ _ h

theorem cellMicros_known (c : Params) (cell : Cell) : ∀ mu ∈ cellMicros c cell, knownMicro c mu := by
  unfold cellMicros
  split
  · exact xferMicros_known c _
  · exact waitMicros_known c
  · simp

theorem itemMicros_known (c : Params) (o : Instr) (g : Stage) (ci : Nat) (hp : badPin o = none) :
    ∀ mu ∈ itemMicros c o g ci, knownMicro c mu := by
  cases o with
  | xfer w => exact xferMicros_known c w
  | wait => exact waitMicros_known c
  | setPinMode p m =>
    exact setPinModeMicros_known c (pinValid_iff.1 (by simpa [badPin] using hp)) m
  | setPinLevel p l =>
    exact setPinLevelMicros_known c (pinValid_iff.1 (by simpa [badPin] using hp)) l
  | setup => exact setupMicros_known c
  | teardown => exact teardownMicros_known c
  | run =>
    cases g with
    | only => simp [itemMicros, runMicros]
    | setup => exact setupMicros_known c
    | teardown => exact teardownMicros_known c
    | cmd =>
      simp only [itemMicros, runMicros]
      split
      · exact cellMicros_known c _
      · simp

/-! ### Lengths -/

@[simp] theorem setPinModeMicros_length (c : Params) (p : Nat) (m : PinMode) :
    (setPinModeMicros c p m).length = 2 := rfl

@[simp] theorem setPinLevelMicros_length (c : Params) (p : Nat) (l : Bool) :
    (setPinLevelMicros c p l).length = 1 := rfl

@[simp] theorem xferMicros_length (c : Params) (w : BitVec 9) : (xferMicros c w).length = 48 := rfl

@[simp] theorem waitMicros_length : waitMicros.length = 1 := rfl

@[simp] theorem setupMicros_length (c : Params) : (setupMicros c).length = 9 := rfl

@[simp] theorem teardownMicros_length (c : Params) : (teardownMicros c).length = 6 := rfl

theorem cellMicros_length_pos (c : Params) {cell : Cell} (h : (decodeCommand cell).isSome = true) :
    0 < (cellMicros c cell).length := by
  unfold cellMicros
  split
  · simp
  · simp
  · rename_i hn; simp [hn] at h

/-! ### One step, one item -/

/-- A step at a known micro-operation, when nothing can fail. -/
theorem microStep_ready (hr : Ready s) (hk : knownMicro s.par mu) (hmu : (currentItem s)[s.k]? = some mu) :
    microStep s = .next (advance (effect mu s)) := by
  have f := effect_frame hr hk
  have : (advance (effect mu s)).unmapIn = none := by
    rcases advance_cases (effect mu s) with ⟨-, h⟩ |
      ⟨-, ⟨-, h⟩ | ⟨-, -, h⟩ | ⟨-, -, h⟩ | ⟨-, -, h⟩ | ⟨-, -, h⟩ | ⟨-, h⟩⟩ <;>
      rw [h] <;> simpa [f.unmapIn] using hr.mapped
  simp [microStep, hmu, perform_known hr hk, tickUnmap_none this]

theorem SameButData.currentItem_eq (f : SameButData s s1) : currentItem s1 = currentItem s := by
  simp [currentItem, f.op, f.par, f.stage, f.ci]

/-- Steps inside an item: from position `pre.length` the rest `mu :: ms` of the item is performed in order,
and the program counter leaves the item from its last position. -/
theorem finish_rest (n : Nat) {ms : List Micro} :
    ∀ {s : State} {mu : Micro} {done : List Micro}, Ready s → s.phase = .busy →
      currentItem s = done ++ mu :: ms → s.k = done.length → (∀ m ∈ mu :: ms, knownMicro s.par m) →
      finish (ms.length + 1 + n) s =
        finish n (advance (setPosition s.stage s.ci (done.length + ms.length) (effects (mu :: ms) s))) := by
  induction ms with
  | nil =>
    intro s mu done hr hb hc hk hm
    have hmu : (currentItem s)[s.k]? = some mu := by simp [hc, hk]
    have f := effect_frame hr (hm mu (by simp))
    have e : setPosition s.stage s.ci (done.length + 0) (effects [mu] s) = effect mu s := by
      rw [effects_cons, effects_nil, Nat.add_zero, ← hk, ← f.stage, ← f.ci, ← f.k]; rfl
    simp only [List.length_nil, Nat.zero_add, Nat.add_comm 1 n, finish, hb, if_true,
      microStep_ready hr (hm mu (by simp)) hmu]
    rw [← e]
  | cons m2 ms ih =>
    intro s mu done hr hb hc hk hm
    have hmu : (currentItem s)[s.k]? = some mu := by simp [hc, hk]
    have hkn := hm mu (by simp)
    have f := effect_frame hr hkn
    have hadv : advance (effect mu s) = setPosition s.stage s.ci (done.length + 1) (effect mu s) := by
      rw [advance, if_pos (by rw [f.currentItem_eq, hc, f.k, hk]; simp), f.stage, f.ci, f.k, hk]
    have hr2 := effect_ready hr hkn
    have key := ih (s := setPosition s.stage s.ci (done.length + 1) (effect mu s)) (mu := m2)
      (done := done ++ [mu]) ⟨hr2.wf, hr2.valid, hr2.mapped⟩ (by simpa [f.phase] using hb)
      (by simp [currentItem, f.op, f.par]; simpa [currentItem] using hc) (by simp)
      (by intro m h; simpa [f.par] using hm m (by simp at h ⊢; tauto))
    have comm : effects (m2 :: ms) (setPosition s.stage s.ci (done.length + 1) (effect mu s)) =
        setPosition s.stage s.ci (done.length + 1) (effects (m2 :: ms) (effect mu s)) := by
      have hk2 : ∀ m ∈ m2 :: ms, knownMicro (effect mu s).par m := fun m h => by
        simpa [f.par] using hm m (by simp at h ⊢; tauto)
      have f2 := effects_frame hr2 hk2
      have e := effects_relabel (o := (effect mu s).op) (g := s.stage) (ci := s.ci) (k := done.length + 1)
        (ph := (effect mu s).phase) hr2 hk2
      rw [show relabel (effect mu s).op s.stage s.ci (done.length + 1) (effect mu s).phase (effect mu s) =
        setPosition s.stage s.ci (done.length + 1) (effect mu s) from rfl] at e
      rw [e, ← f2.op, ← f2.phase]
      rfl
    rw [show (m2 :: ms).length + 1 + n = (ms.length + 1 + n) + 1 by simp; omega]
    simp only [finish, hb, if_true, microStep_ready hr hkn hmu, hadv]
    rw [key, comm]
    have hl : (done ++ [mu]).length + ms.length = done.length + (m2 :: ms).length := by simp; omega
    rw [hl]
    rfl

/-- A whole item from its first position. -/
theorem finish_item (n : Nat) (hr : Ready s) (hb : s.phase = .busy) (hk : s.k = 0)
    (hne : 0 < (currentItem s).length) (hm : ∀ m ∈ currentItem s, knownMicro s.par m) :
    finish ((currentItem s).length + n) s =
      finish n (advance (setPosition s.stage s.ci ((currentItem s).length - 1)
        (effects (currentItem s) s))) := by
  match hc : currentItem s with
  | [] => simp [hc] at hne
  | mu :: ms =>
    have := finish_rest n (s := s) (mu := mu) (ms := ms) (done := []) hr hb (by simp [hc]) (by simp [hk])
      (by simpa [hc] using hm)
    simpa using this

/-! ### A whole operation -/

theorem launch_ready {o : Instr} (hr : Ready s) : Ready (launch o s) := ⟨hr.wf, hr.valid, hr.mapped⟩

theorem itemMicros_stage {o : Instr} (ho : o ≠ .run) (c : Params) (g : Stage) (ci : Nat) :
    itemMicros c o g ci = itemMicros c o .only 0 := by
  cases o <;> first | rfl | exact absurd rfl ho

theorem itemMicros_only_pos {o : Instr} (ho : o ≠ .run) (c : Params) :
    0 < (itemMicros c o .only 0).length := by
  cases o <;> first | exact absurd rfl ho | simp [itemMicros]

/-! ### Operations that end at once -/

theorem finish_done (n : Nat) (h : s.phase ≠ .busy) : finish n s = .next s := by
  cases n <;> simp [finish, h]

/-- A bad pin ends the operation before any access (R151, R171). -/
theorem runOperation_badPin {o : Instr} {p : Nat} (ha : admits s.phase = true) (hp : badPin o = some p) :
    runOperation o s = .next (raiseWith .invalidPin (some o) .only 0 0 (.pin p) s) := by
  have ho : o ≠ .run := by rintro rfl; simp [badPin] at hp
  have hs : start o s = .next (raiseWith .invalidPin (some o) .only 0 0 (.pin p) s) := by
    simp [start, ha, ho, hp]
  simp only [runOperation, hs, raiseWith_par]
  exact finish_done _ (by simp)

/-- A fault at the first micro-operation ends the operation there (R176). -/
theorem runOperation_raises_first {o : Instr} {mu : Micro} {L : List Micro} (ha : admits s.phase = true)
    (hp : badPin o = none) (hw : o = .run → cmdsWellFormed s.par.cmds = true)
    (hL : currentItem (launch o s) = mu :: L) (hm : perform mu (launch o s) = .raised s1)
    (hlen : 0 < opLength s.par o) (hs1 : s1.phase ≠ .busy) : runOperation o s = .next s1 := by
  have hs : start o s = .next (launch o s) := by
    unfold start
    rw [if_neg (by simp [ha]), if_neg, hp]
    rintro ⟨ho, h⟩
    simp [hw ho] at h
  have hms : microStep (launch o s) = .next s1 := by simp [microStep, hL, hm]
  obtain ⟨n, hn⟩ : ∃ n, opLength s.par o = n + 1 := ⟨_, (Nat.succ_pred_eq_of_pos hlen).symm⟩
  simp only [runOperation, hs, launch_par, hn, finish, launch_phase, if_true, hms, finish_done _ hs1]

/-! ### A whole operation -/

/-- A whole item, in terms of the labels of the program counter. -/
theorem finish_label (n : Nat) {o : Instr} {g : Stage} {ci : Nat} {L : List Micro} (hr : Ready s)
    (hL : itemMicros s.par o g ci = L) (hpos : 0 < L.length) (hm : ∀ m ∈ L, knownMicro s.par m) :
    finish (L.length + n) (relabel (some o) g ci 0 .busy s) =
      finish n (advance (relabel (some o) g ci (L.length - 1) .busy (effects L s))) := by
  have hc : currentItem (relabel (some o) g ci 0 .busy s) = L := hL
  have h := finish_item n (s := relabel (some o) g ci 0 .busy s) ⟨hr.wf, hr.valid, hr.mapped⟩ rfl rfl
    (by rw [hc]; exact hpos) (by rw [hc]; exact hm)
  rw [hc, effects_relabel hr hm] at h
  exact h

/-- Where the program counter goes from the last position of an item (R153). -/
theorem advance_label {o : Instr} {g : Stage} {ci k : Nat}
    (h : (itemMicros s.par o g ci).length ≤ k + 1) :
    advance (relabel (some o) g ci k .busy s) =
      match g with
      | .only => relabel (some o) .only ci k .done s
      | .setup =>
        if 0 < s.par.cmds.length then relabel (some o) .cmd 0 0 .busy s
        else relabel (some o) .teardown ci 0 .busy s
      | .cmd =>
        if ci + 1 < s.par.cmds.length then relabel (some o) .cmd (ci + 1) 0 .busy s
        else relabel (some o) .teardown ci 0 .busy s
      | .teardown => relabel (some o) .teardown ci k .done s := by
  have : ¬ k + 1 < (currentItem (relabel (some o) g ci k .busy s)).length := by
    show ¬ k + 1 < (itemMicros s.par o g ci).length
    omega
  unfold advance
  exact (if_neg this).trans (by cases g <;> rfl)

/-- An operation other than RUN that meets no fault: its micro-operations in order, the program counter at
the last of them, DONE (R153). -/
theorem runOperation_only {o : Instr} (ho : o ≠ .run) (ha : admits s.phase = true) (hp : badPin o = none)
    (hr : Ready s) :
    runOperation o s =
      .next (relabel (some o) .only 0 ((itemMicros s.par o .only 0).length - 1) .done
        (effects (itemMicros s.par o .only 0) s)) := by
  have hs : start o s = .next (relabel (some o) .only 0 0 .busy s) := by
    simp [start, ha, ho, hp, launch_eq]
  have hl : opLength s.par o = (itemMicros s.par o .only 0).length := by
    cases o <;> first | rfl | exact absurd rfl ho
  have hpos := itemMicros_only_pos ho s.par
  have hk := itemMicros_known s.par o .only 0 hp
  have f := effects_frame hr hk
  have h1 := finish_label 0 hr rfl hpos hk
  rw [advance_label (by rw [f.par]; omega)] at h1
  simp only [runOperation, hs]
  rw [show (relabel (some o) .only 0 0 .busy s).par = s.par from rfl, hl]
  exact h1

/-- The cells of RUN from index `ci` on, when no fault is met (R147). -/
theorem finish_cells (n : Nat) {rest : List Cell} :
    ∀ {s : State} {cell : Cell} {ci : Nat}, Ready s → cmdsWellFormed s.par.cmds = true →
      s.par.cmds.drop ci = cell :: rest →
      finish (((cell :: rest).map (fun c => (cellMicros s.par c).length)).sum + n)
          (relabel (some .run) .cmd ci 0 .busy s) =
        finish n (relabel (some .run) .teardown (s.par.cmds.length - 1) 0 .busy
          (effects ((cell :: rest).flatMap (cellMicros s.par)) s)) := by
  induction rest with
  | nil =>
    intro s cell ci hr hw hd
    have h1 := congrArg List.length hd
    have h2 := congrArg (·[0]?) hd
    simp only [List.length_drop, List.length_cons, List.length_nil, List.getElem?_drop,
      List.getElem?_cons_zero, Nat.add_zero] at h1 h2
    have hc : itemMicros s.par .run .cmd ci = cellMicros s.par cell := by
      simp [itemMicros, runMicros, h2]
    have hsome : (decodeCommand cell).isSome = true :=
      List.all_eq_true.1 hw cell (List.mem_of_getElem? h2)
    have hpos := cellMicros_length_pos s.par hsome
    have hkn := cellMicros_known s.par cell
    have f := effects_frame hr hkn
    have h := finish_label n hr hc hpos hkn
    rw [advance_label (by rw [f.par, hc]; omega)] at h
    simp only [f.par] at h
    rw [if_neg (by omega)] at h
    simpa [show s.par.cmds.length - 1 = ci by omega] using h
  | cons c2 rest ih =>
    intro s cell ci hr hw hd
    have h1 := congrArg List.length hd
    have h2 := congrArg (·[0]?) hd
    simp only [List.length_drop, List.length_cons, List.getElem?_drop, List.getElem?_cons_zero,
      Nat.add_zero] at h1 h2
    have hc : itemMicros s.par .run .cmd ci = cellMicros s.par cell := by
      simp [itemMicros, runMicros, h2]
    have hsome : (decodeCommand cell).isSome = true :=
      List.all_eq_true.1 hw cell (List.mem_of_getElem? h2)
    have hpos := cellMicros_length_pos s.par hsome
    have hkn := cellMicros_known s.par cell
    have f := effects_frame hr hkn
    have h := finish_label (((c2 :: rest).map (fun c => (cellMicros s.par c).length)).sum + n) hr hc hpos hkn
    rw [advance_label (by rw [f.par, hc]; omega)] at h
    simp only [f.par] at h
    rw [if_pos (by omega)] at h
    have h3 := ih (s := effects (cellMicros s.par cell) s) (cell := c2) (ci := ci + 1)
      (effects_ready hr hkn) (by rw [f.par]; exact hw)
      (by rw [f.par]; simpa [List.tail_drop] using congrArg List.tail hd)
    rw [f.par] at h3
    rw [List.map_cons, List.sum_cons, Nat.add_assoc, h, h3, List.flatMap_cons (x := cell), effects_append]

/-- All micro-operations of RUN in order (R147). -/
def runAllMicros (c : Params) : List Micro :=
  setupMicros c ++ c.cmds.flatMap (cellMicros c) ++ teardownMicros c

theorem flatMap_cells_known (c : Params) (cells : List Cell) :
    ∀ mu ∈ cells.flatMap (cellMicros c), knownMicro c mu := by
  intro mu hmu
  obtain ⟨cell, -, h⟩ := List.mem_flatMap.1 hmu
  exact cellMicros_known c cell mu h

theorem runAllMicros_known (c : Params) : ∀ mu ∈ runAllMicros c, knownMicro c mu := by
  simp only [runAllMicros, List.mem_append]
  rintro mu ((h | h) | h)
  · exact setupMicros_known c _ h
  · exact flatMap_cells_known c _ _ h
  · exact teardownMicros_known c _ h

/-- TEARDOWN at the end of RUN. -/
theorem finish_teardown (ci : Nat) (hr : Ready s) :
    finish 6 (relabel (some .run) .teardown ci 0 .busy s) =
      .next (relabel (some .run) .teardown ci 5 .done (effects (teardownMicros s.par) s)) := by
  have hk := teardownMicros_known s.par
  have h := finish_label 0 (o := .run) (g := .teardown) (ci := ci) (L := teardownMicros s.par) hr rfl
    (by simp) hk
  have f := effects_frame hr hk
  rw [advance_label (by simp [itemMicros, runMicros])] at h
  exact h

/-- RUN that meets no fault: SETUP, every command in order, TEARDOWN, the program counter at the last
micro-operation of TEARDOWN, DONE (R147, R153). -/
theorem runOperation_run (ha : admits s.phase = true) (hw : cmdsWellFormed s.par.cmds = true)
    (hr : Ready s) :
    runOperation .run s =
      .next (relabel (some .run) .teardown (s.par.cmds.length - 1) 5 .done
        (effects (runAllMicros s.par) s)) := by
  have hs : start .run s = .next (relabel (some .run) .setup 0 0 .busy s) := by
    simp [start, ha, hw, badPin, launch_eq]
  have hsu := setupMicros_known s.par
  have f := effects_frame hr hsu
  have hr2 := effects_ready hr hsu
  have hl : opLength s.par .run =
      9 + ((s.par.cmds.map (fun cell => (cellMicros s.par cell).length)).sum + 6) := by
    simp [opLength]; omega
  have h1 := finish_label (o := .run) (g := .setup) (ci := 0) (L := setupMicros s.par)
    ((s.par.cmds.map (fun cell => (cellMicros s.par cell).length)).sum + 6) hr rfl (by simp) hsu
  rw [advance_label (by simp [itemMicros, runMicros])] at h1
  simp only [f.par] at h1
  simp only [runOperation, hs]
  rw [show (relabel (some .run) .setup 0 0 .busy s).par = s.par from rfl, hl]
  refine h1.trans ?_
  cases hcm : s.par.cmds with
  | nil =>
    rw [if_neg (by simp)]
    have h2 := finish_teardown 0 hr2
    rw [f.par] at h2
    simpa [runAllMicros, hcm, effects_append] using h2
  | cons cell rest =>
    rw [if_pos (by simp), ← hcm]
    have h2 := finish_cells 6 (s := effects (setupMicros s.par) s) (cell := cell) (rest := rest) (ci := 0) hr2
      (by rw [f.par]; exact hw) (by rw [f.par, hcm]; rfl)
    have hce := flatMap_cells_known s.par (cell :: rest)
    have hce2 : ∀ mu ∈ (cell :: rest).flatMap (cellMicros s.par),
        knownMicro (effects (setupMicros s.par) s).par mu := by rw [f.par]; exact hce
    have f3 := effects_frame hr2 hce2
    have h3 := finish_teardown (s.par.cmds.length - 1) (effects_ready hr2 hce2)
    rw [f3.par, f.par] at h3
    rw [f.par, ← hcm] at h2
    rw [← hcm] at h3
    rw [h2, h3, runAllMicros, effects_append, effects_append]

end Sys2Proof.Machine
end

