-- ==== Sys2Proof/Laws/Effects.lean ====
section
/-! SUPPORT. What the micro-operation lists of the operations do to the registers and the trace when no
access fails (spec/40_gpio_controller.md R120, R122, R125; spec/41_serial_transmitter.md R141, R144, R145). -/

namespace Sys2Proof.Machine

variable {s : State}

/-! ### Bits of the operand computations -/

theorem levelWord_eq {p : Nat} (hp : p ≤ 27) : levelWord p = 1#32 <<< p := by
  rw [levelWord, levelBit, Config.levelBankPins, Nat.mod_eq_of_lt (by omega)]

theorem one_shift_getLsbD (p j : Nat) (hp : p < 32) : (1#32 <<< p).getLsbD j = decide (j = p) := by
  rw [BitVec.getLsbD_shiftLeft]
  by_cases h : j = p
  · subst h; simp [hp]
  · by_cases h2 : j < p
    · simp [h2, h]
    · have : (1#32).getLsbD (j - p) = false := by
        rw [BitVec.getLsbD_one]
        simp; omega
      simp [this, h]

theorem levelWord_getLsbD {p : Nat} (hp : p ≤ 27) (j : Nat) :
    (levelWord p).getLsbD j = decide (j = p) := by
  rw [levelWord_eq hp, one_shift_getLsbD p j (by omega)]

theorem pinBit_injective {p q : Nat} (hp : p < 32) (hq : q < 32) (h : 1#32 <<< p = 1#32 <<< q) : p = q := by
  have := congrArg (·.getLsbD p) h
  simpa [one_shift_getLsbD p p hp, one_shift_getLsbD q p hq] using this

theorem seven_shift_getLsbD (sh j : Nat) (hs : sh ≤ 27) :
    (0b111#32 <<< sh).getLsbD j = decide (sh ≤ j ∧ j < sh + 3) := by
  rw [BitVec.getLsbD_shiftLeft]
  by_cases h : j < sh
  · simp [h]
  · have h7 : ∀ n, (0b111#32).getLsbD n = decide (n < 3) := by
      intro n
      by_cases hn : n < 32
      · interval_cases n <;> rfl
      · rw [BitVec.getLsbD_of_ge _ _ (by omega)]
        symm
        simp
        omega
    rw [h7]
    by_cases h2 : j < sh + 3
    · simp [show j < 32 by omega, h2, show sh ≤ j by omega, h]; omega
    · simp [h2]; omega

/-- R125: the field at the shift is the code, every other bit is as before. -/
theorem insertField_getLsbD (v : Word) (c : BitVec 3) {sh : Nat} (hs : sh ≤ 27) (j : Nat) :
    (insertField v sh c).getLsbD j =
      if sh ≤ j ∧ j < sh + 3 then c.getLsbD (j - sh) else v.getLsbD j := by
  have hm : (clearMask sh).getLsbD j = (decide (j < 32) && !decide (sh ≤ j ∧ j < sh + 3)) := by
    rw [clearMask, BitVec.getLsbD_not, seven_shift_getLsbD sh j hs]
  rw [insertField, BitVec.getLsbD_or, BitVec.getLsbD_and, hm, BitVec.getLsbD_shiftLeft,
    BitVec.getLsbD_setWidth]
  by_cases h : sh ≤ j ∧ j < sh + 3
  · simp [h, show j < 32 by omega, show ¬ j < sh by omega, show j - sh < 32 by omega]
  · have hc : j < sh ∨ c.getLsbD (j - sh) = false := by
      by_cases h2 : j < sh
      · exact .inl h2
      · exact .inr (BitVec.getLsbD_of_ge c _ (by omega))
    have hd : decide (sh ≤ j ∧ j < sh + 3) = false := decide_eq_false h
    rw [if_neg h, hd]
    by_cases h3 : j < 32
    · rcases hc with h4 | h4
      · rw [decide_eq_true h3, decide_eq_true h4]; simp
      · rw [decide_eq_true h3, h4]; simp
    · rw [decide_eq_false h3, BitVec.getLsbD_of_ge v j (by omega)]; simp

theorem fieldShift_le (p : Nat) : fieldShift p ≤ 27 := by
  simp [fieldShift, Config.fselPins, Config.fselFieldBits]; omega

/-- R121, R125: the inserted field reads back. -/
theorem fieldOf_insertField (v : Word) (c : BitVec 3) {sh : Nat} (hs : sh ≤ 27) :
    fieldOf (insertField v sh c) sh = c := by
  apply BitVec.eq_of_getLsbD_eq
  intro i hi
  rw [fieldOf, BitVec.getLsbD_extractLsb', insertField_getLsbD v c hs]
  simp [hi]

/-- Two fields of one register that do not overlap. -/
theorem fieldOf_insertField_of_ne (v : Word) (c : BitVec 3) {sh sh' : Nat} (hs : sh ≤ 27)
    (h : sh + 3 ≤ sh' ∨ sh' + 3 ≤ sh) : fieldOf (insertField v sh c) sh' = fieldOf v sh' := by
  apply BitVec.eq_of_getLsbD_eq
  intro i hi
  rw [fieldOf, fieldOf, BitVec.getLsbD_extractLsb', BitVec.getLsbD_extractLsb', insertField_getLsbD v c hs,
    if_neg (by omega)]

/-! ### The two operations of the GPIO controller -/

/-- The read-modify-write of SET_PIN_MODE (R120). -/
theorem effects_setPinMode (hr : Ready s) {p : Nat} (hp : p ≤ 27) (m : PinMode) :
    effects (setPinModeMicros s.par p m) s =
      { s with
        t := s.fsel[fselIndex p]'(fselIndex_valid hp),
        fsel := s.fsel.set (fselIndex p) (insertField (s.fsel[fselIndex p]'(fselIndex_valid hp))
          (fieldShift p) (modeCodeOf s.par.modeCode m)) (fselIndex_valid hp),
        trace := s.trace ++ [.read (fselIndex p) (s.fsel[fselIndex p]'(fselIndex_valid hp)),
          .write (fselIndex p) (insertField (s.fsel[fselIndex p]'(fselIndex_valid hp)) (fieldShift p)
            (modeCodeOf s.par.modeCode m))] } := by
  have hi := fselIndex_valid hp
  rw [setPinModeMicros, effects_cons, effects_cons, effects_nil, effect_rd hr.valid hi,
    effect_wr_fsel (by exact hr.valid) hi]
  simp [emit, writeT, writeFsel, evalExpr]

/-- The level write of SET_PIN_LEVEL (R122). -/
theorem effects_setPinLevel (hr : Ready s) {p : Nat} (hp : p ≤ 27) (l : Bool) :
    effects (setPinLevelMicros s.par p l) s =
      { s with
        lat := if l then s.lat ||| levelWord p else s.lat &&& ~~~levelWord p,
        trace := s.trace ++ [.write (if l then s.par.gpset else s.par.gpclr) (levelWord p)] } := by
  rw [setPinLevelMicros, effects_cons, effects_nil, levelIndex_valid _ hp]
  cases l
  · simp only [Bool.false_eq_true, if_false, effect_wr_clear hr]; rfl
  · simp only [if_true, effect_wr_set hr]; rfl

/-! ### Changing only the latch and the trace -/

/-- The state with another latch and a longer trace. -/
def relatch (v : Word) (ev : List Event) (s : State) : State := { s with lat := v, trace := s.trace ++ ev }

theorem relatch_ready {v : Word} {ev : List Event} (hr : Ready s) : Ready (relatch v ev s) :=
  ⟨hr.wf, hr.valid, hr.mapped⟩

theorem relatch_relatch (v v' : Word) (ev ev' : List Event) (s : State) :
    relatch v' ev' (relatch v ev s) = relatch v' (ev ++ ev') s := by
  simp [relatch]

/-- The latch after a level write. -/
def latchTo (p : Nat) (l : Bool) (v : Word) : Word := if l then v ||| levelWord p else v &&& ~~~levelWord p

theorem latchTo_getLsbD {p : Nat} (hp : p ≤ 27) (l : Bool) (v : Word) (j : Nat) :
    (latchTo p l v).getLsbD j = if j = p then l else v.getLsbD j := by
  cases l <;> by_cases h : j = p <;> simp [latchTo, levelWord_getLsbD hp, h]
  · intro hj
    exact BitVec.lt_of_getLsbD hj

/-- The event of a level write. -/
def levelEvent (c : Params) (p : Nat) (l : Bool) : Event :=
  .write (if l then c.gpset else c.gpclr) (levelWord p)

theorem relatch_self (s : State) : relatch s.lat [] s = s := by simp [relatch]

theorem effects_level (hr : Ready s) (v : Word) (ev : List Event) {p : Nat} (hp : p ≤ 27) (l : Bool) :
    effects (setPinLevelMicros s.par p l) (relatch v ev s) =
      relatch (latchTo p l v) (ev ++ [levelEvent s.par p l]) s :=
  (effects_setPinLevel (relatch_ready hr) hp l).trans (relatch_relatch _ _ _ _ s)

theorem effects_dly (n : Nat) (v : Word) (ev : List Event) :
    effects [.dly n] (relatch v ev s) = relatch v (ev ++ [.delay n]) s :=
  relatch_relatch v v ev [.delay n] s

/-- The events of one bit (R141). -/
def bitEvents (c : Params) (b : Bool) : List Event :=
  [levelEvent c c.pinData b, levelEvent c c.pinClk false, .delay 100, levelEvent c c.pinClk true, .delay 100]

/-- The latch after one bit (R141). -/
def bitLatch (c : Params) (v : Word) (b : Bool) : Word :=
  latchTo c.pinClk true (latchTo c.pinClk false (latchTo c.pinData b v))

theorem effects_bit (hr : Ready s) (v : Word) (ev : List Event) (b : Bool) :
    effects (bitMicros s.par b) (relatch v ev s) =
      relatch (bitLatch s.par v b) (ev ++ bitEvents s.par b) s := by
  rw [bitMicros, effects_append, effects_append, effects_append, effects_append,
    effects_level hr _ _ (pin_le _), effects_level hr _ _ (pin_le _), effects_dly,
    effects_level hr _ _ (pin_le _), effects_dly]
  simp [bitLatch, bitEvents, Config.tHalf]

theorem effects_bits (hr : Ready s) (bs : List Bool) : ∀ (v : Word) (ev : List Event),
    effects (bs.flatMap (bitMicros s.par)) (relatch v ev s) =
      relatch (bs.foldl (bitLatch s.par) v) (ev ++ bs.flatMap (bitEvents s.par)) s := by
  induction bs with
  | nil => intro v ev; simp
  | cons b bs ih =>
    intro v ev
    rw [List.flatMap_cons, effects_append, effects_bit hr, ih]
    simp

/-- After at least one bit the clock is high, the data pin holds the last bit, the rest is as before. -/
theorem bitsLatch_getLsbD (c : Params) (bs : List Bool) (b : Bool) (v : Word)
    (j : Nat) :
    ((bs ++ [b]).foldl (bitLatch c) v).getLsbD j =
      if j = c.pinClk.val then true else if j = c.pinData.val then b else v.getLsbD j := by
  have step : ∀ (u : Word) (x : Bool), (bitLatch c u x).getLsbD j =
      if j = c.pinClk.val then true else if j = c.pinData.val then x else u.getLsbD j := by
    intro u x
    simp only [bitLatch, latchTo_getLsbD (pin_le _)]
    split <;> simp_all
  rw [List.foldl_append, List.foldl_cons, List.foldl_nil, step]
  by_cases h1 : j = c.pinClk.val
  · simp [h1]
  · by_cases h2 : j = c.pinData.val
    · rw [if_neg h1, if_pos h2, if_neg h1, if_pos h2]
    · rw [if_neg h1, if_neg h2, if_neg h1, if_neg h2]
      induction bs generalizing v with
      | nil => rfl
      | cons x bs ih => rw [List.foldl_cons, ih, step, if_neg h1, if_neg h2]

/-- The events of a word (R141). -/
def wordEvents (c : Params) (w : BitVec 9) : List Event :=
  [levelEvent c c.pinCs false] ++ (bitsSent w).flatMap (bitEvents c) ++
  [levelEvent c c.pinData false, levelEvent c c.pinCs true]

/-- The latch after a word (R141). -/
def wordLatch (c : Params) (w : BitVec 9) (v : Word) : Word :=
  latchTo c.pinCs true (latchTo c.pinData false ((bitsSent w).foldl (bitLatch c) (latchTo c.pinCs false v)))

theorem effects_xfer (hr : Ready s) (v : Word) (ev : List Event) (w : BitVec 9) :
    effects (xferMicros s.par w) (relatch v ev s) =
      relatch (wordLatch s.par w v) (ev ++ wordEvents s.par w) s := by
  rw [xferMicros, effects_append, effects_append, effects_append, effects_level hr _ _ (pin_le _),
    effects_bits hr, effects_level hr _ _ (pin_le _), effects_level hr _ _ (pin_le _)]
  simp [wordLatch, wordEvents]

/-- After a word the clock is high, the data pin low, chip-select high, the rest as before (R157). -/
theorem wordLatch_getLsbD (c : Params) (hc : c.wf) (w : BitVec 9) (v : Word) (j : Nat) :
    (wordLatch c w v).getLsbD j =
      if j = c.pinCs.val then true else if j = c.pinData.val then false
      else if j = c.pinClk.val then true else v.getLsbD j := by
  obtain ⟨⟨h1, h2, h3⟩, -⟩ := hc
  have hb : bitsSent w = ((List.range 8).map (fun i => w.getLsbD (8 - i))) ++ [w.getLsbD 0] := rfl
  rw [wordLatch, latchTo_getLsbD (pin_le _), latchTo_getLsbD (pin_le _), hb, bitsLatch_getLsbD c,
    latchTo_getLsbD (pin_le _)]
  split
  · rfl
  · split
    · rfl
    · simp_all

end Sys2Proof.Machine
end

