-- ==== Sys2Proof/Laws/Encoding.lean ====
section
/-! SUPPORT. Masks as bit fields: what each mask and match of the encoding tables says of the bits of a word
(spec/30_encoding.md R93, R94). -/

namespace Sys2Proof

/-- A word is its high part followed by its low part. -/
theorem split_at_9 (w : Cell) : w.extractLsb' 9 7 ++ w.extractLsb' 0 9 = w := by
  ext i hi
  simp only [BitVec.getElem_append, BitVec.getElem_extractLsb']
  split
  · simp_all
  · rw [show 9 + (i - 9) = i by omega, BitVec.getLsbD_eq_getElem hi]

/-- A word is its high part followed by its low part. -/
theorem split_at_11 (w : Cell) : w.extractLsb' 11 5 ++ w.extractLsb' 0 11 = w := by
  ext i hi
  simp only [BitVec.getElem_append, BitVec.getElem_extractLsb']
  split
  · simp_all
  · rw [show 11 + (i - 11) = i by omega, BitVec.getLsbD_eq_getElem hi]

/-- A mask of ones above zeros picks the high part out of a word. -/
theorem masked_eq_iff {n m : Nat} (x v : BitVec n) (y : BitVec m) :
    (x ++ y) &&& (BitVec.allOnes n ++ 0#m) = v ++ 0#m ↔ x = v := by
  have h : (x ++ y) &&& (BitVec.allOnes n ++ 0#m) = x ++ 0#m := by
    ext i hi
    simp only [BitVec.getElem_and, BitVec.getElem_append]
    split <;> simp
  rw [h]
  constructor
  · intro e
    ext i hi
    have := congrArg (·.getLsbD (m + i)) e
    simpa [BitVec.getLsbD_append, hi] using this
  · rintro rfl
    rfl

/-- The high part of two parts. -/
theorem high_of_two {n m : Nat} (x : BitVec n) (y : BitVec m) : (x ++ y).extractLsb' m n = x := by
  ext i hi
  simp [BitVec.getLsbD_append, hi]

/-- The high part of three parts. -/
theorem high_of_three {n m k : Nat} (x : BitVec n) (y : BitVec m) (z : BitVec k) :
    (x ++ y ++ z).extractLsb' (k + m) n = x := by
  ext i hi
  simp only [BitVec.getElem_extractLsb', BitVec.getLsbD_append]
  rw [if_neg (by omega), if_neg (by omega), show k + m + i - k - m = i by omega,
    BitVec.getLsbD_eq_getElem hi]

/-- The XFER row of R93: mask `0xFE00`, match 0. -/
theorem xfer_mask (w : Cell) : w &&& 0xFE00#16 = 0x0000#16 ↔ w.extractLsb' 9 7 = 0#7 := by
  have h := masked_eq_iff (w.extractLsb' 9 7) 0#7 (w.extractLsb' 0 9)
  rwa [split_at_9] at h

/-- The SET_PIN_LEVEL row of R94: mask `0xFE00`, match `0x5000`. -/
theorem setPinLevel_mask (w : Cell) : w &&& 0xFE00#16 = 0x5000#16 ↔ w.extractLsb' 9 7 = 0b0101000#7 := by
  have h := masked_eq_iff (w.extractLsb' 9 7) 0b0101000#7 (w.extractLsb' 0 9)
  rwa [split_at_9] at h

/-- The SET_PIN_MODE row of R94: mask `0xF800`, match `0x4000`. -/
theorem setPinMode_mask (w : Cell) : w &&& 0xF800#16 = 0x4000#16 ↔ w.extractLsb' 11 5 = 0b01000#5 := by
  have h := masked_eq_iff (w.extractLsb' 11 5) 0b01000#5 (w.extractLsb' 0 11)
  rwa [split_at_11] at h

/-- The rows with mask `0xFFFF`: the whole word. -/
theorem whole_mask (w v : Cell) : w &&& 0xFFFF#16 = v ↔ w = v := by
  rw [show (0xFFFF#16 : Cell) = BitVec.allOnes 16 by decide, BitVec.and_allOnes]

/-- The selector names the mode whose selector it is (R96). -/
theorem selector_modeOfSelector : ∀ s : BitVec 3, selector (modeOfSelector s) = s := by decide

/-- The mode of a mode's selector is that mode (R96). -/
theorem modeOfSelector_selector (m : PinMode) : modeOfSelector (selector m) = m := by cases m <;> rfl

end Sys2Proof
end

