-- ==== Sys2Proof/Laws/PerInstr.lean ====
section
/-! SUPPORT. Facts about every instruction as syntax, one lemma per constructor: its word carries the mask and
match of its row of the encoding tables (spec/30_encoding.md R93, R94). -/

namespace Sys2Proof.Laws.Row

/-- The mask of the instruction's row. -/
def mask : Instr → Cell
  | .xfer _ => 0xFE00#16
  | .wait => 0xFFFF#16
  | .setPinMode _ _ => 0xF800#16
  | .setPinLevel _ _ => 0xFE00#16
  | .setup => 0xFFFF#16
  | .teardown => 0xFFFF#16
  | .run => 0xFFFF#16

/-- The match of the instruction's row. -/
def pattern : Instr → Cell
  | .xfer _ => 0x0000#16
  | .wait => 0x8000#16
  | .setPinMode _ _ => 0x4000#16
  | .setPinLevel _ _ => 0x5000#16
  | .setup => 0xC000#16
  | .teardown => 0xD000#16
  | .run => 0xE000#16

/-- The word of the instruction has the fixed bits of its row. -/
def Statement (i : Instr) : Prop := encode i &&& mask i = pattern i

theorem xfer (w : BitVec 9) : Statement (.xfer w) := (xfer_mask _).2 (high_of_two 0#7 w)

theorem wait : Statement .wait := by unfold Statement; decide

theorem setPinMode (p : Nat) (m : PinMode) : Statement (.setPinMode p m) :=
  (setPinMode_mask _).2 (high_of_three 0b01000#5 (selector m) (BitVec.ofNat 8 p))

theorem setPinLevel (p : Nat) (l : Bool) : Statement (.setPinLevel p l) :=
  (setPinLevel_mask _).2 (high_of_three 0b0101000#7 (BitVec.ofBool l) (BitVec.ofNat 8 p))

theorem setup : Statement .setup := by unfold Statement; decide

theorem teardown : Statement .teardown := by unfold Statement; decide

theorem run : Statement .run := by unfold Statement; decide

end Sys2Proof.Laws.Row
end

