-- ==== Sys2Proof/Tests/Slice0.lean ====
section
/-! SUPPORT. The model's own tests, with results taken from the spec's vectors (spec/95_test_vectors.md), and one
witness for the hypotheses of each statement. -/

namespace Sys2Proof.Tests

open Sys2Proof.Machine Sys2Proof.Expected

set_option maxRecDepth 20000

/-! ### Helpers -/

/-- A step answers a next state that meets `p`. -/
def nextWith (r : Result) (p : State → Bool) : Bool :=
  match r with
  | .next s => p s
  | .fault _ => false
  | .refused _ => false

/-- A step is refused with exactly this reason. -/
def refusedWith (r : Result) (why : Refusal) : Bool :=
  match r with
  | .next _ => false
  | .fault _ => false
  | .refused w => w == why

/-- A step ends in exactly this platform fault. -/
def faultedWith (r : Result) (why : Fault) : Bool :=
  match r with
  | .next _ => false
  | .fault w => w == why
  | .refused _ => false

/-- What `nextWith` says. -/
theorem nextWith_spec {r : Result} {p : State → Bool} (h : nextWith r p = true) :
    ∃ t, r = .next t ∧ p t = true := by
  unfold nextWith at h
  split at h
  · exact ⟨_, rfl, h⟩
  · cases h
  · cases h

/-- "Start common" of the spec's programs, with all registers zero. -/
def opened : State := { State.reset with rsValid := true, page := some .gpioDevice }

/-- The same after an operation has ended. -/
def ranWait : State := { opened with phase := .done, op := some .wait }

/-- The start of V42: pins 18, 26, 27 in Alt3, clock and data latch bits 1. -/
def dirty : State :=
  { opened with
    fsel := ((Vector.replicate 7 0#32).set 1 0x07000000#32).set 2 0x00FC0000#32, lat := 0x0C000000#32 }

/-- The end state of V40: the three pins in Output mode at their idle levels. -/
def idleLevels : State :=
  { opened with
    fsel := ((Vector.replicate 7 0#32).set 1 0x01000000#32).set 2 0x00240000#32, lat := 0x00040000#32 }

/-- A state with a command sequence. -/
def withCmds (cells : List Cell) (s : State) : State := { s with par := { s.par with cmds := cells } }

/-- A state with host events to come. -/
def withInputs (es : List HostEvent) (s : State) : State := { s with inputs := es }

/-- A state after a fault. -/
def abortedState : State :=
  { opened with
    phase := .aborted, fault := some ⟨.invalidPin, 1, some (.setPinMode 28 .output), .only, 0, 0, .pin 28⟩,
    trace := [.fault ⟨.invalidPin, 1, some (.setPinMode 28 .output), .only, 0, 0, .pin 28⟩] }

/-- The state of RUN at a stage, a command index and a micro-operation. -/
def inRun (cells : List Cell) (stage : Stage) (ci k : Nat) : State :=
  { withCmds cells opened with phase := .busy, op := some .run, stage := stage, ci := ci, k := k }

/-- The five events of one bit, V30's notation with the default pins. -/
def bitEvents (b : Bool) : List Event :=
  [.write (if b then 7 else 10) 0x04000000#32, .write 10 0x08000000#32, .delay 100,
   .write 7 0x08000000#32, .delay 100]

/-! ### Well-formedness -/

/-- A pin that does not fit eight bits has no word (R94). -/
theorem test_wf_refuses_wide_mode_pin : (Instr.setPinMode 256 .input).wf = false := by decide
theorem test_wf_refuses_wide_level_pin : (Instr.setPinLevel 256 true).wf = false := by decide
theorem test_wf_takes_pin_255 : (Instr.setPinMode 255 .alt5).wf = true := by decide

/-- The default parameters meet R8. -/
theorem test_params_family : Params.family.wf := by decide
theorem test_params_same_pins : ¬ ({ Params.family with pinData := 27 } : Params).wf := by decide
theorem test_params_same_code :
    ¬ ({ Params.family with modeCode := { Params.family.modeCode with alt5 := 0 } } : Params).wf := by decide
theorem test_params_gpset_low : ¬ ({ Params.family with gpset := 6 } : Params).wf := by decide
theorem test_params_gpclr_high : ¬ ({ Params.family with gpclr := 1024 } : Params).wf := by decide
theorem test_params_same_level_register : ¬ ({ Params.family with gpclr := 7 } : Params).wf := by decide

/-! ### Decoding: words written out from the patterns of R93 and R94 -/

theorem test_decode_xfer : decode 0b0000000_1_00000001#16 = .instr (.xfer 0b100000001#9) := by decide
theorem test_decode_wait : decode 0b1000000000000000#16 = .instr .wait := by decide
theorem test_decode_setPinMode : decode 0b01000_010_00001001#16 = .instr (.setPinMode 9 .alt0) := by decide
theorem test_decode_setPinLevel : decode 0b0101000_1_00010010#16 = .instr (.setPinLevel 18 true) := by decide
theorem test_decode_setup : decode 0b1100000000000000#16 = .instr .setup := by decide
theorem test_decode_teardown : decode 0b1101000000000000#16 = .instr .teardown := by decide
theorem test_decode_run : decode 0b1110000000000000#16 = .instr .run := by decide

/-- V5E: the reserved words of the list. -/
theorem test_decode_reserved :
    [0xF000, 0x1000, 0x2000, 0x3000, 0x6000, 0x7000, 0x9000, 0xA000, 0xB000, 0xC001, 0xFFFF].all
      (fun w => decodeTableWord 16 w == none) = true := by decide

/-! ### One step on a vector of the spec -/

/-- V2: the top field, bits 31:30 kept. -/
theorem test_setPinMode_V2 :
    nextWith (step ({ opened with fsel := (Vector.replicate 7 0#32).set 0 0xFFFFFFFF#32 }.withFetchWord 16 0x4209))
      (fun t => t.trace == [.read 0 0xFFFFFFFF#32, .write 0 0xE7FFFFFF#32] && t.fsel[0] == 0xE7FFFFFF#32 &&
        t.phase == .done) = true := by decide

/-- V16: UNMAP between the read and the write. -/
theorem test_setPinMode_V16 :
    nextWith (step ({ opened with unmapIn := some 1 }.withFetchWord 16 0x411B))
      (fun t => t.trace == [.read 2 0#32, .fault ⟨.registerSpaceInvalid, 2, some (.setPinMode 27 .output), .only,
        0, 1, .access 2 .write⟩] && t.k == 1 && t.phase == .aborted && t.fsel[2] == 0#32) = true := by decide

/-- V24: a clear touches only its bit. -/
theorem test_setPinLevel_V24 :
    nextWith (step ({ opened with lat := 0x0C040000#32 }.withFetchWord 16 0x501B))
      (fun t => t.trace == [.write 10 0x08000000#32] && t.lat == 0x04040000#32 && t.phase == .done) = true := by
  decide

/-- V27: a bad pin faults before any access. -/
theorem test_setPinLevel_V27 :
    nextWith (step (opened.withFetchWord 16 0x511C))
      (fun t => t.trace == [.fault ⟨.invalidPin, 1, some (.setPinLevel 28 true), .only, 0, 0, .pin 28⟩] &&
        t.phase == .aborted && t.op == none) = true := by decide

/-- V31: the bits of `0x0A5` in the order sent. -/
theorem test_xfer_V31 :
    nextWith (step (idleLevels.withFetchWord 16 0x00A5))
      (fun t => t.trace == [.write 10 0x00040000#32] ++
        [false, true, false, true, false, false, true, false, true].flatMap bitEvents ++
        [.write 10 0x04000000#32, .write 7 0x00040000#32] && t.lat == 0x08040000#32) = true := by decide

/-- The corner of section 2.3: XFER on an invalid register space. -/
theorem test_xfer_invalid_space :
    nextWith (step (State.reset.withFetchWord 16 0x01FF))
      (fun t => t.trace == [.fault ⟨.registerSpaceInvalid, 2, some (.xfer 0x1FF#9), .only, 0, 0,
        .access 10 .write⟩] && t.phase == .aborted) = true := by decide

/-- V36: WAIT completes with the register space invalid. -/
theorem test_wait_V36 :
    nextWith (step (State.reset.withFetchWord 16 0x8000))
      (fun t => t.trace == [.delay 120000] && t.phase == .done) = true := by decide

/-- V42: SETUP from a dirty start. -/
theorem test_setup_V42 :
    nextWith (step (dirty.withFetchWord 16 0xC000))
      (fun t => t.trace == [.read 2 0x00FC0000#32, .write 2 0x003C0000#32, .read 2 0x003C0000#32,
        .write 2 0x00240000#32, .read 1 0x07000000#32, .write 1 0x01000000#32, .write 7 0x00040000#32,
        .write 10 0x08000000#32, .write 10 0x04000000#32] && t.lat == 0x00040000#32) = true := by decide

/-- V41: TEARDOWN from the end state of V40. -/
theorem test_teardown_V41 :
    nextWith (step (idleLevels.withFetchWord 16 0xD000))
      (fun t => t.trace == [.read 2 0x00240000#32, .write 2 0x00040000#32, .read 2 0x00040000#32,
        .write 2 0#32, .read 1 0x01000000#32, .write 1 0#32] && t.lat == 0x00040000#32 &&
        wire t == ⟨.released, .released, .released⟩) = true := by decide

/-- P1: one word inside RUN. -/
theorem test_run_P1 :
    nextWith (step ((withCmds [0x01FF#16] opened).withFetchWord 16 0xE000))
      (fun t => t.trace.length == 63 && t.trace.countP isWrite == 39 && nominalDuration t.trace == 1800 &&
        t.lat == 0x08040000#32 && t.phase == .done && t.stage == .teardown && t.k == 5 &&
        t.trace[10]? == some (.write 7 0x04000000#32)) = true := by decide

/-- P5: UNMAP after the 20th step of RUN. -/
theorem test_run_P5 :
    nextWith (step ((withCmds [0x0155#16] { opened with unmapIn := some 20 }).withFetchWord 16 0xE000))
      (fun t => t.trace.length == 21 && t.fault == some ⟨.registerSpaceInvalid, 2, some .run, .cmd, 0, 11,
        .access 7 .write⟩ && t.k == 11 && t.lat == 0x08000000#32 && t.phase == .aborted) = true := by decide

/-- V72 and V73: several bits in one write of SET. -/
theorem test_host_write_V73 :
    nextWith (step (withInputs [.memWrite 7 0x0C000000#32] opened))
      (fun t => t.lat == 0x0C000000#32 && t.trace == [.write 7 0x0C000000#32]) = true := by decide

/-- V79: a reserved cell refuses RUN as a whole. -/
theorem test_run_V79 :
    refusedWith (step ((withCmds [0x01FF#16, 0x0200#16] opened).withFetchWord 16 0xE000)) .illFormedCommands =
      true := by decide

/-- V67 and V68: the resolver with default cell sizes, and a cell width outside one and two. -/
theorem test_open_V67 :
    nextWith (step (withInputs [.openSpace ⟨true, .absent, .usable, none, none, none,
      some [0, 0, 0, 0, 0x7e, 0, 0, 0, 0, 0, 0, 4, 0x7e, 0, 0, 0, 0x01, 0x80, 0, 0]⟩] State.reset))
      (fun t => t.rsValid && t.page == some (.physical 0x47e200000#64)) = true := by decide

theorem test_open_V68 :
    faultedWith (step (withInputs [.openSpace ⟨true, .absent, .usable, none, some [0, 0, 0, 3], none, some []⟩]
      State.reset)) .metadataParseError = true := by decide

/-! ### Witnesses: the hypotheses of each statement are met

Each names the statement it belongs to; one line of the conjunction for each clause, at the values where the
clauses meet. -/

/-- An operation ends in a next state; `decide` runs it. -/
def answers (r : Result) : Bool := nextWith r (fun _ => true)

theorem answers_spec {r : Result} (h : answers r = true) : ∃ t, r = .next t := by
  obtain ⟨t, h, -⟩ := nextWith_spec h
  exact ⟨t, h⟩

theorem opened_clear : clear opened := ⟨by decide, rfl, rfl⟩
theorem dirty_clear : clear dirty := ⟨by decide, rfl, rfl⟩
theorem idleLevels_clear : clear idleLevels := ⟨by decide, rfl, rfl⟩
theorem ranWait_clear : clear ranWait := ⟨by decide, rfl, rfl⟩

/-- Both phases that admit an operation are met by a clear state. -/
theorem witness_admitted : (opened.phase = .idle ∧ clear opened) ∧ (ranWait.phase = .done ∧ clear ranWait) :=
  ⟨⟨rfl, opened_clear⟩, ⟨rfl, ranWait_clear⟩⟩

theorem witness_DecodeOfEncode :
    (Instr.setPinMode 255 .alt5).wf = true ∧ (Instr.setPinLevel 0 false).wf = true ∧
    (Instr.xfer 0x1FF#9).wf = true := by decide

theorem witness_EncodeOfDecode : decode 0x47FF#16 = .instr (.setPinMode 255 .alt5) := by decide

theorem witness_ReservedWordsExactly :
    decode 0x0200#16 = .invalid .xferHighBits ∧ decode 0x1000#16 = .invalid .opcode ∧
    decode 0x4800#16 = .invalid .modeBit11 ∧ decode 0x5200#16 = .invalid .levelHighBits ∧
    decode 0x8001#16 = .invalid .lowBits ∧ (withInputs [.call 0x0200#16] opened).phase ≠ .busy := by decide

theorem witness_FieldValueNamesOneMode : Params.family.wf := by decide

theorem witness_StepRunsTheOperation :
    (withInputs [.call 0x411B#16] opened).phase ≠ .busy ∧
    decode 0x411B#16 = .instr (.setPinMode 27 .output) := by decide

/-- Pins 27 and 28, an ill-formed and a well-formed CMDS, ABORTED. -/
theorem witness_StartChecksInOrder :
    abortedState.phase = .aborted ∧ opened.phase ≠ .busy ∧ opened.phase ≠ .aborted ∧
    decode 0x411B#16 = .instr (.setPinMode 27 .output) ∧ decode 0x411C#16 = .instr (.setPinMode 28 .output) ∧
    decode 0x511B#16 = .instr (.setPinLevel 27 true) ∧ decode 0x511C#16 = .instr (.setPinLevel 28 true) ∧
    decode 0xE000#16 = .instr .run ∧ decodeCommand 0xC000#16 = none ∧ decodeCommand 0x8000#16 ≠ none := by
  decide

/-- Ill-formed by a reserved cell and by a format H word; well formed; empty. -/
theorem witness_RunRefusedExactlyWhenIllFormed :
    refusedWith (exec .run (withCmds [0x0200#16] opened)) .illFormedCommands = true ∧
    refusedWith (exec .run (withCmds [0x411B#16] opened)) .illFormedCommands = true ∧
    answers (exec .run (withCmds [0x8000#16] opened)) = true ∧ answers (exec .run opened) = true := by decide

/-- The first and the last micro-operation of each kind of item: SETUP before a command and before TEARDOWN,
a command that is not the last and the last, TEARDOWN, and a single operation. -/
theorem witness_SequencerStep :
    (itemMicros opened.par .run .setup 0)[0]? = some (.rd 2) ∧
    (itemMicros opened.par .run .setup 0).length = 9 ∧
    (itemMicros opened.par .run .setup 0)[8]? = some (.wr 10 (.const 0x04000000#32)) ∧
    (itemMicros (inRun [0x8000#16, 0x01FF#16] .cmd 0 0).par .run .cmd 0).length = 1 ∧
    (itemMicros (inRun [0x8000#16, 0x01FF#16] .cmd 0 0).par .run .cmd 0)[0]? = some (.dly 120000) ∧
    (itemMicros (inRun [0x8000#16, 0x01FF#16] .cmd 1 47).par .run .cmd 1).length = 48 ∧
    (itemMicros opened.par .run .teardown 0).length = 6 ∧ (itemMicros opened.par .wait .only 0).length = 1 := by
  decide

/-- The last micro-operation of each stage is performed, and the program counter moves as R153 says. -/
theorem witness_SequencerStep_moves :
    nextWith (step (inRun [0x8000#16] .setup 0 8)) (fun t => t.stage == .cmd && t.ci == 0 && t.k == 0) = true ∧
    nextWith (step (inRun [] .setup 0 8)) (fun t => t.stage == .teardown && t.k == 0) = true ∧
    nextWith (step (inRun [0x8000#16, 0x8000#16] .cmd 0 0)) (fun t => t.stage == .cmd && t.ci == 1) = true ∧
    nextWith (step (inRun [0x8000#16, 0x8000#16] .cmd 1 0)) (fun t => t.stage == .teardown && t.k == 0) = true ∧
    nextWith (step (inRun [] .teardown 0 5)) (fun t => t.phase == .done) = true ∧
    nextWith (step { inRun [] .setup 0 3 with rsValid := false }) (fun t => t.phase == .aborted && t.k == 3) =
      true := by decide

theorem witness_MicroOperationEffects :
    opened.rsValid = true ∧ opened.par.wf ∧ opened.par.gpset = 7 ∧ opened.par.gpclr = 10 := by decide

theorem witness_CallIsStartThenSteps :
    opened.phase ≠ .busy ∧ decode 0xC000#16 = .instr .setup ∧ opLength opened.par .setup ≤ 9 := by decide

theorem witness_NothingHappensUnasked : opened.phase ≠ .busy ∧ opened.inputs = [] := by decide

/-- The last valid pin and the first invalid one; the register space valid, invalid, and lost in between. -/
theorem witness_SetPinModeEffect :
    27 < 28 ∧ 27 ≤ 27 ∧ State.reset.rsValid = false ∧ opened.rsValid = true ∧ opened.unmapIn = none ∧
    ({ opened with unmapIn := some 1 } : State).unmapIn = some 1 := by decide

theorem witness_SetPinModePostcondition :
    opened.phase = .idle ∧ opened.rsValid = true ∧ opened.unmapIn = none := by decide

theorem witness_SetPinLevelEffect :
    opened.phase = .idle ∧ opened.par.wf ∧ 27 < 28 ∧ 27 ≤ 27 ∧ State.reset.rsValid = false ∧
    State.reset.par.wf ∧ opened.rsValid = true ∧ opened.unmapIn = none := by decide

theorem witness_SetPinLevelPostcondition :
    opened.phase = .idle ∧ opened.par.wf ∧ opened.rsValid = true ∧ opened.unmapIn = none ∧
    pinField idleLevels 27 = modeCodeOf idleLevels.par.modeCode .output := by decide

/-- The second clause, an invalid register space. -/
theorem witness_XferEffect_invalid_space :
    State.reset.phase = .idle ∧ State.reset.par.wf ∧ State.reset.rsValid = false := by decide

/-- The first clause; also of XferCounts, XferMinimumIntervals, SetupEffect, TeardownEffect, LevelsBetweenOperations. -/
theorem witness_XferEffect : (dirty.phase = .idle ∨ dirty.phase = .done) ∧ clear dirty :=
  ⟨.inl rfl, dirty_clear⟩

theorem witness_WaitEffect : State.reset.phase = .idle ∧ State.reset.unmapIn = none := by decide

/-- Also of RunCounts, TwoRunsSameWritesIff and ExitStatusAfterRun. -/
theorem witness_RunEffect :
    clear (withCmds [0x01FF#16, 0x8000#16] dirty) ∧
    cmdsWellFormed (withCmds [0x01FF#16, 0x8000#16] dirty).par.cmds = true ∧ dirty.fault = none :=
  ⟨⟨by decide, rfl, rfl⟩, by decide, rfl⟩

/-- The first and the last `k` inside a bit. -/
theorem witness_PositionInsideWord :
    (inRun [0x00A5#16] .cmd 0 1).op = some .run ∧ (inRun [0x00A5#16] .cmd 0 1).stage = .cmd ∧
    (inRun [0x00A5#16] .cmd 0 1).par.cmds[0]? = some 0x00A5#16 ∧
    decode 0x00A5#16 = .instr (.xfer 0x0A5#9) ∧ 1 ≤ 1 ∧ 45 ≤ 45 := by decide

theorem witness_AdmittedOperationsEnd :
    opened.par.wf ∧ opened.phase = .idle ∧ cmdsWellFormed (withCmds [0x8000#16] opened).par.cmds = true := by
  decide

/-- Also of the other frames and of RegistersReplayTheTrace. -/
theorem witness_EveryOperationFrame :
    (∃ t, exec (.setPinMode 27 .output) opened = .next t) ∧ (∃ t, exec (.setPinLevel 27 true) opened = .next t) ∧
    (∃ t, exec .wait opened = .next t) ∧ (∃ t, exec (.xfer 0x155#9) dirty = .next t) ∧
    (∃ t, exec .setup dirty = .next t) ∧ (∃ t, exec .teardown dirty = .next t) ∧
    (∃ t, exec .run (withCmds [0x8000#16] dirty) = .next t) ∧ opened.par.wf ∧ dirty.par.wf :=
  ⟨answers_spec (by decide), answers_spec (by decide), answers_spec (by decide), answers_spec (by decide),
    answers_spec (by decide), answers_spec (by decide), answers_spec (by decide), by decide, by decide⟩

/-- Indices 6, 7, 10, 1023 and 1024: the last function-select register, SET, CLEAR, the last index of the page
and the first outside it. -/
theorem witness_HostReadCases :
    nextWith (step (withInputs [.memRead 6] opened)) (fun t => t.trace == [.read 6 0#32]) = true ∧
    answers (step (withInputs [.memRead 7] opened)) = true ∧
    answers (step (withInputs [.memRead 10] opened)) = true ∧
    refusedWith (step (withInputs [.memRead 1023] opened)) (.unknownRegister 1023) = true ∧
    nextWith (step (withInputs [.memRead 1024] opened)) (fun t => t.phase == .aborted) = true ∧
    nextWith (step (withInputs [.memRead 1023] State.reset)) (fun t => t.phase == .aborted) = true ∧
    refusedWith (step (withInputs [.memRead 0] abortedState)) .notAdmitted = true ∧
    nextWith (step (withInputs [.memRead 0] (inRun [] .setup 0 0))) (fun t => t.inputs == [.memRead 0]) = true := by
  decide

/-- The same indices for a write. -/
theorem witness_HostWriteCases :
    nextWith (step (withInputs [.memWrite 6 1#32] opened)) (fun t => t.fsel[6] == 1#32) = true ∧
    nextWith (step (withInputs [.memWrite 7 1#32] opened)) (fun t => t.lat == 1#32) = true ∧
    nextWith (step (withInputs [.memWrite 10 1#32] opened)) (fun t => t.lat == 0#32) = true ∧
    refusedWith (step (withInputs [.memWrite 1023 1#32] opened)) (.unknownRegister 1023) = true ∧
    nextWith (step (withInputs [.memWrite 1024 1#32] opened)) (fun t => t.phase == .aborted) = true ∧
    nextWith (step (withInputs [.memWrite 1023 1#32] State.reset)) (fun t => t.phase == .aborted) = true ∧
    refusedWith (step (withInputs [.memWrite 0 1#32] abortedState)) .notAdmitted = true ∧
    nextWith (step (withInputs [.memWrite 0 1#32] (inRun [] .setup 0 0)))
      (fun t => t.inputs == [.memWrite 0 1#32]) = true := by decide

/-- The indices at which the cases of the write primitive meet, with the register space valid and invalid. -/
theorem witness_WritePrimitive :
    6 < 7 ∧ 7 ≤ 7 ∧ opened.par.gpset = 7 ∧ opened.par.gpclr = 10 ∧ 1023 < 1024 ∧ 1024 ≤ 1024 ∧
    opened.rsValid = true ∧ State.reset.rsValid = false := by decide

/-- The aborted path of SETUP: fields of other pins and of no pin keep their bits. -/
theorem witness_WholeBlockOperationsFrame :
    nextWith (exec .setup { opened with fsel := (Vector.replicate 7 0#32).set 2 0x3F000000#32, unmapIn := some 2 })
      (fun t => t.phase == .aborted && t.fsel[2] == 0x3F200000#32) = true ∧
    ¬ inFieldOf 27 2 24 ∧ ¬ inFieldOf 26 2 24 ∧ ¬ inFieldOf 18 2 24 :=
  ⟨by decide, by unfold inFieldOf; decide, by unfold inFieldOf; decide, by unfold inFieldOf; decide⟩

theorem witness_RegistersReplayTheTrace :
    (∀ (par : Params) (rest : List HostEvent), (withInputs [.call 0xC000#16] dirty).inputs ≠ .reset par :: rest) ∧
    ∃ t, step (withInputs [.call 0xC000#16] dirty) = .next t :=
  ⟨(by intro par rest h; cases h), answers_spec (by decide)⟩

theorem witness_InvalidSpaceStopsAccess : State.reset.rsValid = false ∧ 1023 < 1024 := by decide

/-- The cut case (an access at or after the first micro-operation without it) and the uncut case (WAIT, and an
UNMAP after the last micro-operation). -/
theorem witness_UnmapCutsAtNextAccess :
    startable .setup { opened with unmapIn := some 9 } ∧ startable .wait { opened with unmapIn := some 1 } ∧
    nextWith (exec .setup opened) (fun t => t.trace.length == 9 &&
      t.trace[8]? == some (.write 10 0x04000000#32)) = true ∧
    nextWith (exec .setup { opened with unmapIn := some 8 }) (fun t => t.phase == .aborted && t.k == 8) = true ∧
    nextWith (exec .setup { opened with unmapIn := some 9 }) (fun t => t.phase == .done) = true ∧
    nextWith (exec .wait { opened with unmapIn := some 1 }) (fun t => t.phase == .done) = true :=
  ⟨⟨.inl rfl, rfl, fun h => by cases h⟩, ⟨.inl rfl, rfl, fun h => by cases h⟩, by decide, by decide, by decide,
    by decide⟩

/-- Both directions: pin 28 faults, pin 27 does not. -/
theorem witness_InvalidPinExactly :
    opened.fault = none ∧
    nextWith (exec (.setPinMode 28 .output) opened) (fun t => t.phase == .aborted) = true ∧
    nextWith (exec (.setPinMode 27 .output) opened) (fun t => t.fault == none) = true := by decide

/-- An operation that faults, with the parameters R8 asks. -/
theorem witness_OperationsStayInRange :
    State.reset.par.wf ∧ State.reset.fault = none ∧
    nextWith (exec .setup State.reset) (fun t => t.fault.isSome) = true := by decide

theorem witness_AbortedUntilReset :
    abortedState.phase = .aborted ∧
    nextWith (step abortedState) (fun t => t.phase == .aborted) = true ∧
    nextWith (step (withInputs [.reset Params.family] abortedState)) (fun t => t.phase == .idle) = true := by
  decide

theorem witness_SpaceBecomesValidOnlyByOpening :
    State.reset.rsValid = false ∧
    nextWith (step (withInputs [.openSpace ⟨true, .usable, .absent, none, none, none, none⟩] State.reset))
      (fun t => t.rsValid) = true := by decide

/-- The ways `rs_valid` falls: UNMAP during an operation, UNMAP at once, reset; and UNMAP armed, before and at
its last micro-operation. -/
theorem witness_SpaceBecomesInvalidOnlyByUnmapOrReset :
    opened.rsValid = true ∧
    nextWith (step (withInputs [.call 0x8000#16] { opened with unmapIn := some 1 })) (fun t => !t.rsValid) = true ∧
    nextWith (step (withInputs [.unmapAfter 0] opened)) (fun t => !t.rsValid) = true ∧
    nextWith (step (withInputs [.reset Params.family] opened)) (fun t => !t.rsValid) = true ∧
    nextWith (step (withInputs [.unmapAfter 1] opened)) (fun t => t.rsValid && t.unmapIn == some 1) = true ∧
    nextWith (step { inRun [] .setup 0 0 with unmapIn := some 2 }) (fun t => t.rsValid && t.unmapIn == some 1) =
      true ∧
    nextWith (step { inRun [] .setup 0 0 with unmapIn := some 1 }) (fun t => !t.rsValid && t.k == 1) = true := by
  decide

/-- An operation that may start beside a recorded fault, and one that faults. -/
theorem witness_FaultIsNeverCleared :
    nextWith (exec .wait { abortedState with phase := .done }) (fun t => t.fault.isSome) = true ∧
    nextWith (start .wait { abortedState with phase := .done }) (fun t => t.fault.isSome) = true ∧
    nextWith (step { inRun [] .setup 0 0 with fault := abortedState.fault }) (fun t => t.fault.isSome) = true ∧
    nextWith (exec (.setPinMode 28 .output) opened) (fun t => t.fault.isSome) = true ∧
    abortedState.phase = .aborted := by decide

/-- A reset that binds other parameters, a step while BUSY, and a step that is no reset. -/
theorem witness_ParametersAreFixed :
    nextWith (step (withInputs [.reset { Params.family with pinClk := 11 }] opened)) (fun t => t.par.pinClk == 11) =
      true ∧
    (∃ t, step (inRun [] .setup 0 0) = .next t) ∧
    (∀ (par : Params) (rest : List HostEvent), (withInputs [.call 0x8000#16] opened).inputs ≠ .reset par :: rest) ∧
    ∃ t, step (withInputs [.call 0x8000#16] opened) = .next t :=
  ⟨by decide, answers_spec (by decide), (by intro par rest h; cases h), answers_spec (by decide)⟩

/-- A good and a bad parameter set. -/
theorem witness_ResetEffect :
    abortedState.phase ≠ .busy ∧ Params.family.wf ∧ ¬ ({ Params.family with gpset := 6 } : Params).wf := by
  decide

theorem inv_opened : Inv opened := by decide
theorem inv_inRun : Inv (inRun [0x8000#16] .setup 0 8) := by decide

/-- Also of BusyStepsNeverStick and CommandIndexOnlyCountsUp. -/
theorem witness_StepKeepsInvariant :
    (Inv opened ∧ ∃ t, step (withInputs [.call 0xC000#16] opened) = .next t) ∧
    Inv (inRun [0x8000#16] .setup 0 8) ∧ (inRun [0x8000#16] .setup 0 8).phase = .busy ∧
    ∃ t, step (inRun [0x8000#16] .setup 0 8) = .next t :=
  ⟨⟨inv_opened, answers_spec (by decide)⟩, inv_inRun, rfl, answers_spec (by decide)⟩

/-- Two states that differ in their registers and have the same parameters. -/
theorem witness_TraceDeterminedByParameters :
    clear opened ∧ clear dirty ∧ opened.par = dirty.par ∧ opened.fsel ≠ dirty.fsel ∧ startable .setup opened ∧
    startable .setup dirty ∧ ∃ t, exec .setup opened = .next t :=
  ⟨opened_clear, dirty_clear, rfl, by decide, ⟨.inl rfl, rfl, fun h => by cases h⟩,
    ⟨.inl rfl, rfl, fun h => by cases h⟩, answers_spec (by decide)⟩

theorem witness_XferShowsOneFrame :
    idleLevels.phase = .idle ∧
    pinField idleLevels idleLevels.par.pinClk = idleLevels.par.modeCode.output ∧
    pinField idleLevels idleLevels.par.pinData = idleLevels.par.modeCode.output ∧
    pinField idleLevels idleLevels.par.pinCs = idleLevels.par.modeCode.output ∧
    idleLevels.lat.getLsbD idleLevels.par.pinCs = true := by decide

/-- V42: the clock is driven high and then low in SETUP, and no edge rises. -/
theorem witness_NoRisingEdgeInSetupTeardownWait :
    dirty.phase = .idle ∧ (operationWires .setup dirty).length = 9 ∧
    risingEdges (wire dirty) (operationWires .setup dirty) = 0 := by decide

/-- The three drive states. -/
theorem witness_DriveStates :
    opened.par.wf ∧ pinField idleLevels 27 = idleLevels.par.modeCode.output ∧
    pinField opened 27 = opened.par.modeCode.input ∧
    pinField dirty 27 ≠ dirty.par.modeCode.output ∧ pinField dirty 27 ≠ dirty.par.modeCode.input := by decide

/-- The second clause: an operation that aborts. -/
theorem witness_ExitStatusAfterRun :
    State.reset.fault = none ∧
    nextWith (exec .setup State.reset) (fun t => t.phase == .aborted) = true := by decide

/-- T3's table: the first and the last address inside, the ones just outside, and the first match of two. -/
theorem witness_ResolverFirstMatchDecides :
    (AddressRange.mk 0x7e000000 0x3f000000 0x01000000).covers 0x7e000000 = true ∧
    (AddressRange.mk 0x7e000000 0x3f000000 0x01000000).covers 0x7effffff = true ∧
    (AddressRange.mk 0x7e000000 0x3f000000 0x01000000).covers 0x7f000000 = false ∧
    (AddressRange.mk 0x7e000000 0x3f000000 0x01000000).covers 0x7dffffff = false ∧
    0x7e200000 - 0x7e000000 + 0x3f000000 < 2 ^ 64 := by decide

theorem witness_ResolverFirstMatchDecides_table :
    cellSize 2 (some [0, 0, 0, 2]) = .ok 2 ∧ cellSize 2 (some [0, 0, 0, 1]) = .ok 1 ∧
    cellSize 1 none = .ok 1 ∧
    parseRanges 1 2 1 [0x7e, 0, 0, 0, 0, 0, 0, 0, 0x3f, 0, 0, 0, 0x01, 0, 0, 0] =
      .ok [⟨0x7e000000, 0x3f000000, 0x01000000⟩] := ⟨rfl, rfl, rfl, rfl⟩

/-- The cases of opening, one event each. -/
theorem witness_OpeningCases :
    State.reset.phase = .idle ∧ State.reset.page = none ∧
    faultedWith (step (withInputs [.openSpace ⟨false, .usable, .usable, none, none, none, none⟩] State.reset))
      .privilegeError = true ∧
    answers (step (withInputs [.openSpace ⟨true, .usable, .absent, none, none, none, none⟩] State.reset)) = true ∧
    faultedWith (step (withInputs [.openSpace ⟨true, .absent, .absent, none, none, none, none⟩] State.reset))
      .deviceUnavailableError = true ∧
    faultedWith (step (withInputs [.openSpace ⟨true, .mapFails, .absent, none, none, none, none⟩] State.reset))
      .mappingError = true ∧
    faultedWith (step (withInputs [.openSpace ⟨true, .mapFails, .usable, none, none, none, none⟩] State.reset))
      .metadataParseError = true ∧
    faultedWith (step (withInputs [.openSpace ⟨true, .absent, .usable, none, none, none, some []⟩] State.reset))
      .addressNotFoundError = true ∧
    faultedWith (step (withInputs [.openSpace ⟨true, .absent, .mapFails, none, none, none,
      some [0, 0, 0, 0, 0x7e, 0, 0, 0, 0, 0, 0, 4, 0x7e, 0, 0, 0, 0x01, 0x80, 0, 0]⟩] State.reset))
      .mappingError = true := by decide

end Sys2Proof.Tests
end

section
/-! PROOFS. What a step, an operation and a host event can do, said once: every proof about a whole step goes
through these (spec/41_serial_transmitter.md R151 to R153; spec/20_memory.md R58). -/

namespace Sys2Proof.Machine

variable {s t : State} {o : Instr}

/-! ### A step and a host event -/

/-- A step that answers: the sequencer's, none, or a host event. -/
theorem step_next (h : step s = .next t) :
    (s.phase = .busy ∧ microStep s = .next t) ∨ (s.phase ≠ .busy ∧ s.inputs = [] ∧ t = s) ∨
    ∃ e rest, s.phase ≠ .busy ∧ s.inputs = e :: rest ∧ takeInput exec e { s with inputs := rest } = .next t := by
  unfold step machineStep at h
  split at h
  · exact .inl ⟨‹_›, h⟩
  · split at h
    · cases h; exact .inr (.inl ⟨‹_›, ‹_›, rfl⟩)
    · exact .inr (.inr ⟨_, _, ‹_›, ‹_›, h⟩)

theorem step_busy (hb : s.phase = .busy) : step s = microStep s := if_pos hb

theorem step_event {e : HostEvent} {rest : List HostEvent} (hb : s.phase ≠ .busy) (hi : s.inputs = e :: rest) :
    step s = takeInput exec e { s with inputs := rest } := by
  simp [step, machineStep, hb, hi]

theorem fetch_next {w : Cell} {run : Instr → State → Result} (h : fetch w run s = .next t) :
    ∃ i, decode w = .instr i ∧ run i s = .next t := by
  unfold fetch at h
  split at h
  · exact ⟨_, ‹_›, h⟩
  · cases h

theorem hostAccess_next {α : Type} {access : State → Access α} (h : hostAccess access s = .next t) :
    admits s.phase = true ∧ ((∃ a, access s = .ok a t) ∨ access s = .raised t) := by
  unfold hostAccess at h
  split at h
  · refine ⟨‹_›, ?_⟩
    split at h
    · cases h; exact .inl ⟨_, ‹_›⟩
    · cases h; exact .inr ‹_›
    · cases h
  · cases h

/-- The opening that succeeds (R70). -/
theorem openSpace_next {p : Platform} (h : openSpace p s = .next t) :
    s.phase = .idle ∧ s.page = none ∧
      ∃ page, openPage p = .ok page ∧ t = { s with rsValid := true, page := some page } := by
  unfold openSpace at h
  split at h
  · rename_i hs
    split at h
    · cases h; exact ⟨hs.1, hs.2, _, ‹_›, rfl⟩
    · cases h
  · cases h

theorem reset_next {par : Params} (h : takeInput exec (.reset par) s = .next t) :
    par.wf ∧ t = restart par s := by
  simp only [takeInput] at h
  split at h
  · cases h; exact ⟨‹_›, rfl⟩
  · cases h

/-- The phases that admit an operation are not BUSY and not ABORTED (R28). -/
theorem admits_iff {p : Phase} : admits p = true ↔ p = .idle ∨ p = .done := by cases p <;> simp [admits]

/-! ### Completed or faulted -/

/-- A micro-operation that raised leads to the state of `raise` (R176). -/
theorem perform_raised_eq {mu : Micro} (h : perform mu s = .raised t) : ∃ q x, t = raise q x s := by
  obtain ⟨i, rw, ⟨rfl, -⟩ | ⟨rfl, -⟩⟩ := perform_raised h <;> exact ⟨_, _, rfl⟩

theorem perform_of_memRead {i : Nat} {v : Word} (h : memRead i s = .ok v t) :
    perform (.rd i) s = .ok () (writeT v t) := by simp [perform, h]

/-- A step of the sequencer completes its micro-operation or faults (R153, R176). -/
theorem microStep_completes_or_raises (h : microStep s = .next t) :
    (∃ mu s', (currentItem s)[s.k]? = some mu ∧ perform mu s = .ok () s' ∧ t = tickUnmap (advance s')) ∨
    ∃ q x, t = raise q x s := by
  obtain ⟨mu, hmu, ⟨s', hp, rfl⟩ | hr⟩ := microStep_next h
  · exact .inl ⟨mu, s', hmu, hp, rfl⟩
  · exact .inr (perform_raised_eq hr)

/-- A direct read that answers is a micro-operation that completes, but for `T`, or it faults (R56, R58). -/
theorem hostRead_next {i : Nat} (h : hostAccess (memRead i) s = .next t) :
    admits s.phase = true ∧ ((∃ v, perform (.rd i) s = .ok () (writeT v t)) ∨ ∃ q x, t = raise q x s) := by
  obtain ⟨ha, ⟨v, hok⟩ | hr⟩ := hostAccess_next h
  · exact ⟨ha, .inl ⟨v, perform_of_memRead hok⟩⟩
  · exact ⟨ha, .inr (perform_raised_eq (mu := .rd i) (by simp [perform, hr]))⟩

/-- A direct write that answers is a micro-operation that completes, or it faults (R57, R58). -/
theorem hostWrite_next {i : Nat} {v : Word} (h : hostAccess (memWrite i v) s = .next t) :
    admits s.phase = true ∧ (perform (.wr i (.const v)) s = .ok () t ∨ ∃ q x, t = raise q x s) := by
  obtain ⟨ha, ⟨u, hok⟩ | hr⟩ := hostAccess_next h
  · exact ⟨ha, .inl hok⟩
  · exact ⟨ha, .inr (perform_raised_eq (mu := .wr i (.const v)) hr)⟩

/-! ### A whole operation -/

theorem exec_eq_runOperation (o : Instr) (s : State) : exec o s = runOperation o s := by cases o <;> rfl

/-- What holds at a state and is kept by every step of the sequencer holds after any number of steps. -/
theorem finish_preserves {P : State → Prop}
    (hstep : ∀ {u v}, u.phase = .busy → P u → microStep u = .next v → P v) (n : Nat) :
    ∀ {s}, P s → finish n s = .next t → P t := by
  induction n with
  | zero => intro s hs h; cases h; exact hs
  | succ n ih =>
    intro s hs h
    by_cases hb : s.phase = .busy
    · simp only [finish, if_pos hb] at h
      cases hm : microStep s with
      | next u => rw [hm] at h; exact ih (hstep hb hs hm) h
      | fault r => rw [hm] at h; cases h
      | refused r => rw [hm] at h; cases h
    · rw [finish_done _ hb] at h
      cases h
      exact hs

/-- The induction over an operation: what `start` establishes and every step of the sequencer keeps holds when the
operation ends. -/
theorem exec_preserves {P : State → Prop} (h : exec o s = .next t) (hstart : ∀ u, start o s = .next u → P u)
    (hstep : ∀ {u v}, u.phase = .busy → P u → microStep u = .next v → P v) : P t := by
  rw [exec_eq_runOperation, runOperation] at h
  cases hs : start o s with
  | next u => rw [hs] at h; exact finish_preserves hstep _ (hstart u hs) h
  | fault r => rw [hs] at h; cases h
  | refused r => rw [hs] at h; cases h

end Sys2Proof.Machine
end

section
/-! PROOFS. Every piece of a step keeps the invariant: a micro-operation, a fault, the program counter, UNMAP, `start`
(spec/10_state.md R27 to R30; spec/20_memory.md R55; spec/60_exceptions.md R176). -/

namespace Sys2Proof.Machine

variable {s t : State} {o : Instr} {mu : Micro}

/-! ### The event of a micro-operation -/

theorem faultRecords_append (a b : List Event) : faultRecords (a ++ b) = faultRecords a ++ faultRecords b :=
  List.filterMap_append

theorem knownRegister_iff {c : Params} {i : Nat} :
    knownRegister c i = true ↔ i < 7 ∨ i = c.gpset ∨ i = c.gpclr := by
  simp only [knownRegister, Bool.or_eq_true, decide_eq_true_iff, beq_iff_eq, or_assoc]
  exact or_congr_left Nat.lt_succ_iff.symm

/-- A micro-operation that completes adds one event, which is no fault and names only a known register (R55, R152). -/
theorem perform_ok_event {u : Unit} (h : perform mu s = .ok u t) :
    ∃ e, t.trace = s.trace ++ [e] ∧ faultRecords [e] = [] ∧ ∀ i ∈ registerOf e, knownRegister s.par i = true := by
  rcases perform_ok h with ⟨i, v, s', rfl, hr, rfl⟩ | ⟨i, e, rfl, hw⟩ | ⟨n, rfl, rfl⟩
  · obtain ⟨-, -, hcases⟩ := memRead_ok hr
    refine ⟨.read i v, ?_, rfl, ?_⟩
    · rcases hcases with ⟨-, -, rfl⟩ | ⟨-, -, -, rfl⟩ <;> rfl
    · simp only [registerOf, Option.mem_some_iff, forall_eq', knownRegister_iff]
      tauto
  · obtain ⟨-, -, hcases⟩ := memWrite_ok hw
    refine ⟨.write i (evalExpr s.t e), ?_, rfl, ?_⟩
    · rcases hcases with ⟨-, rfl⟩ | ⟨-, -, rfl⟩ | ⟨-, -, -, rfl⟩ <;> rfl
    · simp only [registerOf, Option.mem_some_iff, forall_eq', knownRegister_iff]
      tauto
  · exact ⟨.delay n, rfl, rfl, by simp [registerOf]⟩

/-! ### What each piece keeps -/

theorem Inv.no_fault (h : Inv s) (hp : s.phase ≠ .aborted) : s.fault = none := by
  obtain ⟨-, -, -, hfault, -⟩ := h
  simpa [hp] using hfault

theorem Inv.no_fault_of_admits (h : Inv s) (ha : admits s.phase = true) : s.fault = none :=
  h.no_fault (by rcases admits_iff.1 ha with hp | hp <;> simp [hp])

theorem Inv.perform (h : Inv s) {u : Unit} (hm : perform mu s = .ok u t) : Inv t := by
  obtain ⟨hwf, hbusy, hidle, hfault, hrecs, hpage, hunmap, hknown⟩ := h
  obtain ⟨e, htr, hne, hreg⟩ := perform_ok_event hm
  have f := perform_frame hm
  simp only [Inv, busyLegal, positionLegal, f.op, f.stage, f.ci, f.k, f.phase, f.fault, f.rsValid, f.par, f.page,
    f.unmapIn, htr, faultRecords_append, hne, List.append_nil, List.forall_mem_append, List.forall_mem_singleton]
  exact ⟨hwf, hbusy, hidle, hfault, hrecs, hpage, hunmap, hknown, hreg⟩

/-- A fault with none before it (R176, R179). -/
theorem Inv.raiseWith (h : Inv s) (hf : s.fault = none) (q : FaultKind) (o : Option Instr) (g : Stage) (c n : Nat)
    (x : FaultInfo) : Inv (raiseWith q o g c n x s) := by
  obtain ⟨hwf, -, -, -, hrecs, hpage, hunmap, hknown⟩ := h
  refine ⟨hwf, by simp [busyLegal], by simp, by simp, ?_, hpage, hunmap, ?_⟩
  · simp only [raiseWith_trace, raiseWith_fault, faultRecords_append, hrecs, hf]; rfl
  · rw [raiseWith_trace, List.forall_mem_append]
    exact ⟨hknown, by simp [registerOf]⟩

theorem Inv.raise (h : Inv s) (hf : s.fault = none) (q : FaultKind) (x : FaultInfo) : Inv (raise q x s) :=
  h.raiseWith hf _ _ _ _ _ _

theorem Inv.complete (h : Inv s) (hb : s.phase = .busy) : Inv (complete s) := by
  obtain ⟨hwf, -, -, hfault, hrecs, hpage, hunmap, hknown⟩ := h
  exact ⟨hwf, by simp [busyLegal], by simp, by simpa [hb] using hfault, hrecs, hpage, hunmap, hknown⟩

theorem Inv.setPosition (h : Inv s) (hb : s.phase = .busy) {g : Stage} {ci k : Nat} (ho : s.op = some o)
    (hpos : positionLegal o (setPosition g ci k s)) : Inv (setPosition g ci k s) := by
  obtain ⟨hwf, -, -, hfault, hrecs, hpage, hunmap, hknown⟩ := h
  refine ⟨hwf, fun _ => ⟨by simp [ho], ?_⟩, by simp [hb], hfault, hrecs, hpage, hunmap, hknown⟩
  intro o' ho'
  obtain rfl : o = o' := by simpa [ho] using ho'
  exact hpos

/-- Every item of RUN has a first micro-operation (R147). -/
theorem runMicros_pos (c : Params) (hw : cmdsWellFormed c.cmds = true) {g : Stage} {ci : Nat} (hg : g ≠ .only)
    (hci : g = .cmd → ci < c.cmds.length) : 0 < (runMicros c g ci).length := by
  cases g with
  | only => exact absurd rfl hg
  | setup => simp [runMicros]
  | teardown => simp [runMicros]
  | cmd =>
    have hlt := hci rfl
    simp only [runMicros, List.getElem?_eq_getElem hlt]
    exact cellMicros_length_pos c (List.all_eq_true.1 hw _ (List.getElem_mem hlt))

/-- The first position of an item of RUN is legal. -/
theorem positionLegal_run_first {g : Stage} {ci : Nat} (hw : cmdsWellFormed s.par.cmds = true) (hg : g ≠ .only)
    (hci : g = .cmd → ci < s.par.cmds.length) : positionLegal .run (setPosition g ci 0 s) :=
  ⟨rfl, runMicros_pos s.par hw hg hci, by simpa using hg, fun _ => hw, hci⟩

theorem Inv.advance (h : Inv s) (hb : s.phase = .busy) : Inv (advance s) := by
  obtain ⟨-, hbusy, -⟩ := id h
  obtain ⟨hop, hlegal⟩ := hbusy hb
  obtain ⟨o, ho⟩ := Option.isSome_iff_exists.1 hop
  have hpos := hlegal o ho
  obtain ⟨hpin, -, hrun, hcmds, hci⟩ := hpos
  have next_item {g : Stage} {ci : Nat} (hs : s.stage ≠ .only) (hg : g ≠ .only)
      (hlt : g = .cmd → ci < s.par.cmds.length) : Inv (Machine.setPosition g ci 0 s) := by
    obtain rfl := hrun.2 hs
    exact h.setPosition hb ho (positionLegal_run_first (hcmds rfl) hg hlt)
  rcases advance_cases s with ⟨hk, e⟩ |
    ⟨-, ⟨-, e⟩ | ⟨hs, hn, e⟩ | ⟨hs, -, e⟩ | ⟨hs, hn, e⟩ | ⟨hs, -, e⟩ | ⟨-, e⟩⟩ <;> rw [e]
  · exact h.setPosition hb ho ⟨hpin, by simpa [currentItem, ho] using hk, hrun, hcmds, hci⟩
  · exact h.complete hb
  · exact next_item (by simp [hs]) (by simp) fun _ => hn
  · exact next_item (by simp [hs]) (by simp) (by simp)
  · exact next_item (by simp [hs]) (by simp) fun _ => hn
  · exact next_item (by simp [hs]) (by simp) (by simp)
  · exact h.complete hb

theorem Inv.unmap (h : Inv s) : Inv (unmap s) := by
  obtain ⟨hwf, hbusy, hidle, hfault, hrecs, -, -, hknown⟩ := h
  exact ⟨hwf, hbusy, hidle, hfault, hrecs, by simp, by simp, hknown⟩

theorem Inv.setUnmapIn (h : Inv s) (n : Nat) : Inv { s with unmapIn := some (n + 1) } := by
  obtain ⟨hwf, hbusy, hidle, hfault, hrecs, hpage, -, hknown⟩ := h
  exact ⟨hwf, hbusy, hidle, hfault, hrecs, hpage, by simp, hknown⟩

theorem Inv.armUnmap (h : Inv s) (n : Nat) : Inv (armUnmap n s) := by
  cases n with
  | zero => exact h.unmap
  | succ n => exact h.setUnmapIn n

theorem Inv.tickUnmap (h : Inv s) : Inv (tickUnmap s) := by
  rcases tickUnmap_cases s with ⟨-, e⟩ | e | ⟨n, -, e⟩ <;> rw [e]
  · exact h
  · exact h.unmap
  · exact h.setUnmapIn n

theorem Inv.launch (h : Inv s) (ha : admits s.phase = true) (hpin : badPin o = none)
    (hcmds : o = .run → cmdsWellFormed s.par.cmds = true) : Inv (launch o s) := by
  have hf : s.fault = none := h.no_fault_of_admits ha
  obtain ⟨hwf, -, -, -, hrecs, hpage, hunmap, hknown⟩ := h
  refine ⟨hwf, fun _ => ⟨rfl, ?_⟩, by simp, by simp [hf], hrecs, hpage, hunmap, hknown⟩
  intro o' ho'
  obtain rfl : o = o' := by simpa using ho'
  refine ⟨hpin, ?_, by simp, hcmds, by simp; split <;> simp⟩
  by_cases ho : o = .run
  · subst ho; simp [itemMicros, runMicros]
  · simpa [itemMicros_stage ho] using itemMicros_only_pos ho s.par

/-! ### The moves of the machine -/

theorem Inv.start (h : Inv s) (hs : start o s = .next t) : Inv t := by
  obtain ⟨ha, hcmds, ⟨p, -, rfl⟩ | ⟨hpin, rfl⟩⟩ := start_next hs
  · exact h.raiseWith (h.no_fault_of_admits ha) _ _ _ _ _ _
  · exact h.launch ha hpin hcmds

theorem Inv.microStep (h : Inv s) (hb : s.phase = .busy) (hm : microStep s = .next t) : Inv t := by
  obtain ⟨mu, s', -, hp, rfl⟩ | ⟨q, x, rfl⟩ := microStep_completes_or_raises hm
  · exact ((h.perform hp).advance ((perform_frame hp).phase.trans hb)).tickUnmap
  · exact h.raise (h.no_fault (by simp [hb])) q x

theorem Inv.exec (h : Inv s) (he : exec o s = .next t) : Inv t :=
  exec_preserves he (fun _ => h.start) fun hb hu => hu.microStep hb

theorem Inv.openSpace (h : Inv s) {p : Platform} (ho : openSpace p s = .next t) : Inv t := by
  obtain ⟨-, -, page, -, rfl⟩ := openSpace_next ho
  obtain ⟨hwf, hbusy, hidle, hfault, hrecs, -, hunmap, hknown⟩ := h
  exact ⟨hwf, hbusy, hidle, hfault, hrecs, by simp, hunmap, hknown⟩

theorem inv_restart {par : Params} (hpar : par.wf) (s : State) : Inv (restart par s) :=
  ⟨hpar, by simp [busyLegal], by simp, by simp, rfl, by simp, by simp, by simp⟩

theorem Inv.takeInput (h : Inv s) {e : HostEvent} (ht : takeInput Machine.exec e s = .next t) : Inv t := by
  cases e with
  | call w =>
    obtain ⟨i, -, hi⟩ := fetch_next ht
    exact h.exec hi
  | start w =>
    obtain ⟨i, -, hi⟩ := fetch_next ht
    exact h.start hi
  | memRead i =>
    obtain ⟨ha, ⟨v, hok⟩ | ⟨q, x, rfl⟩⟩ := hostRead_next ht
    · exact (h.perform hok : Inv (writeT v t))
    · exact h.raise (h.no_fault_of_admits ha) q x
  | memWrite i v =>
    obtain ⟨ha, hok | ⟨q, x, rfl⟩⟩ := hostWrite_next ht
    · exact h.perform hok
    · exact h.raise (h.no_fault_of_admits ha) q x
  | unmapAfter n => cases ht; exact h.armUnmap n
  | openSpace p => exact h.openSpace ht
  | reset par =>
    obtain ⟨hpar, rfl⟩ := reset_next ht
    exact inv_restart hpar s

theorem Inv.step (h : Inv s) (ht : step s = .next t) : Inv t := by
  rcases step_next ht with ⟨hb, hm⟩ | ⟨-, -, rfl⟩ | ⟨e, rest, -, -, he⟩
  · exact h.microStep hb hm
  · exact h
  · exact Inv.takeInput (s := { s with inputs := rest }) h he

end Sys2Proof.Machine

/-- Settles O48: each piece of a step keeps the invariant. -/
theorem stepKeepsInvariant : Obligations.StepKeepsInvariant := fun _ _ h ht => h.step ht

end

section
/-! PROOFS. How `rs_valid` rises and falls, how the command index moves, the drive state of a pin
(spec/10_state.md R27, R30, R33; spec/20_memory.md R60, R70). -/

namespace Sys2Proof.Machine

variable {s t : State} {o : Instr} {mu : Micro}

/-! ### The program counter and the countdown touch nothing else -/

/-- The program counter moves and the phase may change; nothing else does (R153). -/
theorem advance_eq_relabel (s : State) : ∃ g ci k ph, advance s = relabel s.op g ci k ph s := by
  rcases advance_cases s with ⟨-, e⟩ | ⟨-, ⟨-, e⟩ | ⟨-, -, e⟩ | ⟨-, -, e⟩ | ⟨-, -, e⟩ | ⟨-, -, e⟩ | ⟨-, e⟩⟩ <;>
    exact ⟨_, _, _, _, e⟩

@[simp] theorem advance_rsValid (s : State) : (advance s).rsValid = s.rsValid := by
  obtain ⟨g, ci, k, ph, e⟩ := advance_eq_relabel s
  rw [e]; rfl

@[simp] theorem advance_unmapIn (s : State) : (advance s).unmapIn = s.unmapIn := by
  obtain ⟨g, ci, k, ph, e⟩ := advance_eq_relabel s
  rw [e]; rfl

/-- A tick touches only `rs_valid`, which does not rise, and the countdown (R60). -/
theorem tickUnmap_eq (s : State) :
    ∃ r n, tickUnmap s = { s with rsValid := r, unmapIn := n } ∧ (r = s.rsValid ∨ r = false) := by
  rcases tickUnmap_cases s with ⟨-, e⟩ | e | ⟨n, -, e⟩
  · exact ⟨s.rsValid, s.unmapIn, e, .inl rfl⟩
  · exact ⟨false, none, e, .inr rfl⟩
  · exact ⟨s.rsValid, some (n + 1), e, .inl rfl⟩

/-! ### `rs_valid` does not rise inside an operation -/

theorem microStep_rsValid (h : microStep s = .next t) (ht : t.rsValid = true) : s.rsValid = true := by
  obtain ⟨mu, s', -, hp, rfl⟩ | ⟨q, x, rfl⟩ := microStep_completes_or_raises h
  · obtain ⟨r, n, hticked, hle⟩ := tickUnmap_eq (advance s')
    have hr : r = true := by simpa [hticked] using ht
    simpa [hr, (perform_frame hp).rsValid] using hle
  · exact ht

theorem start_rsValid (h : start o s = .next t) : t.rsValid = s.rsValid := by
  obtain ⟨-, -, ⟨p, -, rfl⟩ | ⟨-, rfl⟩⟩ := start_next h <;> rfl

theorem exec_rsValid (h : exec o s = .next t) (ht : t.rsValid = true) : s.rsValid = true :=
  exec_preserves (P := fun u => u.rsValid = true → s.rsValid = true) h
    (fun _ hs hu => start_rsValid hs ▸ hu) (fun _ hu hm hv => hu (microStep_rsValid hm hv)) ht

/-! ### With no UNMAP armed `rs_valid` does not fall inside an operation -/

theorem microStep_unarmed (h : microStep s = .next t) (hn : s.unmapIn = none) :
    t.unmapIn = none ∧ t.rsValid = s.rsValid := by
  obtain ⟨mu, s', -, hp, rfl⟩ | ⟨q, x, rfl⟩ := microStep_completes_or_raises h
  · have f := perform_frame hp
    have hn' : (advance s').unmapIn = none := (advance_unmapIn s').trans (f.unmapIn.trans hn)
    rw [tickUnmap_none hn']
    exact ⟨hn', (advance_rsValid s').trans f.rsValid⟩
  · exact ⟨hn, rfl⟩

theorem start_unmapIn (h : start o s = .next t) : t.unmapIn = s.unmapIn := by
  obtain ⟨-, -, ⟨p, -, rfl⟩ | ⟨-, rfl⟩⟩ := start_next h <;> rfl

theorem exec_unarmed (h : exec o s = .next t) (hn : s.unmapIn = none) : t.rsValid = s.rsValid := by
  have hend : t.unmapIn = none ∧ t.rsValid = s.rsValid :=
    exec_preserves (P := fun u => u.unmapIn = none ∧ u.rsValid = s.rsValid) h
      (fun _ hs => ⟨(start_unmapIn hs).trans hn, start_rsValid hs⟩)
      (fun _ ⟨hnone, hvalid⟩ hm => (microStep_unarmed hm hnone).imp_right fun e => e.trans hvalid)
  exact hend.2

/-! ### A direct host access leaves `rs_valid` -/

theorem hostRead_rsValid {i : Nat} (h : hostAccess (memRead i) s = .next t) : t.rsValid = s.rsValid := by
  obtain ⟨-, ⟨v, hok⟩ | ⟨q, x, rfl⟩⟩ := hostRead_next h
  · exact (perform_frame hok).rsValid
  · rfl

theorem hostWrite_rsValid {i : Nat} {v : Word} (h : hostAccess (memWrite i v) s = .next t) :
    t.rsValid = s.rsValid := by
  obtain ⟨-, hok | ⟨q, x, rfl⟩⟩ := hostWrite_next h
  · exact (perform_frame hok).rsValid
  · rfl

/-! ### The host events that move `rs_valid` -/

/-- Only a successful opening raises it (R70). -/
theorem takeInput_rises {e : HostEvent} (h : takeInput exec e s = .next t) (hs : s.rsValid = false)
    (ht : t.rsValid = true) : ∃ p, e = .openSpace p ∧ openSpace p s = .next t := by
  have stays (hle : t.rsValid = s.rsValid) : False := by simp [hle, hs] at ht
  cases e with
  | call w =>
    obtain ⟨i, -, hi⟩ := fetch_next h
    simp [exec_rsValid hi ht] at hs
  | start w =>
    obtain ⟨i, -, hi⟩ := fetch_next h
    exact (stays (start_rsValid hi)).elim
  | memRead i => exact (stays (hostRead_rsValid h)).elim
  | memWrite i v => exact (stays (hostWrite_rsValid h)).elim
  | unmapAfter n =>
    cases h
    cases n with
    | zero => simp [armUnmap] at ht
    | succ n => exact (stays rfl).elim
  | openSpace p => exact ⟨p, rfl, h⟩
  | reset par =>
    obtain ⟨-, rfl⟩ := reset_next h
    simp at ht

/-- With no UNMAP armed, only UNMAP now and a reset lower it (R60, R200). -/
theorem takeInput_falls {e : HostEvent} (h : takeInput exec e s = .next t) (hn : s.unmapIn = none)
    (hs : s.rsValid = true) (ht : t.rsValid = false) : e = .unmapAfter 0 ∨ ∃ par, e = .reset par := by
  have stays (hle : t.rsValid = s.rsValid) : False := by simp [hle, hs] at ht
  cases e with
  | call w =>
    obtain ⟨i, -, hi⟩ := fetch_next h
    exact (stays (exec_unarmed hi hn)).elim
  | start w =>
    obtain ⟨i, -, hi⟩ := fetch_next h
    exact (stays (start_rsValid hi)).elim
  | memRead i => exact (stays (hostRead_rsValid h)).elim
  | memWrite i v => exact (stays (hostWrite_rsValid h)).elim
  | unmapAfter n =>
    cases h
    cases n with
    | zero => exact .inl rfl
    | succ n => exact (stays rfl).elim
  | openSpace p =>
    obtain ⟨-, -, page, -, rfl⟩ := openSpace_next h
    simp at ht
  | reset par => exact .inr ⟨par, rfl⟩

/-! ### An armed UNMAP does not disturb a micro-operation -/

theorem memRead_setUnmapIn {i : Nat} {v : Word} (h : memRead i s = .ok v t) (n : Option Nat) :
    memRead i { s with unmapIn := n } = .ok v { t with unmapIn := n } := by
  unfold memRead at h ⊢
  split_ifs at h ⊢ <;> cases h <;> rfl

theorem memWrite_setUnmapIn {i : Nat} {v : Word} {u : Unit} (h : memWrite i v s = .ok u t) (n : Option Nat) :
    memWrite i v { s with unmapIn := n } = .ok u { t with unmapIn := n } := by
  unfold memWrite at h ⊢
  split_ifs at h ⊢ <;> cases h <;> rfl

theorem perform_setUnmapIn {u : Unit} (h : perform mu s = .ok u t) (n : Option Nat) :
    perform mu { s with unmapIn := n } = .ok u { t with unmapIn := n } := by
  rcases perform_ok h with ⟨i, v, s', rfl, hr, rfl⟩ | ⟨i, e, rfl, hw⟩ | ⟨m, rfl, rfl⟩
  · exact perform_of_memRead (memRead_setUnmapIn hr n)
  · exact memWrite_setUnmapIn hw n
  · rfl

theorem advance_setUnmapIn (s : State) (n : Option Nat) :
    advance { s with unmapIn := n } = { advance s with unmapIn := n } := by
  unfold advance
  by_cases hk : s.k + 1 < (currentItem s).length
  · exact (if_pos hk).trans (by rw [if_pos hk]; rfl)
  · refine (if_neg hk).trans ?_
    rw [if_neg hk]
    cases hs : s.stage with
    | only => simp [complete, hs]
    | setup => simp only; split <;> rfl
    | cmd => simp only; split <;> rfl
    | teardown => simp [complete, hs]

/-- A step that completes its micro-operation, with another countdown: the same step, then the tick (log entry 8). -/
theorem microStep_setUnmapIn (h : microStep s = .next t) (hn : s.unmapIn = none) (ht : t.phase ≠ .aborted)
    (n : Option Nat) : microStep { s with unmapIn := n } = .next (tickUnmap { t with unmapIn := n }) := by
  obtain ⟨mu, s', hmu, hp, rfl⟩ | ⟨q, x, rfl⟩ := microStep_completes_or_raises h
  · have hunarmed : tickUnmap (advance s') = advance s' := by
      obtain ⟨g, ci, k, ph, hmoved⟩ := advance_eq_relabel s'
      exact tickUnmap_none (by rw [hmoved]; exact (perform_frame hp).unmapIn.trans hn)
    have hmu' : (currentItem { s with unmapIn := n })[s.k]? = some mu := hmu
    simp only [microStep, hmu', perform_setUnmapIn hp n, advance_setUnmapIn, hunarmed]
  · exact absurd rfl ht

/-! ### The command index -/

/-- R27, D22: where the program counter of one step takes the command index. -/
theorem advance_ci (s : State) :
    (advance s).ci = s.ci ∨
    (s.stage = .cmd ∧ (advance s).stage = .cmd ∧ (advance s).ci = s.ci + 1 ∧ (advance s).k = 0) ∨
    (s.stage = .setup ∧ (advance s).stage = .cmd ∧ (advance s).ci = 0 ∧ (advance s).k = 0) := by
  rcases advance_cases s with ⟨-, e⟩ |
    ⟨-, ⟨-, e⟩ | ⟨hs, -, e⟩ | ⟨-, -, e⟩ | ⟨hs, -, e⟩ | ⟨-, -, e⟩ | ⟨-, e⟩⟩ <;> rw [e]
  · exact .inl rfl
  · exact .inl rfl
  · exact .inr (.inr ⟨hs, rfl, rfl, rfl⟩)
  · exact .inl rfl
  · exact .inr (.inl ⟨hs, rfl, rfl, rfl⟩)
  · exact .inl rfl
  · exact .inl rfl

theorem microStep_ci (h : microStep s = .next t) :
    t.ci = s.ci ∨ (s.stage = .cmd ∧ t.stage = .cmd ∧ t.ci = s.ci + 1 ∧ t.k = 0) ∨
    (s.stage = .setup ∧ t.stage = .cmd ∧ t.ci = 0 ∧ t.k = 0) := by
  obtain ⟨mu, s', -, hp, rfl⟩ | ⟨q, x, rfl⟩ := microStep_completes_or_raises h
  · have f := perform_frame hp
    obtain ⟨r, n, hticked, -⟩ := tickUnmap_eq (advance s')
    simpa only [hticked, f.ci, f.stage] using advance_ci s'
  · exact .inl rfl

end Sys2Proof.Machine

open Sys2Proof Sys2Proof.Machine

/-- Settles O43: inside an operation `rs_valid` does not rise, and of the host events only an opening raises it. -/
theorem spaceBecomesValidOnlyByOpening : Obligations.SpaceBecomesValidOnlyByOpening := by
  intro s t h hs ht
  rcases step_next h with ⟨-, hm⟩ | ⟨-, -, rfl⟩ | ⟨e, rest, -, hi, he⟩
  · simp [microStep_rsValid hm ht] at hs
  · simp [ht] at hs
  · obtain ⟨p, rfl, ho⟩ := takeInput_rises he hs ht
    obtain ⟨hidle, hpage, page, hopen, rfl⟩ := openSpace_next ho
    exact ⟨p, page, rest, hi, hidle, hpage, hopen, rfl⟩

/-- Settles O44: with no UNMAP armed `rs_valid` falls only by the two host events, and a step with an UNMAP armed is
the step without it and then the tick. -/
theorem spaceBecomesInvalidOnlyByUnmapOrReset : Obligations.SpaceBecomesInvalidOnlyByUnmapOrReset := by
  refine ⟨?_, fun s rest hb hi => step_event hb hi, fun s n rest hb hi => step_event hb hi, ?_⟩
  · intro s t h hs ht
    rw [or_iff_not_imp_left, not_not]
    intro hn
    rcases step_next h with ⟨-, hm⟩ | ⟨-, -, rfl⟩ | ⟨e, rest, -, hi, he⟩
    · simp [(microStep_unarmed hm hn).2, hs] at ht
    · simp [hs] at ht
    · rcases takeInput_falls he hn hs ht with rfl | ⟨par, rfl⟩
      · exact .inl ⟨rest, hi⟩
      · exact .inr ⟨par, rest, hi⟩
  · intro s t n hb hn h ht
    have hm : microStep s = .next t := step_busy hb ▸ h
    have harmed (m : Option Nat) : step { s with unmapIn := m } = .next (tickUnmap { t with unmapIn := m }) :=
      (step_busy (s := { s with unmapIn := m }) hb).trans (microStep_setUnmapIn hm hn ht m)
    have hlast : tickUnmap { t with unmapIn := some 1 } = { t with rsValid := false } := by
      simp [tickUnmap, armUnmap, unmap, (microStep_unarmed hm hn).1]
    exact ⟨hlast ▸ harmed (some 1), harmed (some (n + 2))⟩

/-- Settles O50: every move of the program counter keeps `ci`, goes to the next command or to the first. -/
theorem commandIndexOnlyCountsUp : Obligations.CommandIndexOnlyCountsUp :=
  fun _ _ _ hb h => microStep_ci (step_busy hb ▸ h)

/-- Settles O47: every part of the invariant is evaluated at the reset state. -/
theorem invariantAtReset : Obligations.InvariantAtReset := by
  unfold Obligations.InvariantAtReset
  decide

/-- Settles O56: the codes of Output and Input differ, since the mode codes are pairwise distinct. -/
theorem driveStates : Obligations.DriveStates := by
  intro s p hwf
  obtain ⟨-, hcodes, -⟩ := hwf
  have hne : s.par.modeCode.input ≠ s.par.modeCode.output := by
    simp only [ModeCode.list, List.nodup_cons, List.mem_cons, not_or] at hcodes
    exact hcodes.1.1
  refine ⟨fun h => if_pos h, fun h => ?_, fun hout hin => ?_⟩
  · exact (if_neg (h ▸ hne)).trans (if_pos h)
  · exact (if_neg hout).trans (if_neg hin)

end

section
/-! PROOFS. What no operation changes. An item of an operation is built of read-modify-writes of mode fields, level
writes and delays; while it is performed, the value a write takes from `T` is the one just read from the register it
writes (spec/40_gpio_controller.md R120, R122; spec/41_serial_transmitter.md R141 to R147, R152). -/

namespace Sys2Proof.Machine

variable {s t u : State} {o : Instr} {mu : Micro} {c : Params} {M V : Nat → Prop} {L : List Micro}

/-! ### What an item is built of -/

/-- A list of micro-operations built of mode settings of pins in `M`, level writes of pins in `V`, and delays. -/
inductive Built (c : Params) (M V : Nat → Prop) : List Micro → Prop where
  | nil : Built c M V []
  | mode {p : Nat} {m : PinMode} {L : List Micro} : M p → Built c M V L → Built c M V (setPinModeMicros c p m ++ L)
  | level {p : Nat} {l : Bool} {L : List Micro} : V p → Built c M V L → Built c M V (setPinLevelMicros c p l ++ L)
  | dly {n : Nat} {L : List Micro} : Built c M V L → Built c M V (.dly n :: L)

/-- The three pins of the serial transmitter (R8). -/
def wirePin (c : Params) (p : Nat) : Prop := p = c.pinClk.val ∨ p = c.pinData.val ∨ p = c.pinCs.val

/-- The pins whose mode an operation sets (R120, R144, R145, R147). -/
def modePins (c : Params) : Instr → Nat → Prop
  | .setPinMode p _ => fun q => q = p ∧ p ≤ 27
  | .setup => wirePin c
  | .teardown => wirePin c
  | .run => wirePin c
  | .xfer _ => fun _ => False
  | .wait => fun _ => False
  | .setPinLevel _ _ => fun _ => False

/-- The pins whose level an operation sets (R122, R141, R144, R147). -/
def levelPins (c : Params) : Instr → Nat → Prop
  | .setPinLevel p _ => fun q => q = p ∧ p ≤ 27
  | .xfer _ => wirePin c
  | .setup => wirePin c
  | .run => wirePin c
  | .setPinMode _ _ => fun _ => False
  | .wait => fun _ => False
  | .teardown => fun _ => False

theorem wirePin_le {p : Nat} (h : wirePin c p) : p ≤ 27 := by
  rcases h with rfl | rfl | rfl <;> exact pin_le _

theorem modePins_le {p : Nat} (h : modePins c o p) : p ≤ 27 := by
  cases o with
  | setPinMode q m => obtain ⟨rfl, hq⟩ := h; exact hq
  | setup => exact wirePin_le h
  | teardown => exact wirePin_le h
  | run => exact wirePin_le h
  | xfer w => exact h.elim
  | wait => exact h.elim
  | setPinLevel q l => exact h.elim

theorem levelPins_le {p : Nat} (h : levelPins c o p) : p ≤ 27 := by
  cases o with
  | setPinLevel q l => obtain ⟨rfl, hq⟩ := h; exact hq
  | xfer w => exact wirePin_le h
  | setup => exact wirePin_le h
  | run => exact wirePin_le h
  | setPinMode q m => exact h.elim
  | wait => exact h.elim
  | teardown => exact h.elim

/-- The three pins of the serial transmitter are in a set. -/
def HasPins (c : Params) (S : Nat → Prop) : Prop := S c.pinClk ∧ S c.pinData ∧ S c.pinCs

namespace Built

theorem append {L' : List Micro} (h : Built c M V L) (h' : Built c M V L') : Built c M V (L ++ L') := by
  induction h with
  | nil => exact h'
  | mode hp _ ih => rw [List.append_assoc]; exact .mode hp ih
  | level hp _ ih => rw [List.append_assoc]; exact .level hp ih
  | dly _ ih => exact .dly ih

theorem setPinMode {p : Nat} (hp : M p) (m : PinMode) : Built c M V (setPinModeMicros c p m) := .mode hp .nil

theorem setPinLevel {p : Nat} (hp : V p) (l : Bool) : Built c M V (setPinLevelMicros c p l) := .level hp .nil

theorem wait : Built c M V waitMicros := .dly .nil

theorem bit (hV : HasPins c V) (b : Bool) : Built c M V (bitMicros c b) := by
  obtain ⟨hclk, hdata, -⟩ := hV
  exact ((((setPinLevel hdata b).append (setPinLevel hclk false)).append (.dly .nil)).append
    (setPinLevel hclk true)).append (.dly .nil)

theorem bits (hV : HasPins c V) (bs : List Bool) : Built c M V (bs.flatMap (bitMicros c)) := by
  induction bs with
  | nil => exact .nil
  | cons b bs ih => exact (bit hV b).append ih

theorem xfer (hV : HasPins c V) (w : BitVec 9) : Built c M V (xferMicros c w) := by
  obtain ⟨-, hdata, hcs⟩ := id hV
  exact (((setPinLevel hcs false).append (bits hV _)).append (setPinLevel hdata false)).append (setPinLevel hcs true)

theorem setup (hM : HasPins c M) (hV : HasPins c V) : Built c M V (setupMicros c) := by
  obtain ⟨mclk, mdata, mcs⟩ := hM
  obtain ⟨vclk, vdata, vcs⟩ := hV
  exact (((((setPinMode mclk _).append (setPinMode mdata _)).append (setPinMode mcs _)).append
    (setPinLevel vcs _)).append (setPinLevel vclk _)).append (setPinLevel vdata _)

theorem teardown (hM : HasPins c M) : Built c M V (teardownMicros c) := by
  obtain ⟨mclk, mdata, mcs⟩ := hM
  exact ((setPinMode mclk _).append (setPinMode mdata _)).append (setPinMode mcs _)

theorem cell (hV : HasPins c V) (w : Cell) : Built c M V (cellMicros c w) := by
  unfold cellMicros
  split
  · exact xfer hV _
  · exact wait
  · exact .nil

theorem run (hM : HasPins c M) (hV : HasPins c V) (g : Stage) (ci : Nat) : Built c M V (runMicros c g ci) := by
  cases g with
  | only => exact .nil
  | setup => exact setup hM hV
  | cmd =>
    simp only [runMicros]
    split
    · exact cell hV _
    · exact .nil
  | teardown => exact teardown hM

/-- Every item of an operation that names no bad pin is built for the pins of the operation (R120, R122, R147). -/
theorem item (hpin : badPin o = none) (g : Stage) (ci : Nat) :
    Built c (modePins c o) (levelPins c o) (itemMicros c o g ci) := by
  have hwire : HasPins c (wirePin c) := ⟨.inl rfl, .inr (.inl rfl), .inr (.inr rfl)⟩
  cases o with
  | xfer w => exact xfer hwire w
  | wait => exact wait
  | setPinMode p m => exact setPinMode ⟨rfl, pinValid_iff.1 (by simpa [badPin] using hpin)⟩ m
  | setPinLevel p l => exact setPinLevel ⟨rfl, pinValid_iff.1 (by simpa [badPin] using hpin)⟩ l
  | setup => exact setup hwire hwire
  | teardown => exact teardown hwire
  | run => exact run hwire hwire g ci

/-- A read in such a list is of the mode register of one of its pins. -/
theorem rd_mem (h : Built c M V L) {i : Nat} (hmu : .rd i ∈ L) : ∃ p, M p ∧ i = fselIndex p := by
  induction h with
  | nil => cases hmu
  | @mode p m L hp _ ih =>
    rcases List.mem_append.1 hmu with h1 | h1
    · exact ⟨p, hp, by simpa [setPinModeMicros] using h1⟩
    · exact ih h1
  | level _ _ ih => exact ih (by simpa [setPinLevelMicros] using hmu)
  | dly _ ih => exact ih (by simpa using hmu)

/-- A write in such a list sets the mode field of one of its pins or the level of one. -/
theorem wr_mem (h : Built c M V L) {i : Nat} {e : Expr} (hmu : .wr i e ∈ L) :
    (∃ p code, M p ∧ i = fselIndex p ∧ e = .insertT (fieldShift p) code) ∨
    (∃ p l, V p ∧ i = levelIndex c p l ∧ e = .const (levelWord p)) := by
  induction h with
  | nil => cases hmu
  | @mode p m L hp _ ih =>
    rcases List.mem_append.1 hmu with h1 | h1
    · obtain ⟨hi, he⟩ : i = fselIndex p ∧ e = _ := by simpa [setPinModeMicros] using h1
      exact .inl ⟨p, _, hp, hi, he⟩
    · exact ih h1
  | @level p l L hp _ ih =>
    rcases List.mem_append.1 hmu with h1 | h1
    · obtain ⟨hi, he⟩ : i = levelIndex c p l ∧ e = _ := by simpa [setPinLevelMicros] using h1
      exact .inr ⟨p, l, hp, hi, he⟩
    · exact ih h1
  | dly _ ih => exact ih (by simpa using hmu)

/-- A write that takes its value from `T` stands right after the read of the same register (R120). -/
theorem read_before_insertT (h : Built c M V L) : ∀ {k i sh : Nat} {code : BitVec 3},
    L[k]? = some (.wr i (.insertT sh code)) → ∃ k', k = k' + 1 ∧ L[k']? = some (.rd i) := by
  induction h with
  | nil => intro k i sh code hk; simp at hk
  | @mode p m L _ _ ih =>
    intro k i sh code hk
    match k with
    | 0 => simp [setPinModeMicros] at hk
    | 1 =>
      obtain ⟨rfl, -⟩ : fselIndex p = i ∧ _ := by simpa [setPinModeMicros] using hk
      exact ⟨0, rfl, rfl⟩
    | k + 2 =>
      obtain ⟨k', rfl, hr⟩ := ih (k := k) hk
      exact ⟨k' + 2, rfl, hr⟩
  | level _ _ ih =>
    intro k i sh code hk
    match k with
    | 0 => simp [setPinLevelMicros] at hk
    | k + 1 =>
      obtain ⟨k', rfl, hr⟩ := ih (k := k) hk
      exact ⟨k' + 1, rfl, hr⟩
  | dly _ ih =>
    intro k i sh code hk
    match k with
    | 0 => simp at hk
    | k + 1 =>
      obtain ⟨k', rfl, hr⟩ := ih (k := k) hk
      exact ⟨k' + 1, rfl, hr⟩

end Built

/-! ### What an operation may change -/

/-- What an operation that sets modes of the pins in `M` and levels of the pins in `V` leaves as it was. -/
structure OperationFrame (M V : Nat → Prop) (s t : State) : Prop where
  par : t.par = s.par
  page : t.page = s.page
  inputs : t.inputs = s.inputs
  draws : t.draws = s.draws
  regT : (∀ p, ¬ M p) → t.t = s.t
  fsel : ∀ (j : Nat) (h : j < 7) (b : Nat),
    (∀ p, M p → j = fselIndex p → b < fieldShift p ∨ fieldShift p + 3 ≤ b) →
      t.fsel[j].getLsbD b = s.fsel[j].getLsbD b
  lat : ∀ b, ¬ V b → t.lat.getLsbD b = s.lat.getLsbD b
  trace : s.trace <+: t.trace
  rsValid : t.rsValid = s.rsValid ∨ t.rsValid = false
  fault : t.fault = s.fault ∨ t.phase = .aborted

namespace OperationFrame

theorem of_launch (o : Instr) (s : State) : OperationFrame M V s (launch o s) :=
  ⟨rfl, rfl, rfl, rfl, fun _ => rfl, fun _ _ _ _ => rfl, fun _ _ => rfl, List.prefix_rfl, .inl rfl, .inl rfl⟩

theorem of_raiseWith (q : FaultKind) (o : Option Instr) (g : Stage) (ci k : Nat) (x : FaultInfo) (s : State) :
    OperationFrame M V s (raiseWith q o g ci k x s) :=
  ⟨rfl, rfl, rfl, rfl, fun _ => rfl, fun _ _ _ _ => rfl, fun _ _ => rfl, List.prefix_append _ _, .inl rfl, .inr rfl⟩

theorem trans (h : OperationFrame M V s t) (ht : t.phase ≠ .aborted) (g : OperationFrame M V t u) :
    OperationFrame M V s u where
  par := g.par.trans h.par
  page := g.page.trans h.page
  inputs := g.inputs.trans h.inputs
  draws := g.draws.trans h.draws
  regT hM := (g.regT hM).trans (h.regT hM)
  fsel j hj b hb := (g.fsel j hj b hb).trans (h.fsel j hj b hb)
  lat b hb := (g.lat b hb).trans (h.lat b hb)
  trace := h.trace.trans g.trace
  rsValid := g.rsValid.elim (fun e => e ▸ h.rsValid) .inr
  fault := g.fault.imp_left fun e => e.trans (h.fault.resolve_right ht)

/-- Moving the program counter and ticking the countdown stay inside the frame. -/
theorem moved (h : OperationFrame M V s t) (ht : t.phase ≠ .aborted) :
    OperationFrame M V s (tickUnmap (advance t)) := by
  obtain ⟨g, ci, k, ph, hadv⟩ := advance_eq_relabel t
  obtain ⟨r, n, htick, hr⟩ := tickUnmap_eq (advance t)
  rw [htick, hadv]
  refine ⟨h.par, h.page, h.inputs, h.draws, h.regT, h.fsel, h.lat, h.trace, ?_, .inl (h.fault.resolve_right ht)⟩
  rcases hr with rfl | rfl
  · rw [hadv]; exact h.rsValid
  · exact .inr rfl

end OperationFrame

/-! ### One micro-operation -/

section
variable (hM : ∀ p, M p → p ≤ 27) (hV : ∀ p, V p → p ≤ 27) (hlevel : ∀ p, V p → 7 ≤ s.par.gpset ∧ 7 ≤ s.par.gpclr)

include hM in
theorem memRead_mode_frame {p i : Nat} {v : Word} (hp : M p) (hi : i = fselIndex p) (h : memRead i s = .ok v t) :
    OperationFrame M V s (writeT v t) := by
  obtain ⟨-, -, ⟨-, -, rfl⟩ | ⟨hge, -⟩⟩ := memRead_ok h
  · exact ⟨rfl, rfl, rfl, rfl, fun hno => absurd hp (hno p), fun _ _ _ _ => rfl, fun _ _ => rfl,
      List.prefix_append _ _, .inl rfl, .inl rfl⟩
  · have := fselIndex_valid (hM p hp)
    omega

/-- A write of a mode field, when `T` holds the register it writes. -/
theorem memWrite_mode_frame {p i : Nat} {code : BitVec 3} (hp : M p) (hi : i = fselIndex p)
    (hT : ∃ h : i < 7, s.t = s.fsel[i])
    (h : memWrite i (insertField s.t (fieldShift p) code) s = .ok () t) : OperationFrame M V s t := by
  obtain ⟨hlt, hT⟩ := hT
  obtain ⟨-, -, ⟨-, rfl⟩ | ⟨hge, -⟩ | ⟨hge, -⟩⟩ := memWrite_ok h
  · refine ⟨rfl, rfl, rfl, rfl, fun _ => rfl, ?_, fun _ _ => rfl, List.prefix_append _ _, .inl rfl, .inl rfl⟩
    intro j hj b hb
    by_cases hij : i = j
    · subst hij
      have hout : ¬ (fieldShift p ≤ b ∧ b < fieldShift p + 3) := by have := hb p hp hi; omega
      simp [insertField_getLsbD _ _ (fieldShift_le p), hT, hout]
    · simp [hij]
  · omega
  · omega

include hV hlevel in
theorem memWrite_level_frame {p i : Nat} {l : Bool} (hp : V p) (hi : i = levelIndex s.par p l)
    (h : memWrite i (levelWord p) s = .ok () t) : OperationFrame M V s t := by
  have hge : 7 ≤ i := by
    obtain ⟨hset, hclr⟩ := hlevel p hp
    rw [hi, levelIndex_valid s.par (hV p hp)]
    split <;> assumption
  have hlat (b : Nat) (hb : ¬ V b) (l : Bool) : (latchTo p l s.lat).getLsbD b = s.lat.getLsbD b := by
    rw [latchTo_getLsbD (hV p hp), if_neg (by rintro rfl; exact hb hp)]
  obtain ⟨-, -, ⟨hlt, -⟩ | ⟨-, -, rfl⟩ | ⟨-, -, -, rfl⟩⟩ := memWrite_ok h
  · omega
  · exact ⟨rfl, rfl, rfl, rfl, fun _ => rfl, fun _ _ _ _ => rfl, fun b hb => hlat b hb true,
      List.prefix_append _ _, .inl rfl, .inl rfl⟩
  · exact ⟨rfl, rfl, rfl, rfl, fun _ => rfl, fun _ _ _ _ => rfl, fun b hb => hlat b hb false,
      List.prefix_append _ _, .inl rfl, .inl rfl⟩

include hM hV hlevel in
theorem perform_frame_of_built (hL : Built s.par M V L) (hmu : mu ∈ L)
    (hT : ∀ i sh code, mu = .wr i (.insertT sh code) → ∃ h : i < 7, s.t = s.fsel[i])
    {x : Unit} (h : perform mu s = .ok x t) : OperationFrame M V s t := by
  rcases perform_ok h with ⟨i, v, s', rfl, hr, rfl⟩ | ⟨i, e, rfl, hw⟩ | ⟨n, rfl, rfl⟩
  · obtain ⟨p, hp, hi⟩ := hL.rd_mem hmu
    exact memRead_mode_frame hM hp hi hr
  · obtain ⟨p, code, hp, hi, rfl⟩ | ⟨p, l, hp, hi, rfl⟩ := hL.wr_mem hmu
    · exact memWrite_mode_frame hp hi (hT i _ _ rfl) hw
    · exact memWrite_level_frame hV hlevel hp hi hw
  · exact ⟨rfl, rfl, rfl, rfl, fun _ => rfl, fun _ _ _ _ => rfl, fun _ _ => rfl, List.prefix_append _ _, .inl rfl,
      .inl rfl⟩

end

/-! ### A whole operation -/

/-- The operation `o` is in progress, and where it is about to write a value taken from `T`, `T` holds the register
it writes. -/
structure InProgress (o : Instr) (s : State) : Prop where
  op : s.op = some o
  pin : badPin o = none
  loaded : ∀ i sh code, (currentItem s)[s.k]? = some (.wr i (.insertT sh code)) → ∃ h : i < 7, s.t = s.fsel[i]

namespace InProgress

theorem built (h : InProgress o s) :
    Built s.par (modePins s.par o) (levelPins s.par o) (currentItem s) := by
  rw [currentItem, h.op]
  exact .item h.pin _ _

/-- At the first position of an item nothing is written from `T`. -/
theorem first (ho : s.op = some o) (hpin : badPin o = none) (hk : s.k = 0) : InProgress o s := by
  refine ⟨ho, hpin, fun i sh code hmu => ?_⟩
  have hbuilt : Built s.par (modePins s.par o) (levelPins s.par o) (currentItem s) := by
    rw [currentItem, ho]
    exact .item hpin _ _
  obtain ⟨k', hk', -⟩ := hbuilt.read_before_insertT hmu
  omega

/-- The read of a register loads `T` for the write of it that follows. -/
theorem perform (h : InProgress o s) (hmu : (currentItem s)[s.k]? = some mu) {x : Unit}
    (hp : perform mu s = .ok x t) {i sh : Nat} {code : BitVec 3}
    (hnext : (currentItem t)[t.k + 1]? = some (.wr i (.insertT sh code))) : ∃ h : i < 7, t.t = t.fsel[i] := by
  have f := perform_frame hp
  rw [f.currentItem_eq, f.k] at hnext
  obtain ⟨k', hk', hrd⟩ := h.built.read_before_insertT hnext
  obtain rfl : s.k = k' := by omega
  obtain rfl : mu = .rd i := by simpa [hmu] using hrd
  obtain ⟨p, hpin, rfl⟩ := h.built.rd_mem (List.mem_of_getElem? hmu)
  have hlt := fselIndex_valid (modePins_le hpin)
  obtain ⟨i', v, s', hi, hr, rfl⟩ | ⟨_, _, hi, -⟩ | ⟨_, hi, -⟩ := perform_ok hp <;> cases hi
  obtain ⟨-, -, ⟨-, rfl, rfl⟩ | ⟨hge, -⟩⟩ := memRead_ok hr
  · exact ⟨hlt, rfl⟩
  · omega

end InProgress

theorem microStep_operationFrame (h : InProgress o s) (hb : s.phase = .busy)
    (hlevel : ∀ p, levelPins s.par o p → 7 ≤ s.par.gpset ∧ 7 ≤ s.par.gpclr) (hm : microStep s = .next t) :
    OperationFrame (modePins s.par o) (levelPins s.par o) s t := by
  obtain ⟨mu, s', hmu, hp, rfl⟩ | ⟨q, x, rfl⟩ := microStep_completes_or_raises hm
  · have hframe := perform_frame_of_built (fun _ => modePins_le) (fun _ => levelPins_le) hlevel h.built
      (List.mem_of_getElem? hmu) (fun i sh code e => h.loaded i sh code (e ▸ hmu)) hp
    exact hframe.moved (by simp [(perform_frame hp).phase, hb])
  · exact .of_raiseWith _ _ _ _ _ _ _

theorem microStep_inProgress (h : InProgress o s) (hm : microStep s = .next t) (hb : t.phase = .busy) :
    InProgress o t := by
  obtain ⟨mu, s', hmu, hp, rfl⟩ | ⟨q, x, rfl⟩ := microStep_completes_or_raises hm
  · have ho : s'.op = some o := (perform_frame hp).op.trans h.op
    obtain ⟨r, n, htick, -⟩ := tickUnmap_eq (advance s')
    rw [htick] at hb ⊢
    rcases advance_cases s' with ⟨-, e⟩ |
      ⟨-, ⟨-, e⟩ | ⟨-, -, e⟩ | ⟨-, -, e⟩ | ⟨-, -, e⟩ | ⟨-, -, e⟩ | ⟨-, e⟩⟩ <;> rw [e] at hb ⊢
    · exact ⟨ho, h.pin, fun i sh code hnext => h.perform hmu hp hnext⟩
    · cases hb
    · exact .first ho h.pin rfl
    · exact .first ho h.pin rfl
    · exact .first ho h.pin rfl
    · exact .first ho h.pin rfl
    · cases hb
  · cases hb

/-- What an operation changes, however it ends: at most the mode fields and the levels of its own pins. -/
theorem exec_operationFrame (hlevel : ∀ p, levelPins s.par o p → 7 ≤ s.par.gpset ∧ 7 ≤ s.par.gpclr)
    (h : exec o s = .next t) : OperationFrame (modePins s.par o) (levelPins s.par o) s t := by
  refine (exec_preserves (P := fun u => OperationFrame (modePins s.par o) (levelPins s.par o) s u ∧
    (u.phase = .busy → InProgress o u)) h (fun u hu => ?_) fun {u v} hb hu hm => ?_).1
  · obtain ⟨-, -, ⟨p, -, rfl⟩ | ⟨hpin, rfl⟩⟩ := start_next hu
    · exact ⟨.of_raiseWith _ _ _ _ _ _ _, fun hb => by cases hb⟩
    · exact ⟨.of_launch _ _, fun _ => .first rfl hpin rfl⟩
  · obtain ⟨hframe, hprog⟩ := hu
    have hstep := microStep_operationFrame (hprog hb) hb (by rwa [hframe.par]) hm
    rw [hframe.par] at hstep
    exact ⟨hframe.trans (by simp [hb]) hstep, microStep_inProgress (hprog hb) hm⟩

end Sys2Proof.Machine

open Sys2Proof Sys2Proof.Machine

/-- Settles O31: an operation changes at most the mode fields and the levels of valid pins, and those lie in
`FSEL[0..2]`, below bit 30 and below latch bit 28. -/
theorem everyOperationFrame : Obligations.EveryOperationFrame := by
  intro i s t hwf h
  obtain ⟨-, -, ⟨hset, -⟩, ⟨hclr, -⟩, -⟩ := hwf
  have f := exec_operationFrame (fun _ _ => ⟨hset, hclr⟩) h
  refine ⟨f.par, f.page, f.inputs, f.draws, fun j hj h3 => ?_, fun j hj b hb => ?_, fun b hb => ?_, f.trace,
    f.rsValid, f.fault⟩
  · refine BitVec.eq_of_getLsbD_eq fun b _ => f.fsel j hj b fun p hp hjp => ?_
    have hp27 := modePins_le hp
    simp only [fselIndex, Config.fselPins] at hjp
    omega
  · refine f.fsel j hj b fun p _ _ => .inr ?_
    have := fieldShift_le p
    omega
  · refine f.lat b fun hp => ?_
    have := levelPins_le hp
    omega

end

section
/-! PROOFS. The registers are the replay of the trace: one micro-operation, one step of the sequencer, an operation, a
host event (spec/10_state.md R32, R34; spec/20_memory.md R61). -/

namespace Sys2Proof.Machine

open Sys2Proof.Expected

variable {s t u : State} {o : Instr} {mu : Micro}

/-! ### Replaying one list of events after another -/

theorem replayFsel_append (ev ev' : List Event) (f : Vector Word 7) :
    replayFsel f (ev ++ ev') = replayFsel (replayFsel f ev) ev' := by
  induction ev generalizing f with
  | nil => rfl
  | cons e ev ih => cases e <;> exact ih _

theorem replayLat_append (c : Params) (ev ev' : List Event) (l : Word) :
    replayLat c l (ev ++ ev') = replayLat c (replayLat c l ev) ev' := by
  induction ev generalizing l with
  | nil => rfl
  | cons e ev ih => cases e <;> exact ih _

theorem readsAgree_append (ev ev' : List Event) (f : Vector Word 7) :
    readsAgree f (ev ++ ev') ↔ readsAgree f ev ∧ readsAgree (replayFsel f ev) ev' := by
  induction ev generalizing f with
  | nil => simp [readsAgree, replayFsel]
  | cons e ev ih =>
    cases e with
    | read i v => exact (and_congr_right fun _ => ih f).trans and_assoc.symm
    | write i v => exact ih _
    | delay n => exact ih f
    | fault r => exact ih f

/-! ### From one state to another -/

/-- From `s` to `t` the trace gained events whose replay takes the registers of `s` to those of `t` and with whose
reads it agrees; the parameters, which say where SET and CLEAR are, are the same (R61). -/
def Replayed (s t : State) : Prop :=
  t.par = s.par ∧ ∃ ev, t.trace = s.trace ++ ev ∧ t.fsel = replayFsel s.fsel ev ∧
    t.lat = replayLat s.par s.lat ev ∧ readsAgree s.fsel ev

namespace Replayed

theorem trans (h : Replayed s t) (g : Replayed t u) : Replayed s u := by
  obtain ⟨hpar, ev, htrace, hfsel, hlat, hreads⟩ := h
  obtain ⟨gpar, ev', gtrace, gfsel, glat, greads⟩ := g
  refine ⟨gpar.trans hpar, ev ++ ev', ?_, ?_, ?_, ?_⟩
  · rw [gtrace, htrace, List.append_assoc]
  · rw [gfsel, hfsel, replayFsel_append]
  · rw [glat, hlat, hpar, replayLat_append]
  · exact (readsAgree_append _ _ _).2 ⟨hreads, hfsel ▸ greads⟩

/-- A move that leaves the registers, the trace and the parameters as they are. -/
theorem of_silent (hpar : t.par = s.par) (htrace : t.trace = s.trace) (hfsel : t.fsel = s.fsel)
    (hlat : t.lat = s.lat) : Replayed s t :=
  ⟨hpar, [], by simp [htrace], hfsel, hlat, trivial⟩

theorem refl (s : State) : Replayed s s := of_silent rfl rfl rfl rfl

/-- A fault adds an event that is no access (R176). -/
theorem of_raiseWith (q : FaultKind) (o : Option Instr) (g : Stage) (ci k : Nat) (x : FaultInfo) (s : State) :
    Replayed s (raiseWith q o g ci k x s) :=
  ⟨rfl, [.fault _], rfl, rfl, rfl, trivial⟩

theorem of_raise (q : FaultKind) (x : FaultInfo) (s : State) : Replayed s (raise q x s) := of_raiseWith _ _ _ _ _ _ _

/-- A read returns what the register holds; a draw of SET or CLEAR is not a function-select register (R56). -/
theorem of_memRead {i : Nat} {v : Word} (h : memRead i s = .ok v t) : Replayed s t := by
  obtain ⟨-, -, ⟨hi, rfl, rfl⟩ | ⟨hi, -, -, rfl⟩⟩ := memRead_ok h
  · exact ⟨rfl, [.read i _], rfl, rfl, rfl, fun _ => rfl, trivial⟩
  · exact ⟨rfl, [.read i v], rfl, rfl, rfl, fun hlt => absurd hlt (Nat.not_lt.2 hi), trivial⟩

/-- A write changes exactly the register its event names (R57). -/
theorem of_memWrite {i : Nat} {v : Word} {x : Unit} (h : memWrite i v s = .ok x t) : Replayed s t := by
  obtain ⟨-, -, ⟨hi, rfl⟩ | ⟨hi, rfl, rfl⟩ | ⟨hi, hset, rfl, rfl⟩⟩ := memWrite_ok h
  · exact ⟨rfl, [.write i v], rfl, by simp [replayFsel, hi], by simp [replayLat, hi], trivial⟩
  · have hge : ¬ s.par.gpset < 7 := Nat.not_lt.2 hi
    exact ⟨rfl, [.write _ v], rfl, by simp [replayFsel, hge], by simp [replayLat, hge], trivial⟩
  · have hge : ¬ s.par.gpclr < 7 := Nat.not_lt.2 hi
    exact ⟨rfl, [.write _ v], rfl, by simp [replayFsel, hge], by simp [replayLat, hge, hset], trivial⟩

theorem of_perform {x : Unit} (h : perform mu s = .ok x t) : Replayed s t := by
  obtain ⟨i, v, s', rfl, hr, rfl⟩ | ⟨i, e, rfl, hw⟩ | ⟨n, rfl, rfl⟩ := perform_ok h
  · exact (of_memRead hr).trans (of_silent rfl rfl rfl rfl)
  · exact of_memWrite hw
  · exact ⟨rfl, [.delay n], rfl, rfl, rfl, trivial⟩

/-- The program counter and the countdown touch neither the registers nor the trace (R153). -/
theorem of_moved (s : State) : Replayed s (tickUnmap (advance s)) := by
  obtain ⟨r, n, htick, -⟩ := tickUnmap_eq (advance s)
  obtain ⟨g, ci, k, ph, hadv⟩ := advance_eq_relabel s
  rw [htick, hadv]
  exact of_silent rfl rfl rfl rfl

theorem of_microStep (h : microStep s = .next t) : Replayed s t := by
  obtain ⟨mu, s', -, hp, rfl⟩ | ⟨q, x, rfl⟩ := microStep_completes_or_raises h
  · exact (of_perform hp).trans (of_moved s')
  · exact of_raise q x s

theorem of_start (h : start o s = .next t) : Replayed s t := by
  obtain ⟨-, -, ⟨p, -, rfl⟩ | ⟨-, rfl⟩⟩ := start_next h
  · exact of_raiseWith _ _ _ _ _ _ _
  · exact of_silent rfl rfl rfl rfl

theorem of_exec (h : exec o s = .next t) : Replayed s t :=
  exec_preserves (P := Replayed s) h (fun _ => of_start) fun _ hu hm => hu.trans (of_microStep hm)

theorem of_armUnmap (n : Nat) (s : State) : Replayed s (armUnmap n s) := by
  cases n <;> exact of_silent rfl rfl rfl rfl

/-- Every host event but a reset (R58, R60, R70, R151). -/
theorem of_takeInput {e : HostEvent} (he : ∀ par, e ≠ .reset par) (h : takeInput exec e s = .next t) :
    Replayed s t := by
  cases e with
  | call w =>
    obtain ⟨i, -, hi⟩ := fetch_next h
    exact of_exec hi
  | start w =>
    obtain ⟨i, -, hi⟩ := fetch_next h
    exact of_start hi
  | memRead i =>
    obtain ⟨-, ⟨v, hok⟩ | hr⟩ := hostAccess_next h
    · exact of_memRead hok
    · obtain ⟨-, rfl⟩ | ⟨-, -, rfl⟩ := memRead_raised hr <;> exact of_raise _ _ s
  | memWrite i v =>
    obtain ⟨-, ⟨x, hok⟩ | hr⟩ := hostAccess_next h
    · exact of_memWrite hok
    · obtain ⟨-, rfl⟩ | ⟨-, -, rfl⟩ := memWrite_raised hr <;> exact of_raise _ _ s
  | unmapAfter n => cases h; exact of_armUnmap n s
  | openSpace p =>
    obtain ⟨-, -, page, -, rfl⟩ := openSpace_next h
    exact of_silent rfl rfl rfl rfl
  | reset par => exact absurd rfl (he par)

end Replayed

end Sys2Proof.Machine

open Sys2Proof Sys2Proof.Machine

/-- Settles O37: every piece of a step but a reset appends events whose replay gives the registers after it. -/
theorem registersReplayTheTrace : Obligations.RegistersReplayTheTrace := by
  intro s t hreset h
  have hreplayed : Replayed s t := by
    rcases step_next h with ⟨-, hm⟩ | ⟨-, -, rfl⟩ | ⟨e, rest, -, hi, he⟩
    · exact .of_microStep hm
    · exact .refl t
    · have hno : ∀ par, e ≠ .reset par := by
        rintro par rfl
        exact hreset par rest hi
      exact (Replayed.of_takeInput hno he : Replayed { s with inputs := rest } t)
  exact hreplayed.2

end

section
/-! PROOFS. The access primitives in every case, and a direct access by the host
(spec/20_memory.md R55 to R58; spec/60_exceptions.md R172, R173, R177). -/

namespace Sys2Proof.Machine

open Sys2Proof.Expected

variable {s t : State} {i : Nat} {v : Word}

/-! ### The cases of the primitives that complete the laws of access -/

/-- The state after a fault of a step, with its whole record (R176, R177). -/
theorem raise_eq_abortedWith (q : FaultKind) (x : FaultInfo) (s : State) :
    raise q x s = abortedWith s ⟨q, faultCode q, s.op, s.stage, s.ci, s.k, x⟩ := rfl

theorem memRead_outOfRange (hi : 1024 ≤ i) : memRead i s = .raised (raise .registerIndexOutOfRange (.index i) s) :=
  if_pos hi

theorem memWrite_outOfRange (hi : 1024 ≤ i) :
    memWrite i v s = .raised (raise .registerIndexOutOfRange (.index i) s) := if_pos hi

/-- A read above the function-select registers: a free draw of SET or CLEAR, else a refusal (R56). -/
theorem memRead_above_fsel (hv : s.rsValid = true) (h7 : 7 ≤ i) (hi : i < 1024) :
    memRead i s =
      if i = s.par.gpset ∨ i = s.par.gpclr then
        .ok (Config.freeRead s.draws) (countDraw (emit (.read i (Config.freeRead s.draws)) s))
      else .refused (.unknownRegister i) := by
  have hrange : ¬ Config.nregs ≤ i := Nat.not_le.2 hi
  simp [memRead, hrange, hv, Nat.not_lt.2 h7]

/-- A write above the function-select registers: SET raises, CLEAR lowers, else a refusal (R57). -/
theorem memWrite_above_fsel (hv : s.rsValid = true) (h7 : 7 ≤ i) (hi : i < 1024) :
    memWrite i v s =
      if i = s.par.gpset then .ok () (emit (.write i v) (writeLat (s.lat ||| v) s))
      else if i = s.par.gpclr then .ok () (emit (.write i v) (writeLat (s.lat &&& ~~~v) s))
      else .refused (.unknownRegister i) := by
  have hrange : ¬ Config.nregs ≤ i := Nat.not_le.2 hi
  simp [memWrite, hrange, hv, Nat.not_lt.2 h7]

/-! ### A direct access by the host -/

section
variable {α : Type} {access : State → Access α}

theorem hostAccess_notAdmitted (ha : admits s.phase = false) : hostAccess access s = .refused .notAdmitted := by
  simp [hostAccess, ha]

theorem hostAccess_ok {a : α} (ha : admits s.phase = true) (h : access s = .ok a t) :
    hostAccess access s = .next t := by simp [hostAccess, ha, h]

theorem hostAccess_raised (ha : admits s.phase = true) (h : access s = .raised t) :
    hostAccess access s = .next t := by simp [hostAccess, ha, h]

theorem hostAccess_refused {r : Refusal} (ha : admits s.phase = true) (h : access s = .refused r) :
    hostAccess access s = .refused r := by simp [hostAccess, ha, h]

end

/-- A step of the sequencer takes no event of the host (D20; log entry 28). -/
theorem microStep_inputs (h : microStep s = .next t) : t.inputs = s.inputs := by
  obtain ⟨mu, s', -, hp, rfl⟩ | ⟨q, x, rfl⟩ := microStep_completes_or_raises h
  · obtain ⟨r, n, htick, -⟩ := tickUnmap_eq (advance s')
    obtain ⟨g, ci, k, ph, hadv⟩ := advance_eq_relabel s'
    rw [htick, hadv]
    exact (perform_frame hp).inputs
  · rfl

end Sys2Proof.Machine

open Sys2Proof Sys2Proof.Machine

/-- Settles O35: in IDLE and DONE the step is the read primitive, with its cases by index. -/
theorem hostReadCases : Obligations.HostReadCases := by
  intro s i rest hin
  refine ⟨fun hp => ?_, fun t hb h => microStep_inputs (step_busy hb ▸ h), fun hp => ?_⟩
  · rw [step_event (by simp [hp]) hin]
    exact hostAccess_notAdmitted (by simp [hp, admits])
  · have ha : admits s.phase = true := admits_iff.2 hp
    have hb : s.phase ≠ .busy := by rcases hp with hp | hp <;> simp [hp]
    rw [step_event hb hin]
    refine ⟨fun hi => ?_, fun hi hv => ?_, fun hi hv => ?_, fun h7 hi hv hknown => ?_,
      fun h7 hi hv hset hclr => ?_⟩
    · exact hostAccess_raised ha (memRead_outOfRange hi)
    · exact hostAccess_raised ha (memRead_invalid hv hi)
    · exact hostAccess_ok ha (memRead_fsel (by exact hv) hi)
    · exact hostAccess_ok ha ((memRead_above_fsel (by exact hv) h7 hi).trans (if_pos hknown))
    · exact hostAccess_refused ha ((memRead_above_fsel (by exact hv) h7 hi).trans (if_neg (not_or.2 ⟨hset, hclr⟩)))

/-- Settles O36: in IDLE and DONE the step is the write primitive, with its cases by index. -/
theorem hostWriteCases : Obligations.HostWriteCases := by
  intro s i v rest hin
  refine ⟨fun hp => ?_, fun t hb h => microStep_inputs (step_busy hb ▸ h), fun hp => ?_⟩
  · rw [step_event (by simp [hp]) hin]
    exact hostAccess_notAdmitted (by simp [hp, admits])
  · have ha : admits s.phase = true := admits_iff.2 hp
    have hb : s.phase ≠ .busy := by rcases hp with hp | hp <;> simp [hp]
    rw [step_event hb hin]
    refine ⟨fun hi => ?_, fun hi hv => ?_, fun hi hv => ?_, fun h7 hi hv hset => ?_,
      fun h7 hi hv hset hclr => ?_, fun h7 hi hv hset hclr => ?_⟩
    · exact hostAccess_raised ha (memWrite_outOfRange hi)
    · exact hostAccess_raised ha (memWrite_invalid hv hi)
    · exact hostAccess_ok ha (memWrite_fsel (by exact hv) hi)
    · exact hostAccess_ok ha ((memWrite_above_fsel (by exact hv) h7 hi).trans (if_pos hset))
    · exact hostAccess_ok ha ((memWrite_above_fsel (by exact hv) h7 hi).trans ((if_neg hset).trans (if_pos hclr)))
    · exact hostAccess_refused ha ((memWrite_above_fsel (by exact hv) h7 hi).trans ((if_neg hset).trans (if_neg hclr)))

/-- Settles O5: the write primitive, case by case. -/
theorem writePrimitive : Obligations.WritePrimitive := by
  intro s i v
  refine ⟨fun hi => ?_, fun hi hv => ?_, fun hi hv => memWrite_fsel hv hi,
    fun h7 hi hv => memWrite_above_fsel hv h7 hi⟩
  · exact ⟨_, rfl, rfl, (memWrite_outOfRange hi).trans (congrArg _ (raise_eq_abortedWith _ _ s))⟩
  · exact ⟨_, rfl, rfl, (memWrite_invalid hv hi).trans (congrArg _ (raise_eq_abortedWith _ _ s))⟩

end

section
/-! PROOFS. The resolver and the opening of the register space, case by case
(spec/20_memory.md R69 to R76; spec/60_exceptions.md R175; spec/90_conflicts.md C3, C4). -/

namespace Sys2Proof.Machine

variable {s : State} {p : Platform} {target : Nat}

/-! ### The resolver -/

theorem AddressRange.covers_iff {r : AddressRange} :
    r.covers target = true ↔ r.child ≤ target ∧ target < r.child + r.length := by
  simp [AddressRange.covers]

theorem peripheralAddress_toNat {n : Nat} (h : n < 2 ^ 64) : (peripheralAddress n).toNat = n := by
  rw [peripheralAddress, if_pos h, BitVec.toNat_ofNat, Nat.mod_eq_of_lt h]

section
variable {root child size : Nat} {table : List Byte} {records : List AddressRange}
  (hroot : cellSize 2 p.rootAddrCells = .ok root) (hchild : cellSize 2 p.childAddrCells = .ok child)
  (hsize : cellSize 1 p.childSizeCells = .ok size) (htable : p.ranges = some table)
  (hrecords : parseRanges child root size table = .ok records)

include hroot hchild hsize htable hrecords

/-- With readable metadata the first record that covers the target gives the address (R73, R75). -/
theorem resolve_of_find?_some {r : AddressRange} (h : records.find? (AddressRange.covers target) = some r) :
    resolve p target = .ok (peripheralAddress (target - r.child + r.parent)) := by
  simp [resolve, Config.defRootAddrCells, Config.defChildAddrCells, Config.defChildSizeCells, hroot, hchild, hsize,
    htable, hrecords, h, bind, Except.bind]

/-- With readable metadata and no record that covers the target there is no address (R76). -/
theorem resolve_of_find?_none (h : records.find? (AddressRange.covers target) = none) :
    resolve p target = .error .addressNotFoundError := by
  simp [resolve, Config.defRootAddrCells, Config.defChildAddrCells, Config.defChildSizeCells, hroot, hchild, hsize,
    htable, hrecords, h, bind, Except.bind]

end

/-! ### Opening -/

theorem step_openSpace {rest : List HostEvent} (hp : s.phase = .idle) (hpage : s.page = none)
    (hin : s.inputs = .openSpace p :: rest) :
    step s =
      match openPage p with
      | .ok page => .next { s with inputs := rest, rsValid := true, page := some page }
      | .error f => .fault f := by
  rw [step_event (by simp [hp]) hin]
  exact if_pos ⟨hp, hpage⟩

theorem openPage_unprivileged (hp : p.privileged = false) : openPage p = .error .privilegeError := by
  simp [openPage, hp]

/-- The unprivileged device short-circuits the rest (R69). -/
theorem openPage_gpioDevice (hp : p.privileged = true) (hg : p.gpioDevice = .usable) :
    openPage p = .ok .gpioDevice := by
  simp [openPage, hp, hg]

/-- With the unprivileged device not usable the privileged one decides (R69, C4; log entry 15). -/
theorem openPage_physDevice (hp : p.privileged = true) (hg : p.gpioDevice ≠ .usable) :
    openPage p =
      match p.physDevice, resolve p 0x7e200000 with
      | .absent, _ => .error (if p.gpioDevice = .mapFails then .mappingError else .deviceUnavailableError)
      | .mapFails, .ok _ => .error .mappingError
      | .usable, .ok a => .ok (.physical a)
      | _, .error f => .error f := by
  simp only [openPage, hp, hg, Config.gpioChildAddress]
  cases p.physDevice <;> cases resolve p 0x7e200000 <;> rfl

end Sys2Proof.Machine

open Sys2Proof Sys2Proof.Machine

/-- Settles O59: the search over the records stops at the first that covers the target. -/
theorem resolverFirstMatchDecides : Obligations.ResolverFirstMatchDecides := by
  intro p root child size target table records hroot hchild hsize htable hrecords
  refine ⟨fun pre r post hsplit hpre hlow hhigh hfits => ?_, fun hnone => ?_⟩
  · have hfirst : records.find? (AddressRange.covers target) = some r := by
      refine List.find?_eq_some_iff_append.2 ⟨AddressRange.covers_iff.2 ⟨hlow, hhigh⟩, pre, post, hsplit, ?_⟩
      intro q hq
      rw [Bool.not_eq_true', ← Bool.not_eq_true, AddressRange.covers_iff]
      exact hpre q hq
    exact ⟨_, resolve_of_find?_some hroot hchild hsize htable hrecords hfirst, peripheralAddress_toNat hfits⟩
  · have hmiss : records.find? (AddressRange.covers target) = none :=
      List.find?_eq_none.2 fun q hq => AddressRange.covers_iff.not.2 (hnone q hq)
    exact resolve_of_find?_none hroot hchild hsize htable hrecords hmiss

/-- Settles O58: the resolver evaluated on the two tables. -/
theorem resolverWorkedExample : Obligations.ResolverWorkedExample := ⟨⟨rfl, rfl, rfl⟩, rfl⟩

/-- Settles O60: the step is the opening of the page, with its cases by privilege and device. -/
theorem openingCases : Obligations.OpeningCases := by
  intro s p rest hidle hpage hin
  have hstep := step_openSpace hidle hpage hin
  refine ⟨fun hp => ?_, fun hp hg => ?_, fun hp hg hd => ?_, fun hp hg hd => ?_, fun a hp hg hd ha => ?_,
    fun a hp hg hd ha => ?_, fun f hp hg hd hf => ?_⟩
  · rw [hstep, openPage_unprivileged hp]
  · rw [hstep, openPage_gpioDevice hp hg]
  · rw [hstep, openPage_physDevice hp (by simp [hg]), hd, hg]; rfl
  · rw [hstep, openPage_physDevice hp (by simp [hg]), hd, hg]; rfl
  · rw [hstep, openPage_physDevice hp hg, hd, ha]
  · rw [hstep, openPage_physDevice hp hg, hd, ha]
  · rw [hstep, openPage_physDevice hp hg, hf]
    cases hphys : p.physDevice with
    | absent => exact absurd hphys hd
    | mapFails => rfl
    | usable => rfl

end

section
/-! PROOFS. An UNMAP during an operation: the operation is followed beside the same operation without the UNMAP, step
by step, up to its first access after it (spec/20_memory.md R60; spec/41_serial_transmitter.md R158). -/

namespace Sys2Proof.Machine

open Sys2Proof.Expected

variable {s t u v : State} {o : Instr} {mu : Micro} {e : Event} {ev : List Event}

/-! ### The state with the UNMAP to come, and after it -/

@[simp] theorem armUnmap_phase (n : Nat) (s : State) : (armUnmap n s).phase = s.phase := by cases n <;> rfl
@[simp] theorem armUnmap_fault (n : Nat) (s : State) : (armUnmap n s).fault = s.fault := by cases n <;> rfl
@[simp] theorem armUnmap_trace (n : Nat) (s : State) : (armUnmap n s).trace = s.trace := by cases n <;> rfl

/-- The program counter moves the same way after UNMAP. -/
theorem advance_unmap (s : State) : advance (unmap s) = unmap (advance s) := by
  unfold advance
  rw [apply_ite unmap]
  refine if_congr Iff.rfl rfl ?_
  cases hs : s.stage with
  | only => simp only [unmap_stage, hs]; rfl
  | setup => simp only [unmap_stage, hs]; rw [apply_ite unmap]; rfl
  | cmd => simp only [unmap_stage, hs]; rw [apply_ite unmap]; rfl
  | teardown => simp only [unmap_stage, hs]; rfl

/-! ### One step, with and without the UNMAP -/

/-- The direction of the access an event shows (R170). -/
def rwOf (e : Event) : Rw := if isRead e = true then .read else .write

/-- The event of a micro-operation that completes: a delay shows no register, and an access to a register, made with
the register space not valid, raises for that register and direction (R152, R172). -/
theorem perform_ok_access {x : Unit} (h : perform mu s = .ok x t) :
    ∃ e, t.trace = s.trace ++ [e] ∧ (registerOf e = none → ∃ n, mu = .dly n) ∧
      ∀ reg, registerOf e = some reg → ∀ u : State, u.rsValid = false →
        perform mu u = .raised (raise .registerSpaceInvalid (.access reg (rwOf e)) u) := by
  obtain ⟨i, v, s', rfl, hr, rfl⟩ | ⟨i, x, rfl, hw⟩ | ⟨n, rfl, rfl⟩ := perform_ok h
  · obtain ⟨-, hi, hcases⟩ := memRead_ok hr
    refine ⟨.read i v, ?_, by simp [registerOf], ?_⟩
    · rcases hcases with ⟨-, -, rfl⟩ | ⟨-, -, -, rfl⟩ <;> rfl
    · rintro reg ⟨⟩ u hu
      simp [perform, memRead_invalid hu hi, rwOf, isRead]
  · obtain ⟨-, hi, hcases⟩ := memWrite_ok hw
    refine ⟨.write i (evalExpr s.t x), ?_, by simp [registerOf], ?_⟩
    · rcases hcases with ⟨-, rfl⟩ | ⟨-, -, rfl⟩ | ⟨-, -, -, rfl⟩ <;> rfl
    · rintro reg ⟨⟩ u hu
      simp [perform, memWrite_invalid hu hi, rwOf, isRead]
  · exact ⟨.delay n, rfl, fun _ => ⟨n, rfl⟩, by simp [registerOf]⟩

/-- A delay is the same after UNMAP (R143, R185). -/
theorem microStep_unmap_dly {n : Nat} (hmu : (currentItem u)[u.k]? = some (.dly n)) :
    microStep (unmap u) = .next (unmap (advance (delay n u))) := by
  have hmu' : (currentItem (unmap u))[(unmap u).k]? = some (.dly n) := hmu
  have hdelay : perform (.dly n) (unmap u) = .ok () (unmap (delay n u)) := rfl
  simp only [microStep, hmu', hdelay, advance_unmap, tickUnmap_none (unmap_unmapIn _)]

/-- A step of the sequencer from `u` to `v` that shows the event `e`, and what the same step does with an UNMAP armed
or made: it moves as without it, unless UNMAP was made and the event is an access, which then raises (R60, R158). -/
structure Completes (u : State) (e : Event) (v : State) : Prop where
  busy : u.phase = .busy
  trace : v.trace = u.trace ++ [e]
  op : v.op = u.op
  moves : ∀ n, (n = 0 → registerOf e = none) → microStep (armUnmap n u) = .next (armUnmap (n - 1) v)
  raises : ∀ reg, registerOf e = some reg →
    microStep (unmap u) = .next (raise .registerSpaceInvalid (.access reg (rwOf e)) (unmap u))

theorem completes_of_microStep (hb : u.phase = .busy) (hn : u.unmapIn = none) (h : microStep u = .next v)
    (hv : v.phase ≠ .aborted) : ∃ e, Completes u e v := by
  obtain ⟨mu, w, hmu, hp, rfl⟩ | ⟨q, x, rfl⟩ := microStep_completes_or_raises h
  · have f := perform_frame hp
    have htick : tickUnmap (advance w) = advance w := tickUnmap_none ((advance_unmapIn w).trans (f.unmapIn.trans hn))
    obtain ⟨e, htrace, hdelay, haccess⟩ := perform_ok_access hp
    obtain ⟨g, ci, k, ph, hadv⟩ := advance_eq_relabel w
    refine ⟨e, hb, by rw [htick, hadv]; exact htrace, by rw [htick, hadv]; exact f.op, fun n hsilent => ?_,
      fun reg hreg => ?_⟩
    · cases n with
      | zero =>
        obtain ⟨n, rfl⟩ := hdelay (hsilent rfl)
        obtain rfl : delay n u = w := by simpa [perform] using hp
        rw [htick]
        exact microStep_unmap_dly hmu
      | succ n =>
        have harmed := microStep_setUnmapIn h hn hv (some (n + 1))
        cases n <;> exact harmed
    · have hmu' : (currentItem (unmap u))[(unmap u).k]? = some mu := hmu
      simp only [microStep, hmu', haccess reg hreg (unmap u) rfl]
  · exact absurd rfl hv

/-! ### The steps of an operation, with and without the UNMAP -/

/-- Up to `m` steps of the sequencer from `u` to `t`, each of which completes; they show the events `ev`. -/
inductive Undisturbed : Nat → State → List Event → State → Prop where
  | rest {m : Nat} {u : State} : u.phase ≠ .busy → Undisturbed m u [] u
  | step {m : Nat} {u v t : State} {e : Event} {ev : List Event} :
      Completes u e v → Undisturbed m v ev t → Undisturbed (m + 1) u (e :: ev) t

theorem finish_succ {m : Nat} (hb : u.phase = .busy) (h : microStep u = .next v) : finish (m + 1) u = finish m v := by
  simp [finish, hb, h]

/-- Steps that end in DONE with no UNMAP to come all completed. -/
theorem undisturbed_of_finish {m : Nat} (hn : u.unmapIn = none) (h : finish m u = .next t) (ht : t.phase = .done) :
    ∃ ev, Undisturbed m u ev t := by
  induction m generalizing u with
  | zero => cases h; exact ⟨[], .rest (by simp [ht])⟩
  | succ m ih =>
    by_cases hb : u.phase = .busy
    · cases hm : microStep u with
      | next v =>
        rw [finish_succ hb hm] at h
        have hv : v.phase ≠ .aborted := by
          intro hv
          rw [finish_done m (by simp [hv])] at h
          cases h
          simp [hv] at ht
        obtain ⟨e, he⟩ := completes_of_microStep hb hn hm hv
        obtain ⟨ev, hev⟩ := ih (microStep_unarmed hm hn).1 h
        exact ⟨e :: ev, .step he hev⟩
      | fault r => simp [finish, hb, hm] at h
      | refused r => simp [finish, hb, hm] at h
    · rw [finish_done _ hb] at h
      cases h
      exact ⟨[], .rest hb⟩

namespace Undisturbed

variable {m n : Nat}

theorem trace (h : Undisturbed m u ev t) : t.trace = u.trace ++ ev := by
  induction h with
  | rest _ => simp
  | step he _ ih => rw [ih, he.trace, List.append_assoc]; rfl

/-- UNMAP after `n` steps with no access from there on: the same steps. -/
theorem finish_of_silent (h : Undisturbed m u ev t)
    (hsilent : ∀ a e, n ≤ a → ev[a]? = some e → registerOf e = none) :
    finish m (armUnmap n u) = .next (armUnmap (n - ev.length) t) := by
  induction h generalizing n with
  | rest hb => exact finish_done _ (by simpa using hb)
  | @step m u v t e ev he _ ih =>
    have hmoves := he.moves n fun hn => hsilent 0 e (by omega) rfl
    rw [finish_succ (by simpa using he.busy) hmoves,
      ih fun a e' ha hae => hsilent (a + 1) e' (by omega) (by simpa using hae),
      Nat.sub_sub, Nat.add_comm 1, List.length_cons]

/-- UNMAP after `n` steps: the first access from there on raises in a state that shows every event before it. -/
theorem finish_of_access {j reg : Nat} (h : Undisturbed m u ev t) (hnj : n ≤ j) (hj : ev[j]? = some e)
    (hreg : registerOf e = some reg)
    (hsilent : ∀ a e', n ≤ a → a < j → ev[a]? = some e' → registerOf e' = none) :
    ∃ w, w.rsValid = false ∧ w.op = u.op ∧ w.trace = u.trace ++ ev.take j ∧
      finish m (armUnmap n u) = .next (raise .registerSpaceInvalid (.access reg (rwOf e)) w) := by
  induction h generalizing n j with
  | rest _ => simp at hj
  | @step m u v t e' ev he _ ih =>
    cases j with
    | zero =>
      obtain rfl : n = 0 := by omega
      obtain rfl : e' = e := by simpa using hj
      refine ⟨unmap u, rfl, rfl, by simp, ?_⟩
      exact (finish_succ (by exact he.busy) (he.raises reg hreg)).trans (finish_done m (by simp))
    | succ j =>
      have hmoves := he.moves n fun hn => hsilent 0 e' (by omega) (by omega) rfl
      obtain ⟨w, hvalid, hop, htrace, hfinish⟩ := ih (n := n - 1) (j := j) (by omega) (by simpa using hj)
        fun a e'' ha haj hae => hsilent (a + 1) e'' (by omega) (by omega) (by simpa using hae)
      refine ⟨w, hvalid, hop.trans he.op, ?_, ?_⟩
      · rw [htrace, he.trace, List.append_assoc]; rfl
      · rw [finish_succ (by simpa using he.busy) hmoves, hfinish]

end Undisturbed

/-! ### A whole operation -/

theorem exec_of_startable (h : startable o s) : exec o s = finish (opLength s.par o) (launch o s) := by
  obtain ⟨hphase, hpin, hcmds⟩ := h
  have hrefused : ¬ (o = .run ∧ cmdsWellFormed s.par.cmds = false) := by
    rintro ⟨ho, hill⟩
    simp [hcmds ho] at hill
  have hstart : start o s = .next (launch o s) := by
    unfold start
    rw [if_neg (by simp [admits_iff.2 hphase]), if_neg hrefused, hpin]
  rw [exec_eq_runOperation, runOperation, hstart]
  rfl

/-- An operation that nothing stands in the way of ends in DONE and records no fault (R153). -/
theorem exec_ready_done (hs : startable o s) (hr : Ready s) (h : exec o s = .next t) :
    t.phase = .done ∧ t.fault = s.fault := by
  obtain ⟨hphase, hpin, hcmds⟩ := hs
  rw [exec_eq_runOperation] at h
  by_cases ho : o = .run
  · subst ho
    rw [runOperation_run (admits_iff.2 hphase) (hcmds rfl) hr] at h
    cases h
    exact ⟨rfl, (effects_frame hr (runAllMicros_known s.par)).fault⟩
  · rw [runOperation_only ho (admits_iff.2 hphase) hpin hr] at h
    cases h
    exact ⟨rfl, (effects_frame hr (itemMicros_known s.par o .only 0 hpin)).fault⟩

end Sys2Proof.Machine

open Sys2Proof Sys2Proof.Machine

/-- Settles O39: every step of the operation without the UNMAP is a step of the operation with it, up to the first
access from the UNMAP on. -/
theorem unmapCutsAtNextAccess : Obligations.UnmapCutsAtNextAccess := by
  intro i s t0 ev n hs hwf hvalid harmed hn h htrace
  have hlaunch : launch i s = armUnmap n (launch i { s with unmapIn := none }) := by
    obtain ⟨m, rfl⟩ := Nat.exists_eq_add_of_le' hn
    exact congrArg (fun a => launch i { s with unmapIn := a }) harmed
  have hexec : exec i s = finish (opLength s.par i) (armUnmap n (launch i { s with unmapIn := none })) :=
    hlaunch ▸ exec_of_startable hs
  obtain ⟨hdone, hfault⟩ := exec_ready_done (s := { s with unmapIn := none }) hs ⟨hwf, hvalid, rfl⟩ h
  rw [exec_of_startable (s := { s with unmapIn := none }) hs] at h
  obtain ⟨ev', hrun⟩ := undisturbed_of_finish rfl h hdone
  obtain rfl : ev' = ev := List.append_cancel_left (hrun.trace.symm.trans htrace)
  refine ⟨fun j e hnj hj hsome hsilent => ?_, fun hsilent => ?_⟩
  · obtain ⟨reg, hreg⟩ := Option.isSome_iff_exists.1 hsome
    obtain ⟨w, hwvalid, hwop, hwtrace, hcut⟩ := hrun.finish_of_access hnj hj hreg hsilent
    refine ⟨_, _, reg, hexec.trans hcut, rfl, hwvalid, rfl, ?_, rfl, rfl, hwop, hreg, rfl⟩
    rw [raise_trace, hwtrace]
    rfl
  · exact ⟨_, hexec.trans (hrun.finish_of_silent hsilent), by simpa using hdone, by simpa using hfault,
      by simpa using htrace⟩

end

section
/-! PROOFS. The rows of the encoding tables: which words each row has, and that a word is in one row at most
(spec/30_encoding.md R93 to R95, R100). -/

namespace Sys2Proof

variable {w : Cell} {i : Instr}

/-! ### A word and its row -/

/-- Two rows whose matches differ where both masks are set share no word. -/
theorem mask_ne {m v m' v' : Cell} (h : w &&& m = v) (hd : v &&& m' ≠ v' &&& m) : w &&& m' ≠ v' := by
  rintro rfl
  apply hd
  rw [← h, BitVec.and_assoc, BitVec.and_comm m, BitVec.and_assoc]

theorem decode_of_xfer_mask (h : w &&& 0xFE00#16 = 0x0000#16) :
    decode w = .instr (.xfer (w.extractLsb' 0 9)) :=
  if_pos h

theorem decode_of_setPinMode_mask (h : w &&& 0xF800#16 = 0x4000#16) :
    decode w = .instr (.setPinMode (w.extractLsb' 0 8).toNat (modeOfSelector (w.extractLsb' 8 3))) := by
  rw [decode, if_neg (mask_ne h (by decide)), if_neg (mask_ne h (by decide)), if_pos h]

theorem decode_of_setPinLevel_mask (h : w &&& 0xFE00#16 = 0x5000#16) :
    decode w = .instr (.setPinLevel (w.extractLsb' 0 8).toNat (w.getLsbD 8)) := by
  rw [decode, if_neg (mask_ne h (by decide)), if_neg (mask_ne h (by decide)), if_neg (mask_ne h (by decide)),
    if_pos h]

/-- A word that decodes is in the row of what it decodes to, and the operands are its fields (R93, R94). -/
theorem decode_instr (h : decode w = .instr i) :
    (w.extractLsb' 9 7 = 0#7 ∧ i = .xfer (w.extractLsb' 0 9)) ∨ (w = 0x8000#16 ∧ i = .wait) ∨
    (w.extractLsb' 11 5 = 0b01000#5 ∧
      i = .setPinMode (w.extractLsb' 0 8).toNat (modeOfSelector (w.extractLsb' 8 3))) ∨
    (w.extractLsb' 9 7 = 0b0101000#7 ∧ i = .setPinLevel (w.extractLsb' 0 8).toNat (w.getLsbD 8)) ∨
    (w = 0xC000#16 ∧ i = .setup) ∨ (w = 0xD000#16 ∧ i = .teardown) ∨ (w = 0xE000#16 ∧ i = .run) := by
  simp only [decode, xfer_mask, setPinMode_mask, setPinLevel_mask, whole_mask] at h
  split_ifs at h <;> cases h <;> simp [*]

/-- A word is INVALID exactly when it is in no row (R95). -/
theorem decode_invalid_iff_no_row : (∃ why, decode w = .invalid why) ↔
    ¬ (w.extractLsb' 9 7 = 0#7 ∨ w = 0x8000#16 ∨ w.extractLsb' 11 5 = 0b01000#5 ∨
      w.extractLsb' 9 7 = 0b0101000#7 ∨ w = 0xC000#16 ∨ w = 0xD000#16 ∨ w = 0xE000#16) := by
  simp only [decode, xfer_mask, setPinMode_mask, setPinLevel_mask, whole_mask]
  split_ifs <;> simp [*]

/-! ### A field and its parts -/

theorem append_eq_append_iff {n m : Nat} {x x' : BitVec n} {y y' : BitVec m} :
    x ++ y = x' ++ y' ↔ x = x' ∧ y = y' := by
  refine ⟨fun e => ⟨?_, ?_⟩, fun ⟨hx, hy⟩ => by rw [hx, hy]⟩
  · simpa only [BitVec.extractLsb'_append_eq_left] using congrArg (BitVec.extractLsb' m n) e
  · simpa only [BitVec.extractLsb'_append_eq_right] using congrArg (BitVec.extractLsb' 0 m) e

/-- The seven high bits are the opcode and bits 11:9. -/
theorem bits_15_9_eq_iff {x : BitVec 4} {y : BitVec 3} :
    w.extractLsb' 9 7 = x ++ y ↔ w.extractLsb' 12 4 = x ∧ w.extractLsb' 9 3 = y := by
  have hsplit : w.extractLsb' 12 4 ++ w.extractLsb' 9 3 = w.extractLsb' 9 7 :=
    BitVec.extractLsb'_append_extractLsb'_eq_extractLsb' rfl
  rw [← hsplit, append_eq_append_iff]

/-- The five high bits are the opcode and bit 11. -/
theorem bits_15_11_eq_iff {x : BitVec 4} {y : BitVec 1} :
    w.extractLsb' 11 5 = x ++ y ↔ w.extractLsb' 12 4 = x ∧ w.extractLsb' 11 1 = y := by
  have hsplit : w.extractLsb' 12 4 ++ w.extractLsb' 11 1 = w.extractLsb' 11 5 :=
    BitVec.extractLsb'_append_extractLsb'_eq_extractLsb' rfl
  rw [← hsplit, append_eq_append_iff]

/-- A word is the opcode and bits 11:0. -/
theorem word_eq_iff {x : BitVec 4} {y : BitVec 12} :
    w = x ++ y ↔ w.extractLsb' 12 4 = x ∧ w.extractLsb' 0 12 = y := by
  have hsplit : w.extractLsb' 12 4 ++ w.extractLsb' 0 12 = w :=
    (BitVec.extractLsb'_append_extractLsb'_eq_extractLsb' rfl).trans BitVec.extractLsb'_eq_self
  rw [← append_eq_append_iff, hsplit]

theorem xfer_row_iff : w.extractLsb' 9 7 = 0#7 ↔ w.extractLsb' 12 4 = 0b0000#4 ∧ w.extractLsb' 9 3 = 0#3 :=
  bits_15_9_eq_iff (x := 0b0000#4) (y := 0#3)

theorem setPinMode_row_iff :
    w.extractLsb' 11 5 = 0b01000#5 ↔ w.extractLsb' 12 4 = 0b0100#4 ∧ w.extractLsb' 11 1 = 0#1 :=
  bits_15_11_eq_iff (x := 0b0100#4) (y := 0#1)

theorem setPinLevel_row_iff :
    w.extractLsb' 9 7 = 0b0101000#7 ↔ w.extractLsb' 12 4 = 0b0101#4 ∧ w.extractLsb' 9 3 = 0#3 :=
  bits_15_9_eq_iff (x := 0b0101#4) (y := 0#3)

theorem wait_row_iff : w = 0x8000#16 ↔ w.extractLsb' 12 4 = 0b1000#4 ∧ w.extractLsb' 0 12 = 0#12 :=
  word_eq_iff (x := 0b1000#4) (y := 0#12)

theorem setup_row_iff : w = 0xC000#16 ↔ w.extractLsb' 12 4 = 0b1100#4 ∧ w.extractLsb' 0 12 = 0#12 :=
  word_eq_iff (x := 0b1100#4) (y := 0#12)

theorem teardown_row_iff : w = 0xD000#16 ↔ w.extractLsb' 12 4 = 0b1101#4 ∧ w.extractLsb' 0 12 = 0#12 :=
  word_eq_iff (x := 0b1101#4) (y := 0#12)

theorem run_row_iff : w = 0xE000#16 ↔ w.extractLsb' 12 4 = 0b1110#4 ∧ w.extractLsb' 0 12 = 0#12 :=
  word_eq_iff (x := 0b1110#4) (y := 0#12)

/-- The opcodes by the bits R93 and R94 fix below them: 11:9, 11, 11:9, all, or no row. -/
theorem opcode_cases : ∀ op : BitVec 4,
    op = 0b0000#4 ∨ op = 0b0100#4 ∨ op = 0b0101#4 ∨ op ∈ [0b1000#4, 0b1100#4, 0b1101#4, 0b1110#4] ∨
    op ∈ [0b0001#4, 0b0010#4, 0b0011#4, 0b0110#4, 0b0111#4, 0b1001#4, 0b1010#4, 0b1011#4, 0b1111#4] := by
  decide

/-! ### The word of an instruction -/

theorem decode_encode_xfer (v : BitVec 9) : decode (encode (.xfer v)) = .instr (.xfer v) := by
  rw [decode_of_xfer_mask (Laws.Row.xfer v), encode, BitVec.extractLsb'_append_eq_right]

theorem decode_encode_setPinMode {p : Nat} (hp : p < 256) (m : PinMode) :
    decode (encode (.setPinMode p m)) = .instr (.setPinMode p m) := by
  have hpin : (encode (.setPinMode p m)).extractLsb' 0 8 = BitVec.ofNat 8 p := BitVec.extractLsb'_append_eq_right
  have hmode : (encode (.setPinMode p m)).extractLsb' 8 3 = selector m := by
    rw [encode, BitVec.extractLsb'_append_eq_of_le (by decide)]
    exact BitVec.extractLsb'_append_eq_right
  rw [decode_of_setPinMode_mask (Laws.Row.setPinMode p m), hpin, hmode, modeOfSelector_selector,
    BitVec.toNat_ofNat, Nat.mod_eq_of_lt hp]

theorem decode_encode_setPinLevel {p : Nat} (hp : p < 256) (l : Bool) :
    decode (encode (.setPinLevel p l)) = .instr (.setPinLevel p l) := by
  have hpin : (encode (.setPinLevel p l)).extractLsb' 0 8 = BitVec.ofNat 8 p := BitVec.extractLsb'_append_eq_right
  have hlevel : (encode (.setPinLevel p l)).getLsbD 8 = l := by
    simp only [encode, BitVec.getLsbD_append]
    simp
  rw [decode_of_setPinLevel_mask (Laws.Row.setPinLevel p l), hpin, hlevel, BitVec.toNat_ofNat, Nat.mod_eq_of_lt hp]

theorem encode_xfer_fields (h : w.extractLsb' 9 7 = 0#7) : encode (.xfer (w.extractLsb' 0 9)) = w := by
  rw [encode, ← h, split_at_9]

theorem encode_setPinMode_fields (h : w.extractLsb' 11 5 = 0b01000#5) :
    encode (.setPinMode (w.extractLsb' 0 8).toNat (modeOfSelector (w.extractLsb' 8 3))) = w := by
  have hsplit : w.extractLsb' 8 3 ++ w.extractLsb' 0 8 = w.extractLsb' 0 11 :=
    BitVec.extractLsb'_append_extractLsb'_eq_extractLsb' rfl
  rw [encode, ← h, selector_modeOfSelector, BitVec.ofNat_toNat, BitVec.setWidth_eq, BitVec.append_assoc, hsplit]
  exact split_at_11 w

theorem encode_setPinLevel_fields (h : w.extractLsb' 9 7 = 0b0101000#7) :
    encode (.setPinLevel (w.extractLsb' 0 8).toNat (w.getLsbD 8)) = w := by
  have hbit : BitVec.ofBool (w.getLsbD 8) = w.extractLsb' 8 1 := by
    ext i hi
    obtain rfl : i = 0 := by omega
    simp
  have hsplit : w.extractLsb' 8 1 ++ w.extractLsb' 0 8 = w.extractLsb' 0 9 :=
    BitVec.extractLsb'_append_extractLsb'_eq_extractLsb' rfl
  rw [encode, ← h, hbit, BitVec.ofNat_toNat, BitVec.setWidth_eq, BitVec.append_assoc, hsplit]
  exact split_at_9 w

end Sys2Proof

namespace Sys2Proof.Machine

/-- At the operation input a reserved word is refused, called or started (R100, R151). -/
theorem step_invalid {w : Cell} {why : Reserved} {s : State} {rest : List HostEvent}
    (hdec : decode w = .invalid why) (hb : s.phase ≠ .busy)
    (hin : s.inputs = .call w :: rest ∨ s.inputs = .start w :: rest) : step s = .refused (.reservedWord w why) := by
  obtain hin | hin := hin <;> rw [step_event hb hin] <;> simp [takeInput, fetch, hdec]

end Sys2Proof.Machine

open Sys2Proof Sys2Proof.Machine

/-- Settles O2: by the row of each operation, whose fields give the operands back. -/
theorem decodeOfEncode : Obligations.DecodeOfEncode := by
  intro i hi
  cases i with
  | xfer w => exact decode_encode_xfer w
  | wait => rfl
  | setPinMode p m => exact decode_encode_setPinMode (of_decide_eq_true hi) m
  | setPinLevel p l => exact decode_encode_setPinLevel (of_decide_eq_true hi) l
  | setup => rfl
  | teardown => rfl
  | run => rfl

/-- Settles O3: in every row the fixed bits and the fields are all the bits of the word. -/
theorem encodeOfDecode : Obligations.EncodeOfDecode := by
  intro w i h
  obtain ⟨hw, rfl⟩ | ⟨rfl, rfl⟩ | ⟨hw, rfl⟩ | ⟨hw, rfl⟩ | ⟨rfl, rfl⟩ | ⟨rfl, rfl⟩ | ⟨rfl, rfl⟩ := decode_instr h
  · exact ⟨rfl, encode_xfer_fields hw⟩
  · exact ⟨rfl, rfl⟩
  · exact ⟨decide_eq_true (BitVec.isLt _), encode_setPinMode_fields hw⟩
  · exact ⟨decide_eq_true (BitVec.isLt _), encode_setPinLevel_fields hw⟩
  · exact ⟨rfl, rfl⟩
  · exact ⟨rfl, rfl⟩
  · exact ⟨rfl, rfl⟩

/-- Settles O4: the complement of the rows, opcode by opcode. -/
theorem reservedWordsExactly : Obligations.ReservedWordsExactly := by
  refine fun w => ⟨?_, fun _ _ _ => step_invalid⟩
  rw [decode_invalid_iff_no_row, xfer_row_iff, wait_row_iff, setPinMode_row_iff, setPinLevel_row_iff, setup_row_iff,
    teardown_row_iff, run_row_iff]
  obtain h | h | h | h | h := opcode_cases (w.extractLsb' 12 4)
  · simp [h]
  · simp [h]
  · simp [h]
  · simp only [List.mem_cons, List.not_mem_nil, or_false] at h
    obtain h | h | h | h := h <;> simp [h]
  · simp only [List.mem_cons, List.not_mem_nil, or_false] at h
    obtain h | h | h | h | h | h | h | h | h := h <;> simp [h]

/-- Settles O1: the decoder and the assembler evaluated on the words and texts. -/
theorem workedEncodings : Obligations.WorkedEncodings := by
  refine ⟨by decide, ?_, by decide, by decide, by decide, by decide⟩
  simp only [List.forall_mem_cons]
  exact ⟨⟨_, rfl⟩, ⟨_, rfl⟩, ⟨_, rfl⟩, ⟨_, rfl⟩, ⟨_, rfl⟩, ⟨_, rfl⟩, by simp⟩

end

section
/-! PROOFS. The hardware codes of the modes (spec/00_scope.md R8; spec/30_encoding.md R96). -/

namespace Sys2Proof.Machine

/-- The code of a mode stands in the list at the mode's selector. -/
theorem list_getElem?_selector (c : ModeCode) (m : PinMode) :
    c.list[(selector m).toNat]? = some (modeCodeOf c m) := by
  cases m <;> rfl

theorem selector_injective : Function.Injective selector := Function.LeftInverse.injective modeOfSelector_selector

/-- Pairwise distinct codes give distinct modes distinct codes (R8, D3). -/
theorem modeCodeOf_injective {c : ModeCode} (h : c.list.Nodup) : Function.Injective (modeCodeOf c) := by
  intro m m' e
  have hget : c.list[(selector m).toNat]? = c.list[(selector m').toNat]? := by
    rw [list_getElem?_selector, list_getElem?_selector, e]
  exact selector_injective (BitVec.eq_of_toNat_eq ((List.getElem?_inj (selector m).isLt h).1 hget))

/-- Eight distinct codes of three bits are all the values of three bits (R96). -/
theorem modeCodeOf_surjective {c : ModeCode} (h : c.list.Nodup) : Function.Surjective (modeCodeOf c) := by
  have hinj : Function.Injective (modeCodeOf c ∘ modeOfSelector) :=
    (modeCodeOf_injective h).comp (Function.LeftInverse.injective selector_modeOfSelector)
  exact (Finite.surjective_of_injective hinj).of_comp

end Sys2Proof.Machine

open Sys2Proof Sys2Proof.Machine

/-- Settles O7: the code of a mode is injective by R8, and there are as many modes as values. -/
theorem fieldValueNamesOneMode : Obligations.FieldValueNamesOneMode := by
  rintro c v ⟨-, hcodes, -⟩
  obtain ⟨m, hm⟩ := modeCodeOf_surjective hcodes v
  exact ⟨m, hm, fun m' hm' => modeCodeOf_injective hcodes (hm'.trans hm.symm)⟩

end

section
/-! PROOFS. What refuses RUN: its check of CMDS, and no step after it (spec/30_encoding.md R106;
spec/41_serial_transmitter.md R151, R153). -/

namespace Sys2Proof.Machine

variable {s : State} {r : Refusal}

theorem decodeCommand_eq_none_iff {cell : Cell} :
    decodeCommand cell = none ↔ (∀ w, decode cell ≠ .instr (.xfer w)) ∧ decode cell ≠ .instr .wait := by
  unfold decodeCommand
  split <;> simp_all

theorem cmdsWellFormed_eq_false_iff {cmds : List Cell} :
    cmdsWellFormed cmds = false ↔ ∃ cell ∈ cmds, decodeCommand cell = none := by
  simp [cmdsWellFormed]

theorem start_illFormed (ha : admits s.phase = true) (hc : cmdsWellFormed s.par.cmds = false) :
    start .run s = .refused .illFormedCommands := by
  simp [start, ha, hc]

theorem start_run (ha : admits s.phase = true) (hc : cmdsWellFormed s.par.cmds = true) :
    start .run s = .next (launch .run s) := by
  simp [start, ha, hc, badPin]

theorem perform_refused {mu : Micro} (h : perform mu s = .refused r) : ∃ i, r = .unknownRegister i := by
  cases mu with
  | rd i =>
    simp only [perform] at h
    split at h <;> cases h
    exact ⟨i, (memRead_refused ‹_›).1⟩
  | wr i e => exact ⟨i, (memWrite_refused h).1⟩
  | dly n => cases h

/-- A step of the sequencer is refused only for a register without meaning or a program counter without a
micro-operation (R27, R55). -/
theorem microStep_refused (h : microStep s = .refused r) : r = .noMicroOperation ∨ ∃ i, r = .unknownRegister i := by
  unfold microStep at h
  split at h
  · cases h; exact .inl rfl
  · split at h <;> cases h
    exact .inr (perform_refused ‹_›)

theorem finish_refused (n : Nat) (h : finish n s = .refused r) : ∃ u, microStep u = .refused r := by
  induction n generalizing s with
  | zero => cases h
  | succ n ih =>
    rw [finish] at h
    split at h
    · split at h
      · exact ih h
      · cases h
      · cases h; exact ⟨s, ‹_›⟩
    · cases h

/-- RUN is refused for its commands before its first micro-operation or not at all (R106). -/
theorem exec_run_illFormed_iff (ha : admits s.phase = true) :
    exec .run s = .refused .illFormedCommands ↔ cmdsWellFormed s.par.cmds = false := by
  rw [exec_eq_runOperation, runOperation]
  cases hc : cmdsWellFormed s.par.cmds with
  | false => simp [start_illFormed ha hc]
  | true =>
    rw [start_run ha hc]
    refine iff_of_false (fun h => ?_) (by simp)
    obtain ⟨u, hu⟩ := finish_refused _ h
    obtain hr | ⟨i, hr⟩ := microStep_refused hu <;> cases hr

end Sys2Proof.Machine

open Sys2Proof Sys2Proof.Machine

/-- Settles O11: the check of CMDS is the only place that refuses RUN for its commands. -/
theorem runRefusedExactlyWhenIllFormed : Obligations.RunRefusedExactlyWhenIllFormed := by
  intro s hs
  rw [exec_run_illFormed_iff (admits_iff.2 hs), cmdsWellFormed_eq_false_iff]
  simp only [decodeCommand_eq_none_iff]

end

section
/-! PROOFS. The two operations of the GPIO controller: where they fault, what they do, and what they and the
operations on levels leave unchanged (spec/40_gpio_controller.md R120 to R127; spec/60_exceptions.md R171, R172). -/

namespace Sys2Proof.Machine

open Sys2Proof.Expected

variable {s t : State} {o : Instr} {mu : Micro} {p : Nat} {m : PinMode} {l : Bool}

/-! ### The pin check -/

theorem badPin_setPinMode_of_gt (hp : 27 < p) : badPin (.setPinMode p m) = some p :=
  if_neg fun h => absurd (pinValid_iff.1 h) (by omega)

theorem badPin_setPinLevel_of_gt (hp : 27 < p) : badPin (.setPinLevel p l) = some p :=
  if_neg fun h => absurd (pinValid_iff.1 h) (by omega)

theorem badPin_setPinMode_of_le (hp : p ≤ 27) : badPin (.setPinMode p m) = none := if_pos (pinValid_iff.2 hp)

theorem badPin_setPinLevel_of_le (hp : p ≤ 27) : badPin (.setPinLevel p l) = none := if_pos (pinValid_iff.2 hp)

/-! ### Where an operation faults -/

/-- A bad pin, with the whole record of the fault (R171, R177). -/
theorem exec_badPin (hphase : s.phase = .idle ∨ s.phase = .done) (hp : badPin o = some p) :
    exec o s = .next (abortedWith s ⟨.invalidPin, 1, some o, .only, 0, 0, .pin p⟩) :=
  (exec_eq_runOperation o s).trans (runOperation_badPin (admits_iff.2 hphase) hp)

theorem opLength_eq_length (ho : o ≠ .run) (c : Params) : opLength c o = (itemMicros c o .only 0).length := by
  cases o with
  | run => exact absurd rfl ho
  | _ => rfl

/-- An operation that begins with an access raises there when that access raises, with the whole record of the fault
(R172, R177). -/
theorem exec_first_access_raises {L : List Micro} {x : FaultInfo} (ho : o ≠ .run)
    (hphase : s.phase = .idle ∨ s.phase = .done) (hpin : badPin o = none) (hL : itemMicros s.par o .only 0 = mu :: L)
    (hmu : perform mu (launch o s) = .raised (raise .registerSpaceInvalid x (launch o s))) :
    exec o s = .next (abortedWith { s with op := some o, stage := .only, ci := 0, k := 0 }
      ⟨.registerSpaceInvalid, 2, some o, .only, 0, 0, x⟩) := by
  have hstage : (launch o s).stage = .only := if_neg ho
  have hitem : currentItem (launch o s) = mu :: L := (itemMicros_stage ho s.par _ 0).trans hL
  have hlen : 0 < opLength s.par o := opLength_eq_length ho s.par ▸ itemMicros_only_pos ho s.par
  rw [exec_eq_runOperation, runOperation_raises_first (admits_iff.2 hphase) hpin (fun h => absurd h ho) hitem hmu hlen
    (by simp), raise_eq_abortedWith, hstage]
  simp [abortedWith, launch, ho, faultCode]

/-! ### The two steps of SET_PIN_MODE -/

theorem microStep_of_ok {x : Unit} (hmu : (currentItem s)[s.k]? = some mu) (hp : perform mu s = .ok x t) :
    microStep s = .next (tickUnmap (advance t)) := by
  simp only [microStep, hmu, hp]

theorem microStep_of_raised (hmu : (currentItem s)[s.k]? = some mu) (hp : perform mu s = .raised t) :
    microStep s = .next t := by
  simp only [microStep, hmu, hp]

theorem advance_of_last (hg : s.stage = .only) (hk : (currentItem s).length ≤ s.k + 1) : advance s = complete s := by
  rw [advance, if_neg (by omega), hg]

/-- The state between the read and the write of SET_PIN_MODE (R120). -/
def modeRead (p : Nat) (hp : p ≤ 27) (m : PinMode) (s : State) : State :=
  { s with
    op := some (.setPinMode p m), phase := .busy, stage := .only, ci := 0, k := 1, t := s.fsel[p / 10],
    trace := s.trace ++ [.read (p / 10) s.fsel[p / 10]] }

/-- The write of SET_PIN_MODE (R120). -/
def modeWrite (p : Nat) (m : PinMode) (s : State) : Micro :=
  .wr (fselIndex p) (.insertT (fieldShift p) (modeCodeOf s.par.modeCode m))

/-- SET_PIN_MODE up to its write: the read, then the tick of the countdown. -/
theorem exec_setPinMode_eq_write (hphase : s.phase = .idle ∨ s.phase = .done) (hp : p ≤ 27)
    (hv : s.rsValid = true) :
    exec (.setPinMode p m) s = finish 1 (tickUnmap (modeRead p hp m s)) := by
  have hread : perform (.rd (fselIndex p)) (launch (.setPinMode p m) s) = .ok () _ :=
    perform_of_memRead (memRead_fsel (s := launch (.setPinMode p m) s) hv (fselIndex_valid hp))
  have hstep : microStep (launch (.setPinMode p m) s) = .next (tickUnmap (modeRead p hp m s)) :=
    microStep_of_ok (mu := .rd (fselIndex p)) rfl hread
  exact (exec_of_startable ⟨hphase, badPin_setPinMode_of_le hp, fun h => by cases h⟩).trans (finish_succ rfl hstep)

/-- UNMAP between the read and the write: the write raises (R60, D29). -/
theorem exec_setPinMode_unmap_between (hphase : s.phase = .idle ∨ s.phase = .done) (hp : p ≤ 27)
    (hv : s.rsValid = true) (hn : s.unmapIn = some 1) :
    exec (.setPinMode p m) s =
      .next (raise .registerSpaceInvalid (.access (p / 10) .write) (unmap (modeRead p hp m s))) := by
  have htick : tickUnmap (modeRead p hp m s) = unmap (modeRead p hp m s) := by
    simp [tickUnmap, modeRead, hn, armUnmap]
  have hlt := fselIndex_valid hp
  have hwrite : perform (modeWrite p m s) (unmap (modeRead p hp m s)) = .raised _ := memWrite_invalid rfl (by omega)
  rw [exec_setPinMode_eq_write hphase hp hv, htick]
  exact finish_succ rfl (microStep_of_raised rfl hwrite)

/-- The read-modify-write of SET_PIN_MODE (R120); it rests on no parameter but the mode codes. -/
theorem exec_setPinMode_completes (hphase : s.phase = .idle ∨ s.phase = .done) (hp : p ≤ 27) (hv : s.rsValid = true)
    (hn : s.unmapIn = none) :
    exec (.setPinMode p m) s = .next
      { s with
        op := some (.setPinMode p m), stage := .only, ci := 0, k := 1, phase := .done,
        t := s.fsel[p / 10],
        fsel := s.fsel.set (p / 10) (withCode s.fsel[p / 10] p (modeCodeOf s.par.modeCode m)),
        trace := s.trace ++ [.read (p / 10) s.fsel[p / 10],
          .write (p / 10) (withCode s.fsel[p / 10] p (modeCodeOf s.par.modeCode m))] } := by
  have htick : tickUnmap (modeRead p hp m s) = modeRead p hp m s := tickUnmap_none hn
  have hwrite : perform (modeWrite p m s) (modeRead p hp m s) = .ok () _ :=
    memWrite_fsel (s := modeRead p hp m s) hv (fselIndex_valid hp)
  have hstep := microStep_of_ok rfl hwrite
  rw [advance_of_last rfl le_rfl, tickUnmap_none (by exact hn)] at hstep
  rw [exec_setPinMode_eq_write hphase hp hv, htick, finish_succ rfl hstep, List.append_cons]
  rfl

/-! ### SET_PIN_LEVEL -/

/-- The level write of SET_PIN_LEVEL (R122). -/
theorem exec_setPinLevel_completes (hphase : s.phase = .idle ∨ s.phase = .done) (hr : Ready s) (hp : p ≤ 27) :
    exec (.setPinLevel p l) s = .next
      { s with
        op := some (.setPinLevel p l), stage := .only, ci := 0, k := 0, phase := .done,
        lat := latchTo p l s.lat, trace := s.trace ++ [levelEvent s.par p l] } := by
  have heffect : effects (itemMicros s.par (.setPinLevel p l) .only 0) s = _ := effects_setPinLevel hr hp l
  rw [exec_eq_runOperation, runOperation_only (by simp) (admits_iff.2 hphase) (badPin_setPinLevel_of_le hp) hr, heffect]
  rfl

/-! ### The mode field -/

/-- Outside the field an inserted code changes nothing (R121). -/
theorem insertField_and_clearMask (v : Word) (c : BitVec 3) {sh : Nat} (hs : sh ≤ 27) :
    insertField v sh c &&& clearMask sh = v &&& clearMask sh := by
  refine BitVec.eq_of_getLsbD_eq fun j _ => ?_
  simp only [clearMask, BitVec.getLsbD_and, BitVec.getLsbD_not, seven_shift_getLsbD sh j hs,
    insertField_getLsbD v c hs]
  by_cases h : sh ≤ j ∧ j < sh + 3
  · simp [h]
  · rw [if_neg h]

/-! ### The frame of an operation, register by register -/

namespace OperationFrame

variable {M V : Nat → Prop}

/-- A function-select register that holds the mode of no pin of the operation. -/
theorem fselRegister (h : OperationFrame M V s t) (j : Nat) (hj : j < 7) (hM : ∀ p, M p → j ≠ fselIndex p) :
    t.fsel[j] = s.fsel[j] :=
  BitVec.eq_of_getLsbD_eq fun b _ => h.fsel j hj b fun p hp e => absurd e (hM p hp)

theorem fsel_of_no_mode (h : OperationFrame M V s t) (hM : ∀ p, ¬ M p) : t.fsel = s.fsel :=
  Vector.ext fun j hj => h.fselRegister j hj fun p hp => absurd hp (hM p)

theorem lat_of_no_level (h : OperationFrame M V s t) (hV : ∀ p, ¬ V p) : t.lat = s.lat :=
  BitVec.eq_of_getLsbD_eq fun b _ => h.lat b (hV b)

end OperationFrame

end Sys2Proof.Machine

open Sys2Proof Sys2Proof.Machine

/-- Settles O16: the pin check, the read and the write are the three places where SET_PIN_MODE can fault. -/
theorem setPinModeEffect : Obligations.SetPinModeEffect := by
  intro s p m hphase
  refine ⟨fun hp => exec_badPin hphase (badPin_setPinMode_of_gt hp), fun hp hv => ?_,
    exec_setPinMode_unmap_between hphase, exec_setPinMode_completes hphase⟩
  have hlt := fselIndex_valid hp
  have hread : memRead (fselIndex p) (launch (.setPinMode p m) s) = .raised _ := memRead_invalid hv (by omega)
  exact exec_first_access_raises (by simp) hphase (badPin_setPinMode_of_le hp) rfl (by simp only [perform, hread]; rfl)

/-- Settles O17: the register written is the register read with the code inserted into the field of the pin. -/
theorem setPinModePostcondition : Obligations.SetPinModePostcondition := by
  intro s p m hphase hv hn
  have hshift := fieldShift_le p
  have hbank (v : Word) : Expected.bankOf (s.fsel.set (p.val / 10) v) p = v := Vector.getElem_set_self _
  refine ⟨_, exec_setPinMode_completes hphase (pin_le p) hv hn, rfl, ?_, ?_, fun j hj hne => ?_, rfl⟩
  · rw [hbank]
    exact fieldOf_insertField _ _ hshift
  · rw [hbank]
    exact insertField_and_clearMask _ _ hshift
  · exact Vector.getElem_set_ne (by omega) _ (Ne.symm hne)

/-- Settles O18: the pin check and the one write are the two places where SET_PIN_LEVEL can fault. -/
theorem setPinLevelEffect : Obligations.SetPinLevelEffect := by
  intro s p l hphase hwf
  refine ⟨fun hp => exec_badPin hphase (badPin_setPinLevel_of_gt hp), fun hp hv => ?_, fun hp hv hn => ?_⟩
  · obtain ⟨-, -, ⟨-, hset⟩, ⟨-, hclr⟩, -⟩ := hwf
    have hindex := levelIndex_valid s.par hp l
    have hlt : levelIndex s.par p l < 1024 := by rw [hindex]; split <;> omega
    have hwrite : perform (.wr (levelIndex s.par p l) (.const (levelWord p))) (launch (.setPinLevel p l) s) =
      .raised _ := memWrite_invalid hv hlt
    rw [← hindex]
    exact exec_first_access_raises (by simp) hphase (badPin_setPinLevel_of_le hp) rfl hwrite
  · rw [exec_setPinLevel_completes hphase ⟨hwf, hv, hn⟩ hp]
    simp only [latchTo, levelEvent, levelWord_eq hp, Expected.pinBit]

/-- Settles O19: the latch changes in the bit of the pin alone, and a pin in Output mode is driven at that bit. -/
theorem setPinLevelPostcondition : Obligations.SetPinLevelPostcondition := by
  intro s p l hphase hwf hv hn
  have hbit (j : Nat) := latchTo_getLsbD (pin_le p) l s.lat j
  refine ⟨_, levelEvent s.par p l, exec_setPinLevel_completes hphase ⟨hwf, hv, hn⟩ (pin_le p), ?_, fun j hj => ?_,
    rfl, rfl, rfl, fun hout => ?_⟩
  · exact (hbit p).trans (if_pos rfl)
  · exact (hbit j).trans (if_neg hj)
  · exact (if_pos hout).trans (congrArg Drive.driven ((hbit p).trans (if_pos rfl)))

/-- Settles O32: SET_PIN_MODE sets the level of no pin and the mode of its own pin alone. -/
theorem setPinModeFrame : Obligations.SetPinModeFrame := by
  intro s t p m h
  have f := exec_operationFrame (by rintro _ ⟨⟩) h
  refine ⟨f.lat_of_no_level fun _ => id, fun j hj hne => f.fselRegister j hj ?_, fun j hj b hb => f.fsel j hj b ?_⟩
  · rintro q ⟨rfl, -⟩
    exact hne
  · rintro q ⟨rfl, -⟩ -
    exact hb

/-- Settles O33: SET_PIN_LEVEL, WAIT and XFER set the mode of no pin, and the levels of one, none and three pins. -/
theorem levelOperationsFrame : Obligations.LevelOperationsFrame := by
  refine ⟨fun s t p l hwf h => ?_, fun s t h => ?_, fun s t w hwf h => ?_⟩
  · obtain ⟨-, -, ⟨hset, -⟩, ⟨hclr, -⟩, -⟩ := hwf
    have f := exec_operationFrame (fun _ _ => ⟨hset, hclr⟩) h
    exact ⟨f.regT fun _ => id, f.fsel_of_no_mode fun _ => id, fun b hb => f.lat b fun hp => hb hp.1⟩
  · have f := exec_operationFrame (by rintro _ ⟨⟩) h
    exact ⟨f.regT fun _ => id, f.fsel_of_no_mode fun _ => id, f.lat_of_no_level fun _ => id⟩
  · obtain ⟨-, -, ⟨hset, -⟩, ⟨hclr, -⟩, -⟩ := hwf
    have f := exec_operationFrame (fun _ _ => ⟨hset, hclr⟩) h
    refine ⟨f.regT fun _ => id, f.fsel_of_no_mode fun _ => id, fun b hclk hdata hcs => f.lat b ?_⟩
    rintro (h | h | h)
    · exact hclk h
    · exact hdata h
    · exact hcs h

/-- Settles O6: the 28 rows are computed. -/
theorem pinOperandTable : Obligations.PinOperandTable := by
  unfold Obligations.PinOperandTable
  decide

end

section
/-! PROOFS. Taking a word from the operation input and one step of the sequencer, case by case
(spec/41_serial_transmitter.md R151 to R154). -/

namespace Sys2Proof.Machine

open Sys2Proof.Expected

variable {s t : State} {o : Instr} {mu : Micro}

/-! ### Starting an operation -/

theorem fetch_instr {w : Cell} (hd : decode w = .instr o) (run : Instr → State → Result) (s : State) :
    fetch w run s = run o s := by
  simp [fetch, hd]

theorem fetch_invalid {w : Cell} {why : Reserved} (hd : decode w = .invalid why) (run : Instr → State → Result)
    (s : State) : fetch w run s = .refused (.reservedWord w why) := by
  simp [fetch, hd]

theorem start_notAdmitted (ha : admits s.phase = false) (o : Instr) : start o s = .refused .notAdmitted := by
  simp [start, ha]

theorem start_badPin {p : Nat} (ha : admits s.phase = true) (hp : badPin o = some p) :
    start o s = .next (raiseWith .invalidPin (some o) .only 0 0 (.pin p) s) := by
  have ho : o ≠ .run := by rintro rfl; cases hp
  simp [start, ha, ho, hp]

theorem start_of_startable (h : startable o s) : start o s = .next (launch o s) := by
  obtain ⟨hphase, hpin, hcmds⟩ := h
  have hrefused : ¬ (o = .run ∧ cmdsWellFormed s.par.cmds = false) := by
    rintro ⟨ho, hill⟩
    simp [hcmds ho] at hill
  simp [start, admits_iff.2 hphase, hrefused, hpin]

/-- The phases that admit no operation are BUSY and ABORTED (R28). -/
theorem admits_eq_false_iff {p : Phase} : admits p = false ↔ p = .busy ∨ p = .aborted := by
  cases p <;> simp [admits]

/-- `start` answers a refusal for two reasons only (R151). -/
theorem start_refused {r : Refusal} (h : start o s = .refused r) :
    (admits s.phase = false ∧ r = .notAdmitted) ∨ r = .illFormedCommands := by
  unfold start at h
  split at h
  · cases h; exact .inl ⟨by simpa using ‹(!admits s.phase) = true›, rfl⟩
  · split at h
    · cases h; exact .inr rfl
    · split at h <;> cases h

/-- An operation that is refused was refused by `start` or by a step of the sequencer. -/
theorem exec_refused {r : Refusal} (h : exec o s = .refused r) :
    start o s = .refused r ∨ ∃ u, microStep u = .refused r := by
  rw [exec_eq_runOperation, runOperation] at h
  cases hs : start o s with
  | next u => rw [hs] at h; exact .inr (finish_refused _ h)
  | fault f => rw [hs] at h; cases h
  | refused r' => rw [hs] at h; cases h; exact .inl rfl

/-- The only operations that name a pin, and the pins that are bad (R151, R171). -/
theorem badPin_eq_some_iff {p : Nat} :
    badPin o = some p ↔ ((∃ m, o = .setPinMode p m) ∨ ∃ l, o = .setPinLevel p l) ∧ 27 < p := by
  have hpin (q : Nat) : (if pinValid q then none else some q) = some p ↔ q = p ∧ 27 < p := by
    by_cases hq : q ≤ 27
    · simp only [if_pos (pinValid_iff.2 hq), reduceCtorEq, false_iff]
      omega
    · simp only [if_neg (mt pinValid_iff.1 hq), Option.some.injEq]
      omega
  cases o with
  | setPinMode q m => simpa [badPin] using hpin q
  | setPinLevel q l => simpa [badPin] using hpin q
  | _ => simp [badPin]

/-! ### One step of the sequencer -/

/-- A step whose micro-operation completes with no UNMAP armed moves the program counter and nothing else. -/
theorem step_of_perform_ok {x : Unit} (hb : s.phase = .busy) (hn : s.unmapIn = none)
    (hmu : (currentItem s)[s.k]? = some mu) (hp : perform mu s = .ok x t) : step s = .next (advance t) := by
  have hunarmed : (advance t).unmapIn = none := (advance_unmapIn t).trans ((perform_frame hp).unmapIn.trans hn)
  rw [step_busy hb, microStep_of_ok hmu hp, tickUnmap_none hunarmed]

theorem advance_inside (hk : s.k + 1 < (currentItem s).length) :
    advance s = setPosition s.stage s.ci (s.k + 1) s := if_pos hk

/-- Where the program counter goes from the end of an item, by its stage (R153). -/
theorem advance_at_end {g : Stage} (hk : (currentItem s).length ≤ s.k + 1) :
    s.stage = g → advance s =
      match g with
      | .only => complete s
      | .setup => if 0 < s.par.cmds.length then setPosition .cmd 0 0 s else setPosition .teardown s.ci 0 s
      | .cmd =>
        if s.ci + 1 < s.par.cmds.length then setPosition .cmd (s.ci + 1) 0 s else setPosition .teardown s.ci 0 s
      | .teardown => complete s := by
  rintro rfl
  unfold advance
  exact (if_neg (Nat.not_lt.2 hk)).trans (by cases s.stage <;> rfl)

/-- A micro-operation on known registers completes or raises (R55, R152). -/
theorem perform_known_not_refused {r : Refusal} (hk : knownMicro s.par mu) : perform mu s ≠ .refused r := by
  intro h
  cases mu with
  | rd i =>
    simp only [perform] at h
    split at h <;> cases h
    obtain ⟨-, -, h7, -⟩ := memRead_refused ‹_›
    exact absurd hk (Nat.not_lt.2 h7)
  | wr i e =>
    obtain ⟨-, -, h7, -, hset, hclr⟩ := memWrite_refused h
    rcases hk with hi | hi | hi
    · omega
    · exact hset hi
    · exact hclr hi
  | dly n => cases h

/-- At a legal position of the program counter a step of the sequencer is always a next state (R154). -/
theorem microStep_of_positionLegal (ho : s.op = some o) (hpos : positionLegal o s) : ∃ t, microStep s = .next t := by
  obtain ⟨hpin, hk, -⟩ := hpos
  have hmu : (currentItem s)[s.k]? = some (itemMicros s.par o s.stage s.ci)[s.k] := by
    rw [currentItem, ho]
    exact List.getElem?_eq_getElem hk
  have hknown := itemMicros_known s.par o s.stage s.ci hpin _ (List.getElem_mem hk)
  cases hp : perform (itemMicros s.par o s.stage s.ci)[s.k] s with
  | ok x t => exact ⟨_, microStep_of_ok hmu hp⟩
  | raised t => exact ⟨_, microStep_of_raised hmu hp⟩
  | refused r => exact absurd hp (perform_known_not_refused hknown)

/-- Each step of the sequencer adds one event to the trace, of its micro-operation or of its fault (R153, R176). -/
theorem microStep_trace (h : microStep s = .next t) : ∃ e, t.trace = s.trace ++ [e] := by
  obtain ⟨mu, s', -, hp, rfl⟩ | ⟨q, x, rfl⟩ := microStep_completes_or_raises h
  · obtain ⟨e, htrace, -⟩ := perform_ok_event hp
    obtain ⟨r, n, htick, -⟩ := tickUnmap_eq (advance s')
    obtain ⟨g, ci, k, ph, hadv⟩ := advance_eq_relabel s'
    exact ⟨e, by rw [htick, hadv]; exact htrace⟩
  · exact ⟨_, rfl⟩

end Sys2Proof.Machine

open Sys2Proof Sys2Proof.Machine

/-- Settles O8: the step takes the call, and the decoder names the operation. -/
theorem stepRunsTheOperation : Obligations.StepRunsTheOperation :=
  fun _ _ _ _ hb hi hd => (step_event hb hi).trans (fetch_instr hd _ _)

/-- Settles O9: the step is `start`, whose checks are made in their order. -/
theorem startChecksInOrder : Obligations.StartChecksInOrder := by
  intro s w rest hb hi
  rw [step_event hb hi]
  refine ⟨fun why hd => fetch_invalid hd _ _, fun o hd => ?_⟩
  have hadmits (ha : s.phase ≠ .aborted) : s.phase = .idle ∨ s.phase = .done := by
    cases hp : s.phase <;> simp_all
  simp only [takeInput, fetch_instr hd]
  refine ⟨fun ha => ?_, fun ha ho hill => ?_, fun ha p hop hp => ?_, fun ha hcmds hpins => ?_⟩
  · exact start_notAdmitted (s := { s with inputs := rest }) (admits_eq_false_iff.2 (.inr ha)) o
  · subst ho
    exact start_illFormed (admits_iff.2 (hadmits ha)) (cmdsWellFormed_eq_false_iff.2 hill)
  · exact start_badPin (admits_iff.2 (hadmits ha)) (badPin_eq_some_iff.2 ⟨hop, hp⟩)
  · have hpin : badPin o = none := by
      refine Option.eq_none_iff_forall_ne_some.2 fun p hp => ?_
      obtain ⟨hop, hgt⟩ := badPin_eq_some_iff.1 hp
      exact absurd (hpins p hop) (by omega)
    have hwf (ho : o = .run) : cmdsWellFormed s.par.cmds = true := by
      rw [← Bool.not_eq_false, cmdsWellFormed_eq_false_iff]
      rintro ⟨cell, hmem, hcell⟩
      exact hcmds ho cell hmem hcell
    exact start_of_startable (s := { s with inputs := rest }) ⟨hadmits ha, hpin, hwf⟩

/-- Settles O10: the check of the phase is the only one that answers this refusal. -/
theorem notAdmittedWhileBusyOrAborted : Obligations.NotAdmittedWhileBusyOrAborted := by
  intro i s
  refine ⟨fun h => ?_, fun h => ?_⟩
  · obtain hs | ⟨u, hu⟩ := exec_refused h
    · obtain ⟨ha, -⟩ | hr := start_refused hs
      · exact admits_eq_false_iff.1 ha
      · cases hr
    · obtain hr | ⟨j, hr⟩ := microStep_refused hu <;> cases hr
  · rw [exec_eq_runOperation, runOperation, start_notAdmitted (admits_eq_false_iff.2 h)]

/-- Settles O12: the step is the micro-operation and then the program counter, by the place in the item. -/
theorem sequencerStep : Obligations.SequencerStep := by
  intro s s1 o mu hb ho hn hmu
  have hitem : currentItem s = itemMicros s.par o s.stage s.ci := by rw [currentItem, ho]
  rw [← hitem] at hmu ⊢
  refine ⟨fun hp => ?_, fun hp => (step_busy hb).trans (microStep_of_raised hmu hp)⟩
  have f := perform_frame hp
  rw [step_of_perform_ok hb hn hmu hp, ← f.currentItem_eq, ← f.k, ← f.stage, ← f.ci, ← f.par]
  refine ⟨fun hk => congrArg _ (advance_inside hk), fun hk => ?_⟩
  have hend {g : Stage} (hg : s1.stage = g) := advance_at_end hk.ge hg
  refine ⟨fun hg => congrArg _ (hend hg), fun hg hpos => ?_, fun hg hnone => ?_, fun hg hlt => ?_, fun hg hle => ?_,
    fun hg => congrArg _ (hend hg)⟩
  · exact congrArg _ ((hend hg).trans (if_pos hpos))
  · exact congrArg _ ((hend hg).trans (if_neg (by omega)))
  · exact congrArg _ ((hend hg).trans ((if_pos hlt).trans (by rw [← hg]; rfl)))
  · exact congrArg _ ((hend hg).trans (if_neg (by omega)))

/-- Settles O13: the access primitives on the registers they know, and the delay. -/
theorem microOperationEffects : Obligations.MicroOperationEffects := by
  intro s hv hw
  refine ⟨fun i hi => ?_, fun i hi v => ?_, fun v => ?_, fun v => ?_, fun n => rfl⟩
  · exact perform_of_memRead (memRead_fsel hv hi)
  · exact memWrite_fsel hv hi
  · exact memWrite_set hw hv
  · exact memWrite_clear hw hv

/-- Settles O49: the invariant says that the program counter of a BUSY state is legal. -/
theorem busyStepsNeverStick : Obligations.BusyStepsNeverStick := by
  rintro s ⟨-, hbusy, -⟩ hb
  obtain ⟨hop, hlegal⟩ := hbusy hb
  obtain ⟨o, ho⟩ := Option.isSome_iff_exists.1 hop
  obtain ⟨t, ht⟩ := microStep_of_positionLegal ho (hlegal o ho)
  obtain ⟨e, he⟩ := microStep_trace ht
  exact ⟨t, e, (step_busy hb).trans ht, he⟩

end

section
/-! PROOFS. Every operation that starts ends: the number of steps it has left falls by one with each step, and its
program counter stays legal (spec/41_serial_transmitter.md R148, R149, R153, R154). -/

namespace Sys2Proof.Machine

open Sys2Proof.Expected

variable {s t : State} {o : Instr}

/-! ### The steps an operation has left -/

/-- The micro-operations of the cells of CMDS from `ci` on (R147). -/
def cellsLength (c : Params) (ci : Nat) : Nat :=
  ((c.cmds.drop ci).map fun cell => (cellMicros c cell).length).sum

/-- The micro-operations of the items after the one at `stage`, `ci` (R147). -/
def stepsAfter (c : Params) (g : Stage) (ci : Nat) : Nat :=
  match g with
  | .only => 0
  | .setup => cellsLength c 0 + (teardownMicros c).length
  | .cmd => cellsLength c (ci + 1) + (teardownMicros c).length
  | .teardown => 0

/-- The steps from the program counter to the end of the operation when no fault is met (R149). -/
def stepsLeft (o : Instr) (s : State) : Nat :=
  (itemMicros s.par o s.stage s.ci).length - s.k + stepsAfter s.par s.stage s.ci

theorem cellsLength_of_lt {c : Params} {ci : Nat} (h : ci < c.cmds.length) :
    cellsLength c ci = (itemMicros c .run .cmd ci).length + cellsLength c (ci + 1) := by
  rw [cellsLength, List.drop_eq_getElem_cons h, List.map_cons, List.sum_cons, itemMicros, runMicros,
    List.getElem?_eq_getElem h]
  rfl

theorem cellsLength_of_ge {c : Params} {ci : Nat} (h : c.cmds.length ≤ ci) : cellsLength c ci = 0 := by
  simp [cellsLength, List.drop_eq_nil_of_le h]

theorem stepsLeft_launch (o : Instr) (s : State) : stepsLeft o (launch o s) = opLength s.par o := by
  by_cases ho : o = .run
  · subst ho
    exact (Nat.add_assoc _ _ _).symm
  · simp [stepsLeft, stepsAfter, ho, opLength_eq_length]

/-! ### An operation underway -/

/-- The operation `o` is in progress at a legal position of its program counter (R27). -/
structure Underway (o : Instr) (s : State) : Prop where
  busy : s.phase = .busy
  op : s.op = some o
  legal : positionLegal o s

namespace Underway

theorem of_launch (h : startable o s) : Underway o (launch o s) := by
  obtain ⟨-, hpin, hcmds⟩ := h
  refine ⟨rfl, rfl, hpin, ?_, by simp, hcmds, by simp; split <;> simp⟩
  by_cases ho : o = .run
  · subst ho; simp [itemMicros, runMicros]
  · simpa [itemMicros_stage ho] using itemMicros_only_pos ho s.par

theorem stepsLeft_pos (h : Underway o s) : 0 < stepsLeft o s := by
  obtain ⟨-, hk, -⟩ := h.legal
  simp only [stepsLeft]
  omega

/-- A micro-operation that completes keeps the position (R152). -/
theorem sameButData (h : Underway o s) (f : SameButData s t) : Underway o t ∧ stepsLeft o t = stepsLeft o s := by
  refine ⟨⟨f.phase.trans h.busy, f.op.trans h.op, ?_⟩, by simp only [stepsLeft, f.par, f.stage, f.ci, f.k]⟩
  have hlegal := h.legal
  simpa only [positionLegal, f.par, f.stage, f.ci, f.k] using hlegal

/-- From the last position of an item of RUN to the first position of the item that comes next (R147, R153). -/
theorem item_start (h : Underway o s) (hstage : s.stage ≠ .only) {g : Stage} {ci : Nat} (hg : g ≠ .only)
    (hci : g = .cmd → ci < s.par.cmds.length)
    (hleft : (runMicros s.par g ci).length + stepsAfter s.par g ci = stepsAfter s.par s.stage s.ci)
    (hk : (currentItem s).length ≤ s.k + 1) :
    Underway o (setPosition g ci 0 s) ∧ stepsLeft o (setPosition g ci 0 s) + 1 = stepsLeft o s := by
  obtain ⟨-, hlt, hrun, hcmds, -⟩ := h.legal
  obtain rfl := hrun.2 hstage
  refine ⟨⟨h.busy, h.op, positionLegal_run_first (hcmds rfl) hg hci⟩, ?_⟩
  rw [currentItem, h.op] at hk
  simp only [stepsLeft, setPosition_par, setPosition_stage, setPosition_ci, setPosition_k, itemMicros] at hlt hk ⊢
  omega

/-- The program counter moves to the next position, with one step less to go, or the operation is DONE (R153). -/
theorem advance (h : Underway o s) :
    (advance s).phase = .done ∨ (Underway o (advance s) ∧ stepsLeft o (advance s) + 1 = stepsLeft o s) := by
  rcases advance_cases s with ⟨hk, e⟩ |
    ⟨hk, ⟨-, e⟩ | ⟨hs, hn, e⟩ | ⟨hs, hn, e⟩ | ⟨hs, hn, e⟩ | ⟨hs, hn, e⟩ | ⟨-, e⟩⟩ <;> rw [e]
  · obtain ⟨hpin, hlt, hrest⟩ := h.legal
    rw [currentItem, h.op] at hk
    refine .inr ⟨⟨h.busy, h.op, hpin, hk, hrest⟩, ?_⟩
    simp only [stepsLeft, setPosition_par, setPosition_stage, setPosition_ci, setPosition_k] at hk ⊢
    omega
  · exact .inl rfl
  · have hcells := cellsLength_of_lt hn
    have hleft : (runMicros s.par .cmd 0).length + stepsAfter s.par .cmd 0 = stepsAfter s.par s.stage s.ci := by
      simp only [stepsAfter, hs, hcells, itemMicros]
      omega
    exact .inr (h.item_start (by simp [hs]) (by simp) (fun _ => hn) hleft hk)
  · have hcells := cellsLength_of_ge hn.le
    exact .inr (h.item_start (by simp [hs]) (by simp) (by simp) (by simp [stepsAfter, hs, hcells, runMicros]) hk)
  · have hcells := cellsLength_of_lt hn
    have hleft : (runMicros s.par .cmd (s.ci + 1)).length + stepsAfter s.par .cmd (s.ci + 1) =
        stepsAfter s.par s.stage s.ci := by
      simp only [stepsAfter, hs, hcells, itemMicros]
      omega
    exact .inr (h.item_start (by simp [hs]) (by simp) (fun _ => hn) hleft hk)
  · have hcells := cellsLength_of_ge hn
    exact .inr (h.item_start (by simp [hs]) (by simp) (by simp) (by simp [stepsAfter, hs, hcells, runMicros]) hk)
  · exact .inl rfl

/-- A tick of the countdown keeps the position. -/
theorem tickUnmap (h : Underway o s) : Underway o (tickUnmap s) ∧ stepsLeft o (tickUnmap s) = stepsLeft o s := by
  obtain ⟨r, n, htick, -⟩ := tickUnmap_eq s
  rw [htick]
  exact ⟨⟨h.busy, h.op, h.legal⟩, rfl⟩

/-- One step of the sequencer: the operation ends, or it has one step less to go (R153, R154). -/
theorem microStep (h : Underway o s) :
    ∃ t, microStep s = .next t ∧
      ((t.phase = .done ∨ t.phase = .aborted) ∨ (Underway o t ∧ stepsLeft o t + 1 = stepsLeft o s)) := by
  obtain ⟨t, ht⟩ := microStep_of_positionLegal h.op h.legal
  refine ⟨t, ht, ?_⟩
  obtain ⟨mu, s', -, hp, rfl⟩ | ⟨q, x, rfl⟩ := microStep_completes_or_raises ht
  · obtain ⟨h', hleft⟩ := h.sameButData (perform_frame hp)
    rcases h'.advance with hdone | ⟨hadv, hadvLeft⟩
    · obtain ⟨r, n, htick, -⟩ := tickUnmap_eq (Machine.advance s')
      exact .inl (.inl (by rw [htick]; exact hdone))
    · obtain ⟨htick, htickLeft⟩ := hadv.tickUnmap
      exact .inr ⟨htick, by omega⟩
  · exact .inl (.inr rfl)

end Underway

/-! ### A whole operation -/

/-- The operation `o` has ended or ends within `n` steps. -/
def EndsWithin (o : Instr) (n : Nat) (s : State) : Prop :=
  (s.phase = .done ∨ s.phase = .aborted) ∨ (Underway o s ∧ stepsLeft o s ≤ n)

theorem not_busy_of_ended (h : s.phase = .done ∨ s.phase = .aborted) : s.phase ≠ .busy := by
  rcases h with h | h <;> simp [h]

theorem finish_of_endsWithin (n : Nat) (h : EndsWithin o n s) :
    ∃ t, finish n s = .next t ∧ (t.phase = .done ∨ t.phase = .aborted) := by
  induction n generalizing s with
  | zero =>
    obtain hend | ⟨hrun, hleft⟩ := h
    · exact ⟨s, rfl, hend⟩
    · have := hrun.stepsLeft_pos; omega
  | succ n ih =>
    obtain hend | ⟨hrun, hleft⟩ := h
    · exact ⟨s, finish_done _ (not_busy_of_ended hend), hend⟩
    · obtain ⟨t, ht, hnext⟩ := hrun.microStep
      rw [finish_succ hrun.busy ht]
      exact ih (hnext.imp_right fun ⟨hrun', hless⟩ => ⟨hrun', by omega⟩)

theorem start_par_inputs (h : start o s = .next t) : t.par = s.par ∧ t.inputs = s.inputs := by
  obtain ⟨-, -, ⟨p, -, rfl⟩ | ⟨-, rfl⟩⟩ := start_next h <;> exact ⟨rfl, rfl⟩

/-- An operation that is admitted starts, or its pin is bad (R151). -/
theorem start_of_admitted (hphase : s.phase = .idle ∨ s.phase = .done)
    (hcmds : o = .run → cmdsWellFormed s.par.cmds = true) : ∃ t, start o s = .next t := by
  cases hpin : badPin o with
  | none => exact ⟨_, start_of_startable ⟨hphase, hpin, hcmds⟩⟩
  | some p => exact ⟨_, start_badPin (admits_iff.2 hphase) hpin⟩

theorem endsWithin_of_start (h : start o s = .next t) : EndsWithin o (opLength s.par o) t := by
  obtain ⟨ha, hcmds, ⟨p, -, rfl⟩ | ⟨hpin, rfl⟩⟩ := start_next h
  · exact .inl (.inr rfl)
  · exact .inr ⟨.of_launch ⟨admits_iff.1 ha, hpin, hcmds⟩, (stepsLeft_launch o s).le⟩

/-! ### The machine, step by step -/

/-- R202: nothing asked, nothing done. -/
theorem step_unasked (hb : s.phase ≠ .busy) (hi : s.inputs = []) : step s = .next s := by
  simp [step, machineStep, hb, hi]

theorem run_succ (n : Nat) (h : step s = .next t) : core.run (n + 1) s = core.run n t := by
  have hcore : core.step s = .next t := h
  simp only [Host.Core.run, hcore]

theorem run_unasked (n : Nat) (hb : s.phase ≠ .busy) (hi : s.inputs = []) : core.run n s = .next s := by
  induction n with
  | zero => rfl
  | succ n ih => rw [run_succ n (step_unasked hb hi), ih]

/-- Steps of the machine with nothing from the host are steps of the sequencer, up to the end of the operation. -/
theorem run_eq_finish {m n : Nat} (h : EndsWithin o m s) (hi : s.inputs = []) (hmn : m ≤ n) :
    core.run n s = finish m s := by
  induction m generalizing s n with
  | zero =>
    obtain hend | ⟨hrun, hleft⟩ := h
    · exact run_unasked n (not_busy_of_ended hend) hi
    · have := hrun.stepsLeft_pos; omega
  | succ m ih =>
    obtain hend | ⟨hrun, hleft⟩ := h
    · rw [finish_done _ (not_busy_of_ended hend)]
      exact run_unasked n (not_busy_of_ended hend) hi
    · obtain ⟨n, rfl⟩ := Nat.exists_eq_add_of_le' (Nat.le_of_add_left_le hmn)
      obtain ⟨t, ht, hnext⟩ := hrun.microStep
      rw [run_succ n ((step_busy hrun.busy).trans ht), finish_succ hrun.busy ht]
      exact ih (hnext.imp_right fun ⟨hrun', hless⟩ => ⟨hrun', by omega⟩) ((microStep_inputs ht).trans hi)
        (Nat.le_of_succ_le_succ hmn)

end Sys2Proof.Machine

open Sys2Proof Sys2Proof.Machine

/-- Settles O14: both ways start the operation the same, and the steps of the sequencer are those of the operation. -/
theorem callIsStartThenSteps : Obligations.CallIsStartThenSteps := by
  intro s w i n hb hd hn
  have hcall : step { s with inputs := [.call w] } = runOperation i { s with inputs := [] } :=
    (step_event (s := { s with inputs := [.call w] }) hb rfl).trans
      ((fetch_instr hd exec _).trans (exec_eq_runOperation i _))
  have hstart : step { s with inputs := [.start w] } = start i { s with inputs := [] } :=
    (step_event (s := { s with inputs := [.start w] }) hb rfl).trans (fetch_instr hd start _)
  rw [hcall, runOperation]
  cases hs : start i { s with inputs := [] } with
  | next t =>
    obtain ⟨hpar, hinputs⟩ := start_par_inputs hs
    rw [run_succ n (hstart.trans hs), run_eq_finish (endsWithin_of_start hs) hinputs hn]
    exact congrArg (fun c => finish (opLength c i) t) hpar.symm
  | fault f => simp only [Host.Core.run, core, hstart, hs]
  | refused r => simp only [Host.Core.run, core, hstart, hs]

/-- Settles O30: each step of the operation leaves one step less, so it ends within its length. -/
theorem admittedOperationsEnd : Obligations.AdmittedOperationsEnd := by
  intro i s _ hphase hcmds
  obtain ⟨u, hu⟩ := start_of_admitted hphase hcmds
  have hends := endsWithin_of_start hu
  rw [← (start_par_inputs hu).1] at hends
  obtain ⟨t, ht, hphase⟩ := finish_of_endsWithin _ hends
  exact ⟨t, by rw [exec_eq_runOperation, runOperation, hu]; exact ht, hphase⟩

end

section
/-! PROOFS. The micro-operations and the events of one word, by position, with what XFER and WAIT do and their counts
(spec/41_serial_transmitter.md R141, R142, R143, R146). -/

namespace Sys2Proof.Machine

open Sys2Proof.Expected

variable {s : State} {o : Instr} {c : Params}

/-! ### Positions inside a word -/

/-- A place in a list of pieces of one length: the piece, and the place inside it. -/
theorem getElem?_flatMap_of_length {α β : Type} {f : α → List β} {n : Nat} (hf : ∀ x, (f x).length = n)
    (l : List α) {j r : Nat} (hr : r < n) : (l.flatMap f)[n * j + r]? = l[j]?.bind fun x => (f x)[r]? := by
  induction l generalizing j with
  | nil => simp
  | cons x l ih =>
    rw [List.flatMap_cons]
    cases j with
    | zero => simp [List.getElem?_append_left, hf, hr]
    | succ j =>
      have hplace : n * (j + 1) + r - n = n * j + r := by rw [Nat.mul_succ]; omega
      rw [List.getElem?_append_right (by rw [hf, Nat.mul_succ]; omega), hf, hplace, ih, List.getElem?_cons_succ]

theorem bitsSent_getElem? (w : BitVec 9) {j : Nat} (hj : j < 9) : (bitsSent w)[j]? = some (w.getLsbD (8 - j)) := by
  simp [bitsSent, hj]

/-- Positions 1 to 45 of a word: five for each bit, from `w[8]` to `w[0]` (R141, R146). -/
theorem getElem?_bit_of_word {α : Type} {f : Bool → List α} (hf : ∀ b, (f b).length = 5) (x : α) (tail : List α)
    (w : BitVec 9) {j r : Nat} (hj : j < 9) (hr : r < 5) :
    ([x] ++ (bitsSent w).flatMap f ++ tail)[1 + (5 * j + r)]? = (f (w.getLsbD (8 - j)))[r]? := by
  have hlen : ((bitsSent w).flatMap f).length = 45 := by
    simp [List.length_flatMap, hf, bitsSent, Function.comp_def]
  rw [List.getElem?_append_left (by simp [hlen]; omega), List.getElem?_append_right (by simp),
    List.length_singleton, Nat.add_sub_cancel_left, getElem?_flatMap_of_length hf _ hr, bitsSent_getElem? w hj]
  rfl

theorem setPinLevelMicros_eq (c : Params) {p : Nat} (hp : p ≤ 27) (l : Bool) :
    setPinLevelMicros c p l = [.wr (if l then c.gpset else c.gpclr) (.const (pinBit p))] := by
  rw [setPinLevelMicros, levelIndex_valid c hp, levelWord_eq hp]
  rfl

theorem levelEvent_eq (c : Params) {p : Nat} (hp : p ≤ 27) (l : Bool) :
    levelEvent c p l = .write (if l then c.gpset else c.gpclr) (pinBit p) := by
  rw [levelEvent, levelWord_eq hp]
  rfl

/-- The five micro-operations of a bit (R141). -/
theorem bitMicros_eq (c : Params) (b : Bool) :
    bitMicros c b =
      [.wr (if b then c.gpset else c.gpclr) (.const (pinBit c.pinData)), .wr c.gpclr (.const (pinBit c.pinClk)),
       .dly 100, .wr c.gpset (.const (pinBit c.pinClk)), .dly 100] := by
  simp only [bitMicros, setPinLevelMicros_eq c (pin_le _)]
  rfl

/-- The five events of a bit (R141). -/
theorem bitEvents_eq (c : Params) (b : Bool) :
    bitEvents c b =
      [.write (if b then c.gpset else c.gpclr) (pinBit c.pinData), .write c.gpclr (pinBit c.pinClk), .delay 100,
       .write c.gpset (pinBit c.pinClk), .delay 100] := by
  simp only [bitEvents, levelEvent_eq c (pin_le _)]
  rfl

theorem xferMicros_getElem?_bit (c : Params) (w : BitVec 9) {j r : Nat} (hj : j < 9) (hr : r < 5) :
    (xferMicros c w)[1 + (5 * j + r)]? = (bitMicros c (w.getLsbD (8 - j)))[r]? := by
  rw [xferMicros, List.append_assoc]
  exact getElem?_bit_of_word (fun _ => rfl) _ _ w hj hr

/-- The events of a word are those of the table (R141). -/
theorem wordEvents_eq_xferEvents (c : Params) (w : BitVec 9) : wordEvents c w = xferEvents c w := by
  simp only [wordEvents, bitEvents_eq, levelEvent_eq c (pin_le _), bitsSent, List.flatMap_map]
  rfl

/-- A word by its ends and its bits (R141). -/
theorem xferEvents_eq (c : Params) (w : BitVec 9) :
    xferEvents c w = [.write c.gpclr (pinBit c.pinCs)] ++ (bitsSent w).flatMap (bitEvents c) ++
      [.write c.gpclr (pinBit c.pinData), .write c.gpset (pinBit c.pinCs)] := by
  simp only [← wordEvents_eq_xferEvents, wordEvents, levelEvent_eq c (pin_le _)]
  rfl

theorem xferEvents_getElem?_bit (c : Params) (w : BitVec 9) {j r : Nat} (hj : j < 9) (hr : r < 5) :
    (xferEvents c w)[1 + (5 * j + r)]? = (bitEvents c (w.getLsbD (8 - j)))[r]? := by
  rw [xferEvents_eq]
  exact getElem?_bit_of_word (f := bitEvents c) (fun _ => rfl) _ _ w hj hr

theorem decodeCommand_xfer {cell : Cell} {w : BitVec 9} (h : decode cell = .instr (.xfer w)) :
    decodeCommand cell = some (.xfer w) := by
  simp [decodeCommand, h]

/-! ### The latch after a word -/

theorem latchTo_eq {p : Nat} (hp : p ≤ 27) (l : Bool) (v : Word) :
    latchTo p l v = if l then v ||| pinBit p else v &&& ~~~pinBit p := by
  rw [latchTo, levelWord_eq hp]
  rfl

theorem xferLat_eq (c : Params) (v : Word) :
    xferLat c v = latchTo c.pinCs true (latchTo c.pinData false (latchTo c.pinClk true v)) := by
  simp only [latchTo_eq (pin_le _)]
  rfl

/-- Clock high, data low, chip-select high, the rest as before (R157). -/
theorem xferLat_getLsbD (c : Params) (v : Word) (j : Nat) :
    (xferLat c v).getLsbD j =
      if j = c.pinCs.val then true else if j = c.pinData.val then false
      else if j = c.pinClk.val then true else v.getLsbD j := by
  simp only [xferLat_eq, latchTo_getLsbD (pin_le _)]

theorem wordLatch_eq_xferLat (hc : c.wf) (w : BitVec 9) (v : Word) : wordLatch c w v = xferLat c v :=
  BitVec.eq_of_getLsbD_eq fun j _ => (wordLatch_getLsbD c hc w v j).trans (xferLat_getLsbD c v j).symm

theorem xferLat_xferLat (c : Params) (v : Word) : xferLat c (xferLat c v) = xferLat c v := by
  refine BitVec.eq_of_getLsbD_eq fun j _ => ?_
  simp only [xferLat_getLsbD]
  split_ifs <;> rfl

/-- A word in terms of the table: the latch and the trace, nothing else (R141). -/
theorem effects_xfer_eq (hr : Ready s) (v : Word) (ev : List Event) (w : BitVec 9) :
    effects (xferMicros s.par w) (relatch v ev s) = relatch (xferLat s.par v) (ev ++ xferEvents s.par w) s := by
  rw [effects_xfer hr, wordLatch_eq_xferLat hr.wf, wordEvents_eq_xferEvents]

/-! ### The operations -/

theorem ready_of_clear (h : clear s) : Ready s := by
  obtain ⟨hwf, hvalid, hmapped⟩ := h
  exact ⟨hwf, hvalid, hmapped⟩

/-- An operation other than RUN that nothing stands in the way of (R153). -/
theorem exec_of_ready (ho : o ≠ .run) (hphase : s.phase = .idle ∨ s.phase = .done) (hpin : badPin o = none)
    (hr : Ready s) :
    exec o s =
      .next (relabel (some o) .only 0 ((itemMicros s.par o .only 0).length - 1) .done
        (effects (itemMicros s.par o .only 0) s)) :=
  (exec_eq_runOperation o s).trans (runOperation_only ho (admits_iff.2 hphase) hpin hr)

theorem exec_xfer_completes (hphase : s.phase = .idle ∨ s.phase = .done) (hr : Ready s) (w : BitVec 9) :
    exec (.xfer w) s = .next
      { s with
        op := some (.xfer w), stage := .only, ci := 0, k := 47, phase := .done,
        lat := xferLat s.par s.lat, trace := s.trace ++ xferEvents s.par w } := by
  have heffect : effects (itemMicros s.par (.xfer w) .only 0) s = _ :=
    (congrArg _ (relatch_self s).symm).trans (effects_xfer_eq hr s.lat [] w)
  rw [exec_of_ready (by simp) hphase rfl hr, heffect]
  rfl

/-! ### The counts of a word -/

@[simp] theorem pinBit_inj {p q : Fin 28} : pinBit p = pinBit q ↔ p = q :=
  ⟨fun h => Fin.ext (pinBit_injective (by omega) (by omega) h), fun h => h ▸ rfl⟩

/-- A measure of traces that adds up over an append: a count, the length, the nominal duration. -/
def AddsUp (m : List Event → Nat) : Prop := ∀ a b, m (a ++ b) = m a + m b

theorem addsUp_countP (p : Event → Bool) : AddsUp (List.countP p) := fun _ _ => List.countP_append

theorem addsUp_count (e : Event) : AddsUp (List.count e) := fun _ _ => List.count_append

theorem addsUp_length : AddsUp List.length := fun _ _ => List.length_append

theorem addsUp_nominalDuration : AddsUp nominalDuration := fun a b => by simp [nominalDuration]

theorem AddsUp.flatMap {α : Type} {m : List Event → Nat} (hm : AddsUp m) (f : α → List Event) (l : List α) :
    m (l.flatMap f) = (l.map fun x => m (f x)).sum := by
  have hnil : m [] = 0 := by simpa using hm [] []
  induction l with
  | nil => exact hnil
  | cons x l ih => rw [List.flatMap_cons, hm, ih, List.map_cons, List.sum_cons]

/-- The measure of a word, when it is the same for every bit. -/
theorem AddsUp.word {m : List Event → Nat} (hm : AddsUp m) (c : Params) (w : BitVec 9) {n : Nat}
    (hbit : ∀ b, m (bitEvents c b) = n) :
    m (xferEvents c w) = m [.write c.gpclr (pinBit c.pinCs)] + 9 * n +
      m [.write c.gpclr (pinBit c.pinData), .write c.gpset (pinBit c.pinCs)] := by
  have hbits : m ((bitsSent w).flatMap (bitEvents c)) = 9 * n := by
    rw [hm.flatMap, funext hbit, List.map_const', List.sum_replicate]
    rfl
  rw [xferEvents_eq, hm, hm, hbits]

/-! The counts of a word do not depend on its bits (R142). -/

theorem xferEvents_writes (c : Params) (w : BitVec 9) : (xferEvents c w).countP isWrite = 30 :=
  (addsUp_countP isWrite).word c w (n := 3) fun _ => rfl

theorem xferEvents_reads (c : Params) (w : BitVec 9) : (xferEvents c w).countP isRead = 0 :=
  (addsUp_countP isRead).word c w (n := 0) fun _ => rfl

theorem xferEvents_halfPeriods (c : Params) (w : BitVec 9) : (xferEvents c w).count (.delay 100) = 18 :=
  (addsUp_count _).word c w (n := 2) fun _ => rfl

theorem xferEvents_waits (c : Params) (w : BitVec 9) : (xferEvents c w).count (.delay 120000) = 0 :=
  (addsUp_count _).word c w (n := 0) fun _ => rfl

theorem xferEvents_length (c : Params) (w : BitVec 9) : (xferEvents c w).length = 48 := rfl

theorem xferEvents_nominalDuration (c : Params) (w : BitVec 9) : nominalDuration (xferEvents c w) = 1800 :=
  addsUp_nominalDuration.word c w (n := 200) fun _ => rfl

/-- The clock goes high only inside a bit, one delay after the write that lowers it (R142). -/
theorem clock_high_position (hc : c.wf) {w : BitVec 9} {a : Nat}
    (h : (xferEvents c w)[a]? = some (.write c.gpset (pinBit c.pinClk))) : ∃ j < 9, a = 1 + (5 * j + 3) := by
  obtain ⟨⟨hclkdata, hclkcs, -⟩, -, -, -, hset⟩ := hc
  have hlt : a < 48 := (List.getElem?_eq_some_iff.1 h).1
  rcases Nat.eq_zero_or_pos a with rfl | hpos
  · have hfirst : (xferEvents c w)[0]? = some (.write c.gpclr (pinBit c.pinCs)) := rfl
    simp [hfirst, hset.symm] at h
  · by_cases hin : a ≤ 45
    · obtain ⟨j, r, hr, rfl⟩ : ∃ j r, r < 5 ∧ a = 1 + (5 * j + r) :=
        ⟨(a - 1) / 5, (a - 1) % 5, Nat.mod_lt _ (by omega), by omega⟩
      have hj : j < 9 := by omega
      rw [xferEvents_getElem?_bit c w hj hr, bitEvents_eq] at h
      refine ⟨j, hj, ?_⟩
      interval_cases r
      · simp [hclkdata.symm] at h
      · simp [hset.symm] at h
      · simp at h
      · rfl
      · simp at h
    · obtain rfl | rfl : a = 46 ∨ a = 47 := by omega
      · have hdata : (xferEvents c w)[46]? = some (.write c.gpclr (pinBit c.pinData)) := rfl
        simp [hdata, hset.symm] at h
      · have hlast : (xferEvents c w)[47]? = some (.write c.gpset (pinBit c.pinCs)) := rfl
        simp [hlast, hclkcs.symm] at h

end Sys2Proof.Machine

open Sys2Proof Sys2Proof.Machine

/-- Settles O29: five positions for each bit, so `k - 1` divided by five gives the bit and the place in it. -/
theorem positionInsideWord : Obligations.PositionInsideWord := by
  intro s cell w hop hstage hcell hd
  refine ⟨by simp [wordSent, hop, hstage, hcell, decodeCommand_xfer hd], rfl, rfl, rfl, fun k h1 h45 => ?_⟩
  refine ⟨if_pos ⟨h1, h45⟩, ?_⟩
  have hplace : 1 + (5 * ((k - 1) / 5) + (k - 1) % 5) = k := by omega
  have hr : (k - 1) % 5 < 5 := Nat.mod_lt _ (by omega)
  rw [← hplace, xferMicros_getElem?_bit s.par w (by omega) hr, bitMicros_eq, hplace]
  generalize (k - 1) % 5 = r at hr
  generalize (k - 1) / 5 = j
  interval_cases r <;> rfl

/-- Settles O20: the 48 micro-operations in order, and the first of them on an invalid register space. -/
theorem xferEffect : Obligations.XferEffect := by
  intro s w hphase hwf
  refine ⟨fun hv hn => exec_xfer_completes hphase ⟨hwf, hv, hn⟩ w, fun hv => ?_⟩
  obtain ⟨-, -, -, ⟨-, hclr⟩, -⟩ := hwf
  have hindex : levelIndex s.par s.par.pinCs false = s.par.gpclr := levelIndex_valid s.par (pin_le _) false
  have hwrite : perform (.wr (levelIndex s.par s.par.pinCs false) (.const (levelWord s.par.pinCs)))
      (launch (.xfer w) s) = .raised _ := memWrite_invalid hv (by omega)
  rw [← hindex]
  exact exec_first_access_raises (by simp) hphase rfl rfl hwrite

/-- Settles O22: the events of the table are counted bit by bit. -/
theorem xferCounts : Obligations.XferCounts := by
  intro s w hphase hclear
  have hr := ready_of_clear hclear
  have hc := hr.wf
  obtain ⟨⟨hclkdata, hclkcs, hdatacs⟩, -, -, -, hset⟩ := id hc
  refine ⟨_, Expected.xferEvents s.par w, exec_xfer_completes hphase hr w, rfl,
    xferEvents_writes _ w, xferEvents_halfPeriods _ w, xferEvents_reads _ w, xferEvents_nominalDuration _ w, ?_,
    fun a ha => ?_, ?_, ?_, ?_, ?_⟩
  · rw [(addsUp_count _).word s.par w (n := 1) fun b => by simp [bitEvents_eq, hclkdata.symm, hset.symm]]
    simp [hclkcs.symm, hset.symm]
  · obtain ⟨j, hj, rfl⟩ := clock_high_position hc ha
    refine ⟨by omega, ?_, ?_⟩
    · rw [show 1 + (5 * j + 3) - 2 = 1 + (5 * j + 1) by omega, xferEvents_getElem?_bit s.par w hj (by omega),
        bitEvents_eq]
      rfl
    · rw [show 1 + (5 * j + 3) - 1 = 1 + (5 * j + 2) by omega, xferEvents_getElem?_bit s.par w hj (by omega),
        bitEvents_eq]
      rfl
  · rw [(addsUp_count _).word s.par w (n := 0) fun b => by simp [bitEvents_eq, hclkcs, hdatacs]]
    simp [hdatacs, hset]
  · rw [xferEvents_eq]
    rfl
  · rw [(addsUp_count _).word s.par w (n := 0) fun b => by simp [bitEvents_eq, hclkcs, hdatacs]]
    simp [hdatacs, hset.symm]
  · rw [xferEvents_eq, List.getLast?_append_of_ne_nil _ (by simp)]
    rfl

/-- Settles O24: the one delay makes no access, so neither the parameters nor `rs_valid` matter. -/
theorem waitEffect : Obligations.WaitEffect := by
  intro s hphase hn
  have hstep : microStep (launch .wait s) = .next (tickUnmap (advance (delay 120000 (launch .wait s)))) :=
    microStep_of_ok (mu := .dly 120000) rfl rfl
  rw [advance_of_last rfl le_rfl, tickUnmap_none (by exact hn)] at hstep
  rw [exec_of_startable ⟨hphase, rfl, fun h => by cases h⟩]
  exact finish_succ rfl hstep

end

section
/-! PROOFS. SETUP, TEARDOWN and RUN when no fault is met: the whole state they leave, every event, and the counts of
RUN (spec/41_serial_transmitter.md R144, R145, R147, R148). -/

namespace Sys2Proof.Machine

open Sys2Proof.Expected

variable {s : State} {c : Params} {cell : Cell}

/-! ### The three modes -/

/-- The state with other function-select registers, another `T` and a longer trace. -/
def remode (f : Vector Word 7) (v : Word) (ev : List Event) (s : State) : State :=
  { s with fsel := f, t := v, trace := s.trace ++ ev }

theorem remode_self (s : State) : remode s.fsel s.t [] s = s := by simp [remode]

theorem remode_ready {f : Vector Word 7} {v : Word} {ev : List Event} (hr : Ready s) : Ready (remode f v ev s) :=
  ⟨hr.wf, hr.valid, hr.mapped⟩

/-- The mode settings of the three pins, clock, data, chip-select (R144, R145). -/
def threeModesMicros (c : Params) (m : PinMode) : List Micro :=
  setPinModeMicros c c.pinClk m ++ setPinModeMicros c c.pinData m ++ setPinModeMicros c c.pinCs m

/-- One mode setting in terms of the registers it leaves (R120). -/
theorem effects_modeSet (hr : Ready s) (f : Vector Word 7) (v : Word) (ev : List Event) (p : Fin 28) (m : PinMode) :
    effects (setPinModeMicros s.par p m) (remode f v ev s) =
      remode (modeSet f p (modeCodeOf s.par.modeCode m)) (bankOf f p)
        (ev ++ [.read (p.val / 10) (bankOf f p),
          .write (p.val / 10) (bankOf (modeSet f p (modeCodeOf s.par.modeCode m)) p)]) s := by
  have hwritten : bankOf (modeSet f p (modeCodeOf s.par.modeCode m)) p =
      withCode (bankOf f p) p (modeCodeOf s.par.modeCode m) := Vector.getElem_set_self _
  rw [hwritten]
  refine (effects_setPinMode (s := remode f v ev s) ⟨hr.wf, hr.valid, hr.mapped⟩ (pin_le p) m).trans ?_
  simp only [remode, List.append_assoc]
  rfl

/-- The three mode settings (R144, R145). -/
theorem effects_threeModes (hr : Ready s) (m : PinMode) :
    effects (threeModesMicros s.par m) s =
      remode (threeModes s.par (modeCodeOf s.par.modeCode m) s.fsel)
        (lastRead s.par (modeCodeOf s.par.modeCode m) s.fsel)
        (modeEvents s.par (modeCodeOf s.par.modeCode m) s.fsel) s := by
  have hclk := effects_modeSet hr s.fsel s.t [] s.par.pinClk m
  rw [remode_self] at hclk
  rw [threeModesMicros, effects_append, effects_append, hclk, effects_modeSet hr, effects_modeSet hr]
  rfl

/-! ### SETUP and TEARDOWN -/

theorem setupLat_eq (c : Params) (v : Word) :
    setupLat c v = latchTo c.pinData false (latchTo c.pinClk false (latchTo c.pinCs true v)) := by
  simp only [latchTo_eq (pin_le _)]
  rfl

/-- The three level writes of SETUP: chip-select high, clock low, data low (R144). -/
theorem effects_setupLevels (hr : Ready s) :
    effects (setPinLevelMicros s.par s.par.pinCs true ++ setPinLevelMicros s.par s.par.pinClk false ++
        setPinLevelMicros s.par s.par.pinData false) s =
      relatch (setupLat s.par s.lat) [.write s.par.gpset (pinBit s.par.pinCs),
        .write s.par.gpclr (pinBit s.par.pinClk), .write s.par.gpclr (pinBit s.par.pinData)] s := by
  have hcs := effects_level hr s.lat [] (pin_le s.par.pinCs) true
  rw [relatch_self] at hcs
  rw [effects_append, effects_append, hcs, effects_level hr _ _ (pin_le _), effects_level hr _ _ (pin_le _),
    ← setupLat_eq]
  simp only [levelEvent_eq s.par (pin_le _)]
  rfl

/-- The registers and the trace after SETUP (R144). -/
def afterSetup (s : State) : State :=
  { s with
    t := lastRead s.par s.par.modeCode.output s.fsel,
    fsel := threeModes s.par s.par.modeCode.output s.fsel, lat := setupLat s.par s.lat,
    trace := s.trace ++ setupEvents s.par s.fsel }

/-- The registers and the trace after TEARDOWN (R145). -/
def afterTeardown (s : State) : State :=
  { s with
    t := lastRead s.par s.par.modeCode.input s.fsel,
    fsel := threeModes s.par s.par.modeCode.input s.fsel,
    trace := s.trace ++ teardownEvents s.par s.fsel }

theorem effects_setup (hr : Ready s) : effects (setupMicros s.par) s = afterSetup s := by
  have hmicros : setupMicros s.par = threeModesMicros s.par .output ++
      (setPinLevelMicros s.par s.par.pinCs true ++ setPinLevelMicros s.par s.par.pinClk false ++
        setPinLevelMicros s.par s.par.pinData false) := rfl
  rw [hmicros, effects_append, effects_threeModes hr]
  refine (effects_setupLevels (remode_ready hr)).trans ?_
  simp only [relatch, remode, List.append_assoc]
  rfl

theorem effects_teardown (hr : Ready s) : effects (teardownMicros s.par) s = afterTeardown s :=
  effects_threeModes hr .input

theorem exec_setup_completes (hphase : s.phase = .idle ∨ s.phase = .done) (hr : Ready s) :
    exec .setup s = .next
      { s with
        op := some .setup, stage := .only, ci := 0, k := 8, phase := .done,
        t := lastRead s.par s.par.modeCode.output s.fsel,
        fsel := threeModes s.par s.par.modeCode.output s.fsel, lat := setupLat s.par s.lat,
        trace := s.trace ++ setupEvents s.par s.fsel } := by
  have heffect : effects (itemMicros s.par .setup .only 0) s = _ := effects_setup hr
  rw [exec_of_ready (by simp) hphase rfl hr, heffect]
  rfl

theorem exec_teardown_completes (hphase : s.phase = .idle ∨ s.phase = .done) (hr : Ready s) :
    exec .teardown s = .next
      { s with
        op := some .teardown, stage := .only, ci := 0, k := 5, phase := .done,
        t := lastRead s.par s.par.modeCode.input s.fsel,
        fsel := threeModes s.par s.par.modeCode.input s.fsel,
        trace := s.trace ++ teardownEvents s.par s.fsel } := by
  have heffect : effects (itemMicros s.par .teardown .only 0) s = _ := effects_teardown hr
  rw [exec_of_ready (by simp) hphase rfl hr, heffect]
  rfl

/-! ### The cells of CMDS -/

/-- A cell that holds a command is an XFER or a WAIT (R91, R106). -/
theorem xfer_or_wait_of_command (h : (decodeCommand cell).isSome = true) :
    (∃ w, decode cell = .instr (.xfer w)) ∨ decode cell = .instr .wait := by
  by_contra hno
  rw [not_or, not_exists, ← decodeCommand_eq_none_iff] at hno
  simp [hno] at h

/-- What the model and the tables say of a cell that holds an XFER. -/
theorem cell_of_xfer {w : BitVec 9} (c : Params) (h : decode cell = .instr (.xfer w)) :
    cellMicros c cell = xferMicros c w ∧ cellEvents c cell = xferEvents c w ∧ isXferCell cell = true ∧
      isWaitCell cell = false := by
  simp [cellMicros, decodeCommand, cellEvents, isXferCell, isWaitCell, h]

/-- What the model and the tables say of a cell that holds a WAIT. -/
theorem cell_of_wait (c : Params) (h : decode cell = .instr .wait) :
    cellMicros c cell = waitMicros ∧ cellEvents c cell = [.delay 120000] ∧ isXferCell cell = false ∧
      isWaitCell cell = true := by
  simp [cellMicros, decodeCommand, cellEvents, isXferCell, isWaitCell, h]

/-- The commands in order: the latch is that of an XFER as soon as there is one (R147). -/
theorem effects_cells (hr : Ready s) {cells : List Cell} (hw : cmdsWellFormed cells = true) (v : Word)
    (ev : List Event) :
    effects (cells.flatMap (cellMicros s.par)) (relatch v ev s) =
      relatch (if cells.any isXferCell then xferLat s.par v else v) (ev ++ cells.flatMap (cellEvents s.par)) s := by
  induction cells generalizing v ev with
  | nil => simp
  | cons cell cells ih =>
    obtain ⟨hcell, hrest⟩ : (decodeCommand cell).isSome = true ∧ cmdsWellFormed cells = true := by
      simpa [cmdsWellFormed] using hw
    rw [List.flatMap_cons, effects_append, List.flatMap_cons, List.any_cons, ← List.append_assoc]
    obtain ⟨w, hd⟩ | hd := xfer_or_wait_of_command hcell
    · obtain ⟨hmicros, hevents, hx, -⟩ := cell_of_xfer s.par hd
      rw [hmicros, hevents, hx, effects_xfer_eq hr, ih hrest, xferLat_xferLat]
      simp
    · obtain ⟨hmicros, hevents, hx, -⟩ := cell_of_wait s.par hd
      rw [hmicros, hevents, hx, waitMicros, effects_dly, ih hrest]
      rfl

/-! ### RUN -/

theorem effects_runAll (hr : Ready s) (hw : cmdsWellFormed s.par.cmds = true) :
    effects (runAllMicros s.par) s =
      { s with
        t := lastRead s.par s.par.modeCode.input (threeModes s.par s.par.modeCode.output s.fsel),
        fsel := threeModes s.par s.par.modeCode.input (threeModes s.par s.par.modeCode.output s.fsel),
        lat := if s.par.cmds.any isXferCell then xferLat s.par (setupLat s.par s.lat) else setupLat s.par s.lat,
        trace := s.trace ++ runEvents s.par s.fsel } := by
  have hsetup : Ready (afterSetup s) := ⟨hr.wf, hr.valid, hr.mapped⟩
  have hcells := effects_cells hsetup hw (afterSetup s).lat []
  rw [relatch_self] at hcells
  rw [runAllMicros, effects_append, effects_append, effects_setup hr]
  refine (congrArg (effects (teardownMicros s.par)) hcells).trans ((effects_teardown (relatch_ready hsetup)).trans ?_)
  simp only [afterTeardown, relatch, afterSetup, List.append_assoc, runEvents, List.nil_append]

/-! ### The counts of RUN -/

/-- A number that depends only on which command a cell holds, added up over well-formed cells (R106, R148). -/
theorem sum_over_cells {cells : List Cell} (hw : cmdsWellFormed cells = true) {g : Cell → Nat} {x y : Nat}
    (hx : ∀ cell w, decode cell = .instr (.xfer w) → g cell = x)
    (hy : ∀ cell, decode cell = .instr .wait → g cell = y) :
    (cells.map g).sum = x * cells.countP isXferCell + y * cells.countP isWaitCell := by
  induction cells with
  | nil => rfl
  | cons cell cells ih =>
    obtain ⟨hcell, hrest⟩ : (decodeCommand cell).isSome = true ∧ cmdsWellFormed cells = true := by
      simpa [cmdsWellFormed] using hw
    rw [List.map_cons, List.sum_cons, ih hrest, List.countP_cons, List.countP_cons]
    obtain ⟨w, hd⟩ | hd := xfer_or_wait_of_command hcell
    · obtain ⟨-, -, hisX, hisW⟩ := cell_of_xfer Params.family hd
      simp [hx cell w hd, hisX, hisW, Nat.mul_add]
      omega
    · obtain ⟨-, -, hisX, hisW⟩ := cell_of_wait Params.family hd
      simp [hy cell hd, hisX, hisW, Nat.mul_add]
      omega

/-- The measure of the events of RUN, by its commands (R147). -/
theorem AddsUp.run {m : List Event → Nat} (hm : AddsUp m) {f : Vector Word 7}
    (hw : cmdsWellFormed c.cmds = true) {x y a b : Nat} (hxfer : ∀ w, m (xferEvents c w) = x)
    (hwait : m [.delay 120000] = y) (hsetup : m (setupEvents c f) = a) (hteardown : ∀ f, m (teardownEvents c f) = b) :
    m (runEvents c f) = a + (x * c.cmds.countP isXferCell + y * c.cmds.countP isWaitCell) + b := by
  have hcells := sum_over_cells hw (g := fun cell => m (cellEvents c cell)) (x := x) (y := y)
    (fun cell w hd => by
      obtain ⟨-, hevents, -⟩ := cell_of_xfer c hd
      rw [hevents, hxfer])
    (fun cell hd => by
      obtain ⟨-, hevents, -⟩ := cell_of_wait c hd
      rw [hevents, hwait])
  rw [runEvents, hm, hm, hm.flatMap, hcells, hsetup, hteardown]

theorem opLength_run (hw : cmdsWellFormed c.cmds = true) :
    opLength c .run = 15 + 48 * c.cmds.countP isXferCell + c.cmds.countP isWaitCell := by
  have hcells := sum_over_cells hw (g := fun cell => (cellMicros c cell).length) (x := 48) (y := 1)
    (fun cell w hd => by
      obtain ⟨hmicros, -⟩ := cell_of_xfer c hd
      rw [hmicros, xferMicros_length])
    (fun cell hd => by
      obtain ⟨hmicros, -⟩ := cell_of_wait c hd
      rw [hmicros, waitMicros_length])
  simp only [opLength, hcells, setupMicros_length, teardownMicros_length]
  omega

theorem cmds_length (hw : cmdsWellFormed c.cmds = true) :
    c.cmds.length = c.cmds.countP isXferCell + c.cmds.countP isWaitCell := by
  have hcells := sum_over_cells hw (g := fun _ => 1) (fun _ _ _ => rfl) fun _ _ => rfl
  simpa using hcells

end Sys2Proof.Machine

open Sys2Proof Sys2Proof.Machine

/-- Settles O25: the three read-modify-writes in their order, then the three level writes. -/
theorem setupEffect : Obligations.SetupEffect :=
  fun _ hphase hclear => exec_setup_completes hphase (ready_of_clear hclear)

/-- Settles O26: the three read-modify-writes in their order. -/
theorem teardownEffect : Obligations.TeardownEffect :=
  fun _ hphase hclear => exec_teardown_completes hphase (ready_of_clear hclear)

/-- Settles O27: the micro-operations of SETUP, of each cell and of TEARDOWN, each from where the one before ends. -/
theorem runEffect : Obligations.RunEffect := by
  intro s hphase hclear hw
  have hr := ready_of_clear hclear
  rw [exec_eq_runOperation, runOperation_run (admits_iff.2 hphase) hw hr, effects_runAll hr hw]
  rfl

/-- Settles O28: each count adds up over SETUP, the cells and TEARDOWN. -/
theorem runCounts : Obligations.RunCounts := by
  intro s hphase hclear hw
  have hlength := addsUp_length.run (f := s.fsel) hw (xferEvents_length s.par) (y := 1) (a := 9) (b := 6)
    rfl rfl fun _ => rfl
  refine ⟨_, Expected.runEvents s.par s.fsel, runEffect s hphase hclear hw, rfl, cmds_length hw, ?_, ?_, ?_, ?_,
    hlength.trans (by omega), (opLength_run hw).trans (hlength.trans (by omega)).symm, ?_⟩
  · exact ((addsUp_countP _).run hw (xferEvents_reads _) (y := 0) (a := 3) (b := 3) rfl rfl fun _ => rfl).trans
      (by omega)
  · exact ((addsUp_countP _).run hw (xferEvents_writes _) (y := 0) (a := 6) (b := 3) rfl rfl fun _ => rfl).trans
      (by omega)
  · exact ((addsUp_count _).run hw (xferEvents_halfPeriods _) (y := 0) (a := 0) (b := 0) rfl rfl
      fun _ => rfl).trans (by omega)
  · exact ((addsUp_count _).run hw (xferEvents_waits _) (y := 1) (a := 0) (b := 0) rfl rfl fun _ => rfl).trans
      (by omega)
  · exact (addsUp_nominalDuration.run hw (xferEvents_nominalDuration _) (y := 120000) (a := 0) (b := 0) rfl rfl
      fun _ => rfl).trans (by omega)

end

section
/-! PROOFS. What SETUP, TEARDOWN and RUN leave unchanged, and what the events of an operation depend on
(spec/41_serial_transmitter.md R144, R145, R147, R155; spec/10_state.md R22). -/

namespace Sys2Proof.Machine

open Sys2Proof.Expected

variable {s t s1 s2 t1 t2 u1 u2 : State} {o : Instr} {c : Params} {M V : Nat → Prop} {L : List Micro}

/-! ### The fields of the three pins -/

/-- No bit of the field of one pin is in the field of another (R22, R98). -/
theorem not_inFieldOf_of_ne {p q : Fin 28} (h : p ≠ q) {i : Nat} (hi : i < 3) :
    ¬ inFieldOf q (p.val / 10) (fieldShift p + i) := by
  have hne : p.val ≠ q.val := fun e => h (Fin.ext e)
  simp only [inFieldOf, fieldShift, Config.fselPins, Config.fselFieldBits]
  omega

theorem modePins_of_block (h : o = .setup ∨ o = .teardown ∨ o = .run) : modePins c o = wirePin c := by
  rcases h with rfl | rfl | rfl <;> rfl

theorem wirePin_of_levelPins {p : Nat} (h : o = .setup ∨ o = .teardown ∨ o = .run) (hp : levelPins c o p) :
    wirePin c p := by
  rcases h with rfl | rfl | rfl
  · exact hp
  · exact hp.elim
  · exact hp

/-! ### All micro-operations of an operation -/

/-- The micro-operations of an operation from its start to its end when no fault is met (R147, R153). -/
def operationMicros (c : Params) (o : Instr) : List Micro :=
  match o with
  | .run => runAllMicros c
  | o => itemMicros c o .only 0

theorem operationMicros_of_ne_run (ho : o ≠ .run) (c : Params) : operationMicros c o = itemMicros c o .only 0 := by
  cases o with
  | run => exact absurd rfl ho
  | _ => rfl

theorem Built.cells (hV : HasPins c V) (cells : List Cell) : Built c M V (cells.flatMap (cellMicros c)) := by
  induction cells with
  | nil => exact .nil
  | cons cell cells ih => exact (Built.cell hV cell).append ih

theorem Built.operation (hpin : badPin o = none) :
    Built c (modePins c o) (levelPins c o) (operationMicros c o) := by
  by_cases ho : o = .run
  · subst ho
    have hwire : HasPins c (wirePin c) := ⟨.inl rfl, .inr (.inl rfl), .inr (.inr rfl)⟩
    exact ((Built.setup hwire hwire).append (Built.cells hwire _)).append (Built.teardown hwire)
  · rw [operationMicros_of_ne_run ho]
    exact Built.item hpin _ _

/-- An operation that nothing stands in the way of performs its micro-operations in order and ends in DONE (R153). -/
theorem exec_performs (hs : startable o s) (hr : Ready s) :
    ∃ g ci k, exec o s = .next (relabel (some o) g ci k .done (effects (operationMicros s.par o) s)) := by
  obtain ⟨hphase, hpin, hcmds⟩ := hs
  by_cases ho : o = .run
  · subst ho
    exact ⟨_, _, _, (exec_eq_runOperation _ s).trans (runOperation_run (admits_iff.2 hphase) (hcmds rfl) hr)⟩
  · rw [operationMicros_of_ne_run ho]
    exact ⟨_, _, _, exec_of_ready ho hphase hpin hr⟩

/-! ### Two runs of one operation -/

/-- From `s1` to `t1` and from `s2` to `t2` the same events are shown, but for the values of function-select accesses;
those too, and the same function-select registers at the end, when the registers were the same at the start (R155). -/
def ShowSame (s1 t1 s2 t2 : State) : Prop :=
  ∃ ev1 ev2, t1.trace = s1.trace ++ ev1 ∧ t2.trace = s2.trace ++ ev2 ∧ ev2.map hideFsel = ev1.map hideFsel ∧
    (s1.fsel = s2.fsel → ev2 = ev1 ∧ t1.fsel = t2.fsel)

namespace ShowSame

theorem refl (s1 s2 : State) : ShowSame s1 s1 s2 s2 := ⟨[], [], by simp, by simp, rfl, fun h => ⟨rfl, h⟩⟩

theorem trans (h : ShowSame s1 t1 s2 t2) (g : ShowSame t1 u1 t2 u2) : ShowSame s1 u1 s2 u2 := by
  obtain ⟨ev1, ev2, h1, h2, hhidden, hsame⟩ := h
  obtain ⟨ev1', ev2', g1, g2, ghidden, gsame⟩ := g
  refine ⟨ev1 ++ ev1', ev2 ++ ev2', by rw [g1, h1, List.append_assoc], by rw [g2, h2, List.append_assoc],
    by rw [List.map_append, List.map_append, hhidden, ghidden], fun hfsel => ?_⟩
  obtain ⟨rfl, hmid⟩ := hsame hfsel
  obtain ⟨rfl, hend⟩ := gsame hmid
  exact ⟨rfl, hend⟩

section
variable (h1 : Ready s1) (h2 : Ready s2) (hc1 : s1.par = c) (hc2 : s2.par = c)

include h1 h2 hc1 hc2

/-- A mode setting reads and writes one function-select register (R120). -/
theorem of_setPinMode {p : Nat} (hp : p ≤ 27) (m : PinMode) :
    ShowSame s1 (effects (setPinModeMicros c p m) s1) s2 (effects (setPinModeMicros c p m) s2) := by
  have hi := fselIndex_valid hp
  have e1 := effects_setPinMode h1 hp m
  have e2 := effects_setPinMode h2 hp m
  rw [hc1] at e1
  rw [hc2] at e2
  rw [e1, e2]
  exact ⟨_, _, rfl, rfl, by simp [hideFsel, hi], fun hfsel => by simp [hfsel]⟩

/-- A level write writes a constant (R122). -/
theorem of_setPinLevel {p : Nat} (hp : p ≤ 27) (l : Bool) :
    ShowSame s1 (effects (setPinLevelMicros c p l) s1) s2 (effects (setPinLevelMicros c p l) s2) := by
  have e1 := effects_setPinLevel h1 hp l
  have e2 := effects_setPinLevel h2 hp l
  rw [hc1] at e1
  rw [hc2] at e2
  rw [e1, e2]
  exact ⟨_, _, rfl, rfl, rfl, fun hfsel => ⟨rfl, hfsel⟩⟩

omit h1 h2 hc1 hc2 in
theorem of_delay (n : Nat) (s1 s2 : State) : ShowSame s1 (delay n s1) s2 (delay n s2) :=
  ⟨_, _, rfl, rfl, rfl, fun hfsel => ⟨rfl, hfsel⟩⟩

/-- One list of micro-operations after another. -/
theorem append {L' : List Micro} (hk : ∀ mu ∈ L, knownMicro c mu) (h : ShowSame s1 (effects L s1) s2 (effects L s2))
    (h' : ∀ {u1 u2 : State}, Ready u1 → Ready u2 → u1.par = c → u2.par = c →
      ShowSame u1 (effects L' u1) u2 (effects L' u2)) :
    ShowSame s1 (effects (L ++ L') s1) s2 (effects (L ++ L') s2) := by
  rw [effects_append, effects_append]
  have hk1 : ∀ mu ∈ L, knownMicro s1.par mu := hc1 ▸ hk
  have hk2 : ∀ mu ∈ L, knownMicro s2.par mu := hc2 ▸ hk
  exact h.trans (h' (effects_ready h1 hk1) (effects_ready h2 hk2) ((effects_frame h1 hk1).par.trans hc1)
    ((effects_frame h2 hk2).par.trans hc2))

/-- What is built of mode settings, level writes and delays shows the same from two states with the same parameters. -/
theorem of_built (hL : Built c M V L) (hM : ∀ p, M p → p ≤ 27) (hV : ∀ p, V p → p ≤ 27) :
    ShowSame s1 (effects L s1) s2 (effects L s2) := by
  induction hL generalizing s1 s2 with
  | nil => exact refl s1 s2
  | @mode p m L hp _ ih =>
    exact append h1 h2 hc1 hc2 (setPinModeMicros_known c (hM p hp) m) (of_setPinMode h1 h2 hc1 hc2 (hM p hp) m) ih
  | @level p l L hp _ ih =>
    exact append h1 h2 hc1 hc2 (setPinLevelMicros_known c (hV p hp) l) (of_setPinLevel h1 h2 hc1 hc2 (hV p hp) l) ih
  | @dly n L _ ih =>
    exact append h1 h2 hc1 hc2 (L := [.dly n]) (by simp [knownMicro]) (of_delay n s1 s2) ih

end

end ShowSame

end Sys2Proof.Machine

open Sys2Proof Sys2Proof.Machine

/-- Settles O34: these operations set the modes and the levels of the three pins alone, and TEARDOWN no level. -/
theorem wholeBlockOperationsFrame : Obligations.WholeBlockOperationsFrame := by
  intro i s t hi hwf h
  obtain ⟨-, -, ⟨hset, -⟩, ⟨hclr, -⟩, -⟩ := hwf
  have f := exec_operationFrame (fun _ _ => ⟨hset, hclr⟩) h
  have hbits (j : Nat) (hj : j < 7) (b : Nat) (hclk : ¬ Expected.inFieldOf s.par.pinClk j b)
      (hdata : ¬ Expected.inFieldOf s.par.pinData j b) (hcs : ¬ Expected.inFieldOf s.par.pinCs j b) :
      t.fsel[j].getLsbD b = s.fsel[j].getLsbD b := by
    have houtside (p : Fin 28) (hp : ¬ Expected.inFieldOf p j b) (hjp : j = fselIndex p) :
        b < fieldShift p ∨ fieldShift p + 3 ≤ b := by
      by_contra hin
      rw [not_or, Nat.not_lt, Nat.not_le] at hin
      exact hp ⟨hjp, hin⟩
    refine f.fsel j hj b fun p hp => ?_
    rw [modePins_of_block hi] at hp
    rcases hp with rfl | rfl | rfl
    · exact houtside _ hclk
    · exact houtside _ hdata
    · exact houtside _ hcs
  refine ⟨fun p hclk hdata hcs => ?_, hbits, fun b hclk hdata hcs => f.lat b fun hp => ?_, ?_⟩
  · refine BitVec.eq_of_getLsbD_eq fun b hb => ?_
    simp only [pinField, fieldOf, BitVec.getLsbD_extractLsb', hb, decide_true, Bool.true_and]
    exact hbits _ _ _ (not_inFieldOf_of_ne hclk hb) (not_inFieldOf_of_ne hdata hb) (not_inFieldOf_of_ne hcs hb)
  · rcases wirePin_of_levelPins hi hp with h | h | h
    · exact hclk h
    · exact hdata h
    · exact hcs h
  · rintro rfl
    exact f.lat_of_no_level fun _ => id

/-- Settles O51: the same micro-operations from two states, and only function-select accesses show the registers. -/
theorem traceDeterminedByParameters : Obligations.TraceDeterminedByParameters := by
  intro i s1 s2 t1 ev1 hclear1 hclear2 hpar hs1 hs2 h1 htrace1
  have hr1 := ready_of_clear hclear1
  have hr2 := ready_of_clear hclear2
  obtain ⟨-, hpin, -⟩ := id hs1
  obtain ⟨g, ci, k, hexec1⟩ := exec_performs hs1 hr1
  obtain ⟨g', ci', k', hexec2⟩ := exec_performs hs2 hr2
  rw [h1] at hexec1
  cases hexec1
  rw [← hpar] at hexec2
  obtain ⟨ev, ev2, hev, hev2, hhidden, hsame⟩ := ShowSame.of_built hr1 hr2 rfl hpar.symm
    (Built.operation hpin) (fun _ => modePins_le) fun _ => levelPins_le
  obtain rfl : ev = ev1 := List.append_cancel_left (hev.symm.trans htrace1)
  exact ⟨_, ev2, hexec2, hev2, hhidden, fun hfsel => (hsame hfsel).1⟩

end

section
/-! PROOFS. The wire: what the three pins show after each micro-operation, the frame of a word, rising clock edges, and
the levels between operations (spec/10_state.md R33; spec/41_serial_transmitter.md R156, R157). -/

namespace Sys2Proof.Machine

open Sys2Proof.Expected

variable {s t : State} {o : Instr} {c : Params} {mu : Micro} {L : List Micro}

/-! ### The wires after each step of an operation -/

/-- The wires after each of a list of micro-operations. -/
def wiresAfter : List Micro → State → List Wire
  | [], _ => []
  | mu :: ms, s => wire (effect mu s) :: wiresAfter ms (effect mu s)

theorem wiresAfter_append (xs ys : List Micro) (s : State) :
    wiresAfter (xs ++ ys) s = wiresAfter xs s ++ wiresAfter ys (effects xs s) := by
  induction xs generalizing s with
  | nil => rfl
  | cons mu xs ih => exact congrArg _ (ih (effect mu s))

theorem wiresAfter_length (L : List Micro) (s : State) : (wiresAfter L s).length = L.length := by
  induction L generalizing s with
  | nil => rfl
  | cons mu L ih => exact congrArg (· + 1) (ih (effect mu s))

/-- The wires do not depend on the program counter. -/
theorem wiresAfter_relabel {op : Option Instr} {g : Stage} {ci k : Nat} {ph : Phase} (hr : Ready s)
    (hk : ∀ mu ∈ L, knownMicro s.par mu) : wiresAfter L (relabel op g ci k ph s) = wiresAfter L s := by
  induction L generalizing s with
  | nil => rfl
  | cons mu L ih =>
    have hmu := hk mu (by simp)
    have hrest : ∀ m ∈ L, knownMicro (effect mu s).par m := fun m hm =>
      (effect_frame hr hmu).par ▸ hk m (List.mem_cons_of_mem _ hm)
    rw [wiresAfter, effect_relabel hr hmu, ih (effect_ready hr hmu) hrest]
    rfl

theorem wiresOf_succ (n : Nat) (hr : Ready s) (hb : s.phase = .busy) (hk : knownMicro s.par mu)
    (hmu : (currentItem s)[s.k]? = some mu) :
    wiresOf (n + 1) s = wire (effect mu s) :: wiresOf n (advance (effect mu s)) := by
  obtain ⟨g, ci, k, ph, hadv⟩ := advance_eq_relabel (effect mu s)
  simp only [wiresOf, hb, if_true, microStep_ready hr hk hmu]
  rw [hadv]
  rfl

/-- The steps of the sequencer to the end of an item show the wires after its micro-operations (R153, R156). -/
theorem wiresOf_item {n : Nat} (hr : Ready s) (hb : s.phase = .busy) (hn : n + s.k = (currentItem s).length)
    (hk : ∀ mu ∈ currentItem s, knownMicro s.par mu) : wiresOf n s = wiresAfter ((currentItem s).drop s.k) s := by
  induction n generalizing s with
  | zero => rw [List.drop_eq_nil_of_le (by omega)]; rfl
  | succ n ih =>
    have hlt : s.k < (currentItem s).length := by omega
    obtain ⟨mu, hmu⟩ : ∃ mu, (currentItem s)[s.k] = mu := ⟨_, rfl⟩
    have hknown : knownMicro s.par mu := hk mu (hmu ▸ List.getElem_mem hlt)
    have hget : (currentItem s)[s.k]? = some mu := hmu ▸ List.getElem?_eq_getElem hlt
    rw [wiresOf_succ n hr hb hknown hget, List.drop_eq_getElem_cons hlt, hmu, wiresAfter]
    refine congrArg _ ?_
    cases n with
    | zero => rw [List.drop_eq_nil_of_le (by omega)]; rfl
    | succ n =>
      have f := effect_frame hr hknown
      have hr' := effect_ready hr hknown
      have hinside : advance (effect mu s) = setPosition s.stage s.ci (s.k + 1) (effect mu s) := by
        rw [advance_inside (by rw [f.currentItem_eq, f.k]; omega), f.stage, f.ci, f.k]
      have hitem : currentItem (setPosition s.stage s.ci (s.k + 1) (effect mu s)) = currentItem s := by
        rw [← f.stage, ← f.ci]
        exact f.currentItem_eq
      have hrest := ih (s := setPosition s.stage s.ci (s.k + 1) (effect mu s)) ⟨hr'.wf, hr'.valid, hr'.mapped⟩
        (f.phase.trans hb) (by rw [hitem, setPosition_k]; omega) (by rw [hitem, setPosition_par, f.par]; exact hk)
      rw [hinside, hrest, hitem]
      exact wiresAfter_relabel hr' fun m hm => f.par ▸ hk m (List.mem_of_mem_drop hm)

/-- An operation other than RUN shows the wires after its micro-operations. -/
theorem operationWires_of_ready (ho : o ≠ .run) (hphase : s.phase = .idle ∨ s.phase = .done)
    (hpin : badPin o = none) (hr : Ready s) : operationWires o s = wiresAfter (itemMicros s.par o .only 0) s := by
  have hstart : start o s = .next (launch o s) := start_of_startable ⟨hphase, hpin, fun h => absurd h ho⟩
  have hitem : currentItem (launch o s) = itemMicros s.par o .only 0 := itemMicros_stage ho s.par _ 0
  have hk := itemMicros_known s.par o .only 0 hpin
  simp only [operationWires, hstart, launch_par]
  rw [wiresOf_item (launch_ready hr) rfl (by rw [hitem, opLength_eq_length ho]; rfl) (by rw [hitem]; exact hk), hitem]
  exact wiresAfter_relabel hr hk

/-! ### A word on the wire -/

/-- Three driven pins. -/
def driven (clk data cs : Bool) : Wire := ⟨.driven clk, .driven data, .driven cs⟩

/-- The wire of three pins in Output mode, from the latch (R33). -/
def shown (c : Params) (v : Word) : Wire :=
  driven (v.getLsbD c.pinClk) (v.getLsbD c.pinData) (v.getLsbD c.pinCs)

/-- The three pins are in Output mode. -/
structure OutputPins (s : State) : Prop where
  clk : pinField s s.par.pinClk = s.par.modeCode.output
  data : pinField s s.par.pinData = s.par.modeCode.output
  cs : pinField s s.par.pinCs = s.par.modeCode.output

theorem wire_relatch (h : OutputPins s) (v : Word) (ev : List Event) : wire (relatch v ev s) = shown s.par v := by
  have hdriven (p : Fin 28) (hp : pinField s p = s.par.modeCode.output) :
      drive (relatch v ev s) p = .driven (v.getLsbD p) := if_pos hp
  exact congr (congr (congrArg Wire.mk (hdriven _ h.clk)) (hdriven _ h.data)) (hdriven _ h.cs)

theorem wire_of_outputPins (h : OutputPins s) : wire s = shown s.par s.lat := relatch_self s ▸ wire_relatch h s.lat []

theorem wiresAfter_level (hr : Ready s) (h : OutputPins s) (v : Word) (ev : List Event) {p : Nat} (hp : p ≤ 27)
    (l : Bool) : wiresAfter (setPinLevelMicros s.par p l) (relatch v ev s) = [shown s.par (latchTo p l v)] := by
  have hlevel : wiresAfter (setPinLevelMicros s.par p l) (relatch v ev s) =
      [wire (effects (setPinLevelMicros s.par p l) (relatch v ev s))] := rfl
  rw [hlevel, effects_level hr v ev hp, wire_relatch h]

theorem wiresAfter_dly (h : OutputPins s) (v : Word) (ev : List Event) (n : Nat) :
    wiresAfter [.dly n] (relatch v ev s) = [shown s.par v] :=
  congrArg (fun w => [w]) (wire_relatch h v ev)

/-- The five wires of a bit (R141). -/
theorem wiresAfter_bit (hr : Ready s) (h : OutputPins s) (v : Word) (ev : List Event) (b : Bool) :
    wiresAfter (bitMicros s.par b) (relatch v ev s) =
      [driven (v.getLsbD s.par.pinClk) b (v.getLsbD s.par.pinCs), driven false b (v.getLsbD s.par.pinCs),
       driven false b (v.getLsbD s.par.pinCs), driven true b (v.getLsbD s.par.pinCs),
       driven true b (v.getLsbD s.par.pinCs)] := by
  obtain ⟨⟨hclkdata, hclkcs, hdatacs⟩, -⟩ := hr.wf
  simp only [bitMicros, wiresAfter_append, effects_append, effects_level hr _ _ (pin_le _), effects_dly,
    wiresAfter_level hr h _ _ (pin_le _), wiresAfter_dly h]
  simp [shown, latchTo_getLsbD (pin_le _), Fin.val_inj, hclkdata, hclkcs.symm, hdatacs.symm, hclkdata.symm]

/-- The wires of a word: chip-select falls, the nine bits, data low, chip-select high (R141). -/
theorem wiresAfter_xfer (hr : Ready s) (h : OutputPins s) (v : Word) (ev : List Event) (w : BitVec 9) :
    ∃ ev', wiresAfter (xferMicros s.par w) (relatch v ev s) =
      shown s.par (latchTo s.par.pinCs false v) ::
        (wiresAfter ((bitsSent w).flatMap (bitMicros s.par)) (relatch (latchTo s.par.pinCs false v) ev' s) ++
        [shown s.par (latchTo s.par.pinData false
          ((bitsSent w).foldl (bitLatch s.par) (latchTo s.par.pinCs false v))),
        shown s.par (wordLatch s.par w v)]) := by
  refine ⟨ev ++ [levelEvent s.par s.par.pinCs false], ?_⟩
  simp only [xferMicros, wiresAfter_append, effects_level hr _ _ (pin_le _), effects_bits hr,
    wiresAfter_level hr h _ _ (pin_le _), wordLatch, List.append_assoc, List.singleton_append]

theorem shown_bitLatch (hc : c.wf) (v : Word) (b : Bool) :
    shown c (bitLatch c v b) = driven true b (v.getLsbD c.pinCs) := by
  obtain ⟨⟨hclkdata, hclkcs, hdatacs⟩, -⟩ := hc
  simp [bitLatch, shown, latchTo_getLsbD (pin_le _), Fin.val_inj, hclkcs.symm, hdatacs.symm, hclkdata.symm]

theorem bitsLatch_cs (hc : c.wf) (bs : List Bool) (v : Word) :
    (bs.foldl (bitLatch c) v).getLsbD c.pinCs = v.getLsbD c.pinCs := by
  induction bs generalizing v with
  | nil => rfl
  | cons b bs ih =>
    have hbit : (bitLatch c v b).getLsbD c.pinCs = v.getLsbD c.pinCs := by
      simpa [shown, driven] using congrArg Wire.cs (shown_bitLatch hc v b)
    exact (ih _).trans hbit

/-! ### The frame of a word -/

/-- Chip-select falls and opens a frame. -/
theorem framesFrom_fall (hc : c.wf) {v : Word} (hcs : v.getLsbD c.pinCs = true) (rest : List Wire) :
    framesFrom none (shown c v) (shown c (latchTo c.pinCs false v) :: rest) =
      framesFrom (some []) (shown c (latchTo c.pinCs false v)) rest := by
  obtain ⟨⟨-, hclkcs, hdatacs⟩, -⟩ := hc
  have hopen (x y : Bool) : framesFrom none (driven x y true) (driven x y false :: rest) =
      framesFrom (some []) (driven x y false) rest := by
    cases x <;> rfl
  simpa [shown, latchTo_getLsbD (pin_le _), Fin.val_inj, hclkcs, hdatacs, hcs] using hopen _ _

/-- Data goes low, then chip-select rises and closes the frame. -/
theorem framesFrom_rise (hc : c.wf) {v : Word} (hcs : v.getLsbD c.pinCs = false) (f : List (Option Bool)) :
    framesFrom (some f) (shown c v)
      [shown c (latchTo c.pinData false v), shown c (latchTo c.pinCs true (latchTo c.pinData false v))] = [f] := by
  obtain ⟨⟨hclkdata, hclkcs, hdatacs⟩, -⟩ := hc
  have hclose (x y : Bool) :
      framesFrom (some f) (driven x y false) [driven x false false, driven x false true] = [f] := by
    cases x <;> rfl
  simpa [shown, latchTo_getLsbD (pin_le _), Fin.val_inj, hclkdata, hclkcs, hdatacs, hdatacs.symm, hcs]
    using hclose _ _

/-- The wires of a bit add its sample to the open frame, at the one rising clock edge. -/
theorem framesFrom_bit (f : List (Option Bool)) (x y b : Bool) (rest : List Wire) :
    framesFrom (some f) (driven x y false)
        ([driven x b false, driven false b false, driven false b false, driven true b false, driven true b false] ++
          rest) =
      framesFrom (some (f ++ [some b])) (driven true b false) rest := by
  cases x <;> rfl

/-- The wires of a list of bits add their samples in order. -/
theorem framesFrom_bits (hr : Ready s) (h : OutputPins s) (bs : List Bool) (f : List (Option Bool)) (v : Word)
    (hcs : v.getLsbD s.par.pinCs = false) (ev : List Event) (rest : List Wire) :
    framesFrom (some f) (shown s.par v) (wiresAfter (bs.flatMap (bitMicros s.par)) (relatch v ev s) ++ rest) =
      framesFrom (some (f ++ bs.map some)) (shown s.par (bs.foldl (bitLatch s.par) v)) rest := by
  induction bs generalizing f v ev with
  | nil => simp [wiresAfter]
  | cons b bs ih =>
    have hshown := shown_bitLatch hr.wf v b
    have hcs' : (bitLatch s.par v b).getLsbD s.par.pinCs = false := by
      simpa [shown, driven, hcs] using congrArg Wire.cs hshown
    rw [hcs] at hshown
    rw [List.flatMap_cons, wiresAfter_append, effects_bit hr, wiresAfter_bit hr h, hcs, List.append_assoc]
    rw [show shown s.par v = driven (v.getLsbD s.par.pinClk) (v.getLsbD s.par.pinData) false by rw [shown, hcs],
      framesFrom_bit, ← hshown, ih _ _ hcs']
    simp

/-- A word sent with the three pins in Output mode and chip-select high shows one frame, its bits in order (R156). -/
theorem framesFrom_word (hr : Ready s) (h : OutputPins s) (hcs : s.lat.getLsbD s.par.pinCs = true) (w : BitVec 9) :
    framesFrom none (wire s) (wiresAfter (xferMicros s.par w) s) = [(bitsSent w).map some] := by
  obtain ⟨ev, hwires⟩ := wiresAfter_xfer hr h s.lat [] w
  rw [relatch_self] at hwires
  have hlow : (latchTo s.par.pinCs false s.lat).getLsbD s.par.pinCs = false := by simp [latchTo_getLsbD (pin_le _)]
  have hstilllow := (bitsLatch_cs hr.wf (bitsSent w) _).trans hlow
  rw [hwires, wire_of_outputPins h, framesFrom_fall hr.wf hcs, framesFrom_bits hr h _ _ _ hlow]
  exact framesFrom_rise hr.wf hstilllow _

/-! ### Rising clock edges -/

theorem level_of_driven {p : Fin 28} {x : Bool} (h : drive s p = .driven x) : s.lat.getLsbD p = x := by
  unfold drive at h
  split_ifs at h
  cases h
  rfl

/-- A rising clock edge shows a rise of the clock's latch bit, whatever the mode of the pin (R33, R156). -/
theorem latch_rises_of_risingClock (hpar : t.par = s.par) (h : risingClock (wire s) (wire t) = true) :
    s.lat.getLsbD s.par.pinClk = false ∧ t.lat.getLsbD s.par.pinClk = true := by
  obtain ⟨hbefore, hafter⟩ : drive s s.par.pinClk = .driven false ∧ drive t t.par.pinClk = .driven true := by
    simpa [risingClock, risesFrom, wire] using h
  exact ⟨level_of_driven hbefore, hpar ▸ level_of_driven hafter⟩

/-- A micro-operation that never raises the latch bit of the clock. -/
def KeepsClockLow (c : Params) (mu : Micro) : Prop :=
  knownMicro c mu ∧ ∀ u : State, Ready u → u.par = c → u.lat.getLsbD c.pinClk = false →
    (effect mu u).lat.getLsbD c.pinClk = false

theorem risingEdges_eq_zero (hr : Ready s) (h : ∀ mu ∈ L, KeepsClockLow s.par mu) :
    risingEdges (wire s) (wiresAfter L s) = 0 := by
  induction L generalizing s with
  | nil => rfl
  | cons mu L ih =>
    obtain ⟨hk, hlow⟩ := h mu (by simp)
    have hpar := (effect_frame hr hk).par
    have hno : ¬ risingClock (wire s) (wire (effect mu s)) = true := by
      intro hrise
      obtain ⟨hbefore, hafter⟩ := latch_rises_of_risingClock hpar hrise
      simp [hlow s hr rfl hbefore] at hafter
    have hrest := ih (effect_ready hr hk) (hpar ▸ fun m hm => h m (List.mem_cons_of_mem _ hm))
    rw [wiresAfter, risingEdges, if_neg hno, hrest]

theorem setPinMode_keepsClockLow (c : Params) {p : Nat} (hp : p ≤ 27) (m : PinMode) :
    ∀ mu ∈ setPinModeMicros c p m, KeepsClockLow c mu := by
  have hi := fselIndex_valid hp
  simp only [setPinModeMicros, List.forall_mem_cons]
  refine ⟨⟨hi, fun u hu _ hlow => ?_⟩, ⟨.inl hi, fun u hu _ hlow => ?_⟩, by simp⟩
  · rw [effect_rd hu.valid hi]
    exact hlow
  · rw [effect_wr_fsel hu.valid hi]
    exact hlow

theorem setPinLevel_keepsClockLow (c : Params) {p : Nat} (hp : p ≤ 27) {l : Bool}
    (h : c.pinClk.val = p → l = false) : ∀ mu ∈ setPinLevelMicros c p l, KeepsClockLow c mu := by
  intro mu hmu
  refine ⟨setPinLevelMicros_known c hp l mu hmu, fun u hu hc hlow => ?_⟩
  subst hc
  have heffect : effect mu u = effects (setPinLevelMicros u.par p l) u := by
    rw [setPinLevelMicros, List.mem_singleton] at hmu
    rw [hmu]
    rfl
  have hlat := effects_level hu u.lat [] hp l
  rw [relatch_self] at hlat
  have hbit := latchTo_getLsbD hp l u.lat u.par.pinClk
  rw [heffect, hlat]
  refine hbit.trans ?_
  split_ifs with hpin
  · exact h hpin
  · exact hlow

theorem setup_keepsClockLow (hc : c.wf) : ∀ mu ∈ setupMicros c, KeepsClockLow c mu := by
  obtain ⟨⟨-, hclkcs, -⟩, -⟩ := hc
  have hmode (p : Fin 28) := setPinMode_keepsClockLow c (pin_le p) .output
  have hcs := setPinLevel_keepsClockLow c (pin_le c.pinCs) (l := true) fun h => absurd (Fin.ext h) hclkcs
  have hdown (p : Fin 28) := setPinLevel_keepsClockLow c (pin_le p) (l := false) fun _ => rfl
  simp only [setupMicros, List.forall_mem_append]
  exact ⟨⟨⟨⟨⟨hmode _, hmode _⟩, hmode _⟩, hcs⟩, hdown _⟩, hdown _⟩

theorem teardown_keepsClockLow (c : Params) : ∀ mu ∈ teardownMicros c, KeepsClockLow c mu := by
  have hmode (p : Fin 28) := setPinMode_keepsClockLow c (pin_le p) .input
  simp only [teardownMicros, List.forall_mem_append]
  exact ⟨⟨hmode _, hmode _⟩, hmode _⟩

theorem wait_keepsClockLow (c : Params) : ∀ mu ∈ waitMicros, KeepsClockLow c mu := by
  rw [waitMicros, List.forall_mem_singleton]
  exact ⟨trivial, fun _ _ _ hlow => hlow⟩

/-! ### The modes of the three pins -/

/-- A mode setting leaves the field of every other pin (R121). -/
theorem field_modeSet (f : Vector Word 7) (p q : Fin 28) (code : BitVec 3) :
    fieldOf (bankOf (modeSet f p code) q) (fieldShift q) =
      if p = q then code else fieldOf (bankOf f q) (fieldShift q) := by
  have hset {j : Nat} (hj : j < 7) : (modeSet f p code)[j] =
      if p.val / 10 = j then insertField (bankOf f p) (fieldShift p) code else f[j] := Vector.getElem_set _ _
  rw [show bankOf (modeSet f p code) q = _ from hset (by omega)]
  by_cases hpq : p = q
  · subst hpq
    rw [if_pos rfl, if_pos rfl, fieldOf_insertField _ _ (fieldShift_le _)]
  · rw [if_neg hpq]
    by_cases hbank : p.val / 10 = q.val / 10
    · have hne : p.val ≠ q.val := fun e => hpq (Fin.ext e)
      have happart : fieldShift p + 3 ≤ fieldShift q ∨ fieldShift q + 3 ≤ fieldShift p := by
        simp only [fieldShift, Config.fselPins, Config.fselFieldBits]
        omega
      rw [if_pos hbank, fieldOf_insertField_of_ne _ _ (fieldShift_le _) happart]
      simp only [bankOf, hbank]
    · rw [if_neg hbank]
      rfl

/-- Setting the three modes sets the field of each of the three pins (R144, R145). -/
theorem field_threeModes (c : Params) (f : Vector Word 7) (code : BitVec 3) {p : Fin 28}
    (hp : p = c.pinClk ∨ p = c.pinData ∨ p = c.pinCs) :
    fieldOf (bankOf (threeModes c code f) p) (fieldShift p) = code := by
  simp only [threeModes, field_modeSet]
  rcases hp with rfl | rfl | rfl <;> simp

/-! ### The levels between operations -/

theorem setupLat_getLsbD (c : Params) (v : Word) (j : Nat) :
    (setupLat c v).getLsbD j =
      if j = c.pinData.val then false else if j = c.pinClk.val then false
      else if j = c.pinCs.val then true else v.getLsbD j := by
  simp only [setupLat_eq, latchTo_getLsbD (pin_le _)]

/-- After SETUP the three pins are in Output mode, driven at (0, 0, 1) (R157). -/
theorem exec_setup_levels (hphase : s.phase = .idle ∨ s.phase = .done) (hr : Ready s) :
    ∃ a, exec .setup s = .next a ∧ a.phase = .done ∧ Ready a ∧ OutputPins a ∧
      wire a = driven false false true := by
  obtain ⟨⟨-, hclkcs, hdatacs⟩, -⟩ := hr.wf
  have hfield {p : Fin 28} := field_threeModes s.par s.fsel s.par.modeCode.output (p := p)
  refine ⟨_, exec_setup_completes hphase hr, rfl, ⟨hr.wf, hr.valid, hr.mapped⟩, ?_⟩
  refine (fun h => ⟨h, ?_⟩) ⟨hfield (.inl rfl), hfield (.inr (.inl rfl)), hfield (.inr (.inr rfl))⟩
  rw [wire_of_outputPins h]
  simp [shown, setupLat_getLsbD, Fin.val_inj, hclkcs.symm, hdatacs.symm]

/-- After XFER, from Output modes, the three pins are driven at (1, 0, 1) (R157). -/
theorem exec_xfer_levels (hphase : s.phase = .idle ∨ s.phase = .done) (hr : Ready s) (h : OutputPins s)
    (w : BitVec 9) :
    ∃ b, exec (.xfer w) s = .next b ∧ b.phase = .done ∧ Ready b ∧ wire b = driven true false true := by
  obtain ⟨⟨hclkdata, hclkcs, hdatacs⟩, -⟩ := hr.wf
  refine ⟨_, exec_xfer_completes hphase hr w, rfl, ⟨hr.wf, hr.valid, hr.mapped⟩, ?_⟩
  refine (wire_relatch h (xferLat s.par s.lat) (xferEvents s.par w)).trans ?_
  simp [shown, xferLat_getLsbD, Fin.val_inj, hclkdata, hclkcs, hdatacs]

theorem wire_of_inputPins (hwf : s.par.wf) (hclk : pinField s s.par.pinClk = s.par.modeCode.input)
    (hdata : pinField s s.par.pinData = s.par.modeCode.input) (hcs : pinField s s.par.pinCs = s.par.modeCode.input) :
    wire s = ⟨.released, .released, .released⟩ := by
  have hreleased {p : Fin 28} (hp : pinField s p = s.par.modeCode.input) : drive s p = .released := by
    obtain ⟨-, hin, -⟩ := driveStates s p hwf
    exact hin hp
  rw [wire, hreleased hclk, hreleased hdata, hreleased hcs]

/-- After TEARDOWN the three pins are released and the latch is as before (R157, R207). -/
theorem exec_teardown_levels (hphase : s.phase = .idle ∨ s.phase = .done) (hr : Ready s) :
    ∃ d, exec .teardown s = .next d ∧ wire d = ⟨.released, .released, .released⟩ ∧ d.lat = s.lat := by
  have hfield {p : Fin 28} := field_threeModes s.par s.fsel s.par.modeCode.input (p := p)
  refine ⟨_, exec_teardown_completes hphase hr, ?_, rfl⟩
  exact wire_of_inputPins hr.wf (hfield (.inl rfl)) (hfield (.inr (.inl rfl))) (hfield (.inr (.inr rfl)))

end Sys2Proof.Machine

open Sys2Proof Sys2Proof.Machine

/-- Settles O52: chip-select falls, each bit has one rising clock edge, chip-select rises. -/
theorem xferShowsOneFrame : Obligations.XferShowsOneFrame := by
  intro s w hphase hclear hclk hdata hcs hhigh
  have hr := ready_of_clear hclear
  rw [operationWires_of_ready (by simp) hphase rfl hr]
  refine (framesFrom_word hr ⟨hclk, hdata, hcs⟩ hhigh w).trans ?_
  rw [bitsSent, List.map_map]
  rfl

/-- Settles O53: no micro-operation of the three raises the latch bit of the clock. -/
theorem noRisingEdgeInSetupTeardownWait : Obligations.NoRisingEdgeInSetupTeardownWait := by
  intro i s hi hphase hclear
  have hr := ready_of_clear hclear
  obtain ⟨ho, hpin, hlow⟩ : i ≠ .run ∧ badPin i = none ∧
      ∀ mu ∈ itemMicros s.par i .only 0, KeepsClockLow s.par mu := by
    rcases hi with rfl | rfl | rfl
    · exact ⟨by simp, rfl, setup_keepsClockLow hr.wf⟩
    · exact ⟨by simp, rfl, teardown_keepsClockLow s.par⟩
    · exact ⟨by simp, rfl, wait_keepsClockLow s.par⟩
  rw [operationWires_of_ready ho hphase hpin hr]
  exact ⟨(wiresAfter_length _ _).trans (opLength_eq_length ho s.par).symm, risingEdges_eq_zero hr hlow⟩

/-- Settles O54: SETUP sets the modes and the latch bits of the three pins, XFER the latch bits, TEARDOWN the modes. -/
theorem levelsBetweenOperations : Obligations.LevelsBetweenOperations := by
  intro s w hphase hclear
  obtain ⟨a, hsetup, ha, hra, hout, hwirea⟩ := exec_setup_levels hphase (ready_of_clear hclear)
  obtain ⟨b, hxfer, hb, hrb, hwireb⟩ := exec_xfer_levels (.inr ha) hra hout w
  obtain ⟨d, hteardown, hwired, hlat⟩ := exec_teardown_levels (.inr hb) hrb
  exact ⟨a, b, d, hsetup, hxfer, hteardown, hwirea, hwireb, hwired, hlat⟩

end

section
/-! PROOFS. Faults: how a step and an operation leave the status, which faults an operation can meet, that no operation
clears one, and the exit status (spec/60_exceptions.md R171 to R180, R190). -/

namespace Sys2Proof.Machine

open Sys2Proof.Expected

variable {s t u : State} {o : Instr} {mu : Micro} {c : Params}

/-! ### A micro-operation that raises -/

/-- A fault of a micro-operation is recorded; it is no `InvalidPin`, and it is `RegisterIndexOutOfRange` only where the
micro-operation names an index outside the page (R171 to R173, R176). -/
theorem perform_raised_fault (h : perform mu s = .raised t) :
    t.phase = .aborted ∧ ∃ r, t.fault = some r ∧ r.kind ≠ .invalidPin ∧
      (r.kind = .registerIndexOutOfRange → ∃ i, 1024 ≤ i ∧ (mu = .rd i ∨ ∃ e, mu = .wr i e)) := by
  obtain ⟨i, rw, ⟨rfl, hi, hmu⟩ | ⟨rfl, -⟩⟩ := perform_raised h
  · exact ⟨rfl, _, rfl, by simp, fun _ => ⟨i, hi, hmu⟩⟩
  · exact ⟨rfl, _, rfl, by simp, by simp⟩

/-- The known registers are inside the page (R8, R55). -/
theorem knownMicro_index_lt (hc : c.wf) (hk : knownMicro c mu) {i : Nat} (hmu : mu = .rd i ∨ ∃ e, mu = .wr i e) :
    i < 1024 := by
  obtain ⟨-, -, ⟨-, hset⟩, ⟨-, hclr⟩, -⟩ := hc
  rcases hmu with rfl | ⟨e, rfl⟩
  · exact Nat.lt_trans hk (by decide)
  · rcases hk with hi | hi | hi <;> omega

/-! ### The status after a step and after an operation -/

/-- From `s` to `t` no fault is met: the operation, the parameters and the fault record are kept, and the phase too
unless the operation is DONE. -/
structure NoFaultMet (s t : State) : Prop where
  op : t.op = s.op
  par : t.par = s.par
  fault : t.fault = s.fault
  phase : t.phase = s.phase ∨ t.phase = .done

theorem NoFaultMet.trans (h : NoFaultMet s t) (g : NoFaultMet t u) : NoFaultMet s u :=
  ⟨g.op.trans h.op, g.par.trans h.par, g.fault.trans h.fault, g.phase.elim (fun e => e ▸ h.phase) .inr⟩

theorem advance_phase (s : State) : (advance s).phase = s.phase ∨ (advance s).phase = .done := by
  rcases advance_cases s with ⟨-, e⟩ |
    ⟨-, ⟨-, e⟩ | ⟨-, -, e⟩ | ⟨-, -, e⟩ | ⟨-, -, e⟩ | ⟨-, -, e⟩ | ⟨-, e⟩⟩ <;> rw [e]
  · exact .inl rfl
  · exact .inr rfl
  · exact .inl rfl
  · exact .inl rfl
  · exact .inl rfl
  · exact .inl rfl
  · exact .inr rfl

/-- The program counter and the countdown meet no fault (R153). -/
theorem noFaultMet_moved (s : State) : NoFaultMet s (tickUnmap (advance s)) := by
  obtain ⟨r, n, htick, -⟩ := tickUnmap_eq (advance s)
  obtain ⟨g, ci, k, ph, hadv⟩ := advance_eq_relabel s
  have hphase := advance_phase s
  rw [htick]
  rw [hadv] at hphase ⊢
  exact ⟨rfl, rfl, rfl, hphase⟩

/-- A step of the sequencer meets no fault, or a micro-operation of the item raised (R153, R176). -/
theorem microStep_status (h : microStep s = .next t) :
    NoFaultMet s t ∨ ∃ mu ∈ currentItem s, perform mu s = .raised t := by
  obtain ⟨mu, hmu, ⟨s', hp, rfl⟩ | hr⟩ := microStep_next h
  · have f := perform_frame hp
    exact .inl (NoFaultMet.trans ⟨f.op, f.par, f.fault, .inl f.phase⟩ (noFaultMet_moved s'))
  · exact .inr ⟨mu, List.mem_of_getElem? hmu, hr⟩

/-- Where the operation `o`, started in `s`, can stand: `start` raised for its pin, no fault is met so far, or a
micro-operation on a known register raised (R151, R153, R171, R176). -/
def Reached (o : Instr) (s t : State) : Prop :=
  (∃ p, badPin o = some p ∧ t = raiseWith .invalidPin (some o) .only 0 0 (.pin p) s) ∨
  (badPin o = none ∧ (NoFaultMet (launch o s) t ∨ ∃ u mu, knownMicro s.par mu ∧ perform mu u = .raised t))

theorem exec_reached (h : exec o s = .next t) : Reached o s t := by
  refine exec_preserves (P := Reached o s) h (fun u hu => ?_) fun {u v} hb hu hm => ?_
  · obtain ⟨-, -, hbad | ⟨hpin, rfl⟩⟩ := start_next hu
    · exact .inl hbad
    · exact .inr ⟨hpin, .inl ⟨rfl, rfl, rfl, .inl rfl⟩⟩
  · rcases hu with ⟨p, -, rfl⟩ | ⟨hpin, hmet | ⟨w, mu, -, hr⟩⟩
    · cases hb
    · refine .inr ⟨hpin, (microStep_status hm).imp hmet.trans fun ⟨mu, hmu, hr⟩ => ⟨u, mu, ?_, hr⟩⟩
      rw [currentItem, hmet.op, hmet.par] at hmu
      exact itemMicros_known s.par o _ _ hpin mu hmu
    · simp [(perform_raised_fault hr).1] at hb

/-! ### A recorded fault stays recorded -/

theorem exec_admits (h : exec o s = .next t) : admits s.phase = true :=
  exec_preserves (P := fun _ => admits s.phase = true) h (fun _ hs => (start_next hs).1) fun _ hu _ => hu

theorem not_aborted_of_admits (h : admits s.phase = true) : s.phase ≠ .aborted := by
  rcases admits_iff.1 h with hp | hp <;> simp [hp]

/-- A recorded fault is no success (R178). -/
theorem fault_not_succeeded (h : t.fault ≠ none) : t.fault ≠ none ∧ ¬ succeeded t :=
  ⟨h, fun ⟨_, hnone⟩ => h hnone⟩

theorem perform_raised_fault_ne_none (h : perform mu s = .raised t) : t.fault ≠ none := by
  obtain ⟨-, r, hr, -⟩ := perform_raised_fault h
  simp [hr]

theorem start_fault_ne_none (h : start o s = .next t) (hf : s.fault ≠ none) : t.fault ≠ none := by
  obtain ⟨-, -, ⟨p, -, rfl⟩ | ⟨-, rfl⟩⟩ := start_next h
  · simp
  · exact hf

theorem microStep_fault_ne_none (h : microStep s = .next t) (hf : s.fault ≠ none) : t.fault ≠ none := by
  obtain hmet | ⟨mu, -, hr⟩ := microStep_status h
  · rwa [hmet.fault]
  · exact perform_raised_fault_ne_none hr

theorem exec_fault_ne_none (h : exec o s = .next t) (hf : s.fault ≠ none) : t.fault ≠ none :=
  exec_preserves (P := fun u => u.fault ≠ none) h (fun _ hs => start_fault_ne_none hs hf)
    fun _ hu hm => microStep_fault_ne_none hm hu

/-- An operation that ends ABORTED has recorded its fault (R176). -/
theorem exec_aborted_fault (h : exec o s = .next t) (ht : t.phase = .aborted) : t.fault ≠ none := by
  obtain ⟨p, -, rfl⟩ | ⟨-, hmet | ⟨u, mu, -, hr⟩⟩ := exec_reached h
  · simp
  · rcases hmet.phase with hp | hp <;> simp [hp] at ht
  · exact perform_raised_fault_ne_none hr

/-! ### ABORTED -/

/-- In ABORTED the host events that answer a next state are UNMAP and a reset (R58, R60, R70, R151, R200). -/
theorem takeInput_of_aborted {e : HostEvent} (hp : s.phase = .aborted) (h : takeInput exec e s = .next t) :
    (∃ n, t = armUnmap n s) ∨ ∃ par, e = .reset par := by
  have barred (ha : admits s.phase = true) : False := not_aborted_of_admits ha hp
  cases e with
  | call w =>
    obtain ⟨i, -, hi⟩ := fetch_next h
    exact (barred (exec_admits hi)).elim
  | start w =>
    obtain ⟨i, -, hi⟩ := fetch_next h
    exact (barred (start_next hi).1).elim
  | memRead i => exact (barred (hostAccess_next h).1).elim
  | memWrite i v => exact (barred (hostAccess_next h).1).elim
  | unmapAfter n => cases h; exact .inl ⟨n, rfl⟩
  | openSpace p =>
    obtain ⟨hidle, -⟩ := openSpace_next h
    cases hp.symm.trans hidle
  | reset par => exact .inr ⟨par, rfl⟩

end Sys2Proof.Machine

open Sys2Proof Sys2Proof.Machine

/-- Settles O38: each primitive raises before it touches a register. -/
theorem invalidSpaceStopsAccess : Obligations.InvalidSpaceStopsAccess := by
  intro s i e hv hi
  refine ⟨?_, memWrite_invalid hv hi⟩
  rw [perform, memRead_invalid hv hi]
  rfl

/-- Settles O21: `start` admits no ABORTED state, and neither it nor a step of the sequencer removes a fault record. -/
theorem faultIsNeverCleared : Obligations.FaultIsNeverCleared := by
  refine ⟨fun i s t h => ⟨not_aborted_of_admits (exec_admits h), fun hf => ?_⟩,
    fun i s t h => ⟨not_aborted_of_admits (start_next h).1, fun hf => ?_⟩, fun s t hb h hf => ?_,
    fun s hp ⟨hdone, _⟩ => by simp [hp] at hdone⟩
  · exact fault_not_succeeded (exec_fault_ne_none h hf)
  · exact fault_not_succeeded (start_fault_ne_none h hf)
  · exact fault_not_succeeded (microStep_fault_ne_none (step_busy hb ▸ h) hf)

/-- Settles O40: `start` raises for a bad pin, before any access, and no micro-operation raises this fault. -/
theorem invalidPinExactly : Obligations.InvalidPinExactly := by
  intro i s t hf h
  obtain ⟨p, hbad, rfl⟩ | ⟨hpin, hend⟩ := exec_reached h
  · obtain ⟨hop, hp⟩ := badPin_eq_some_iff.1 hbad
    refine ⟨⟨fun _ => ⟨p, hp, hop⟩, fun _ => ⟨_, rfl, rfl⟩⟩, fun q hq hopq => ?_⟩
    obtain rfl : p = q := by simpa [hbad] using badPin_eq_some_iff.2 ⟨hopq, hq⟩
    rfl
  · have hnone {q : Nat} (hq : 27 < q) (hop : (∃ m, i = .setPinMode q m) ∨ ∃ l, i = .setPinLevel q l) :
        False := by
      simp [badPin_eq_some_iff.2 ⟨hop, hq⟩] at hpin
    refine ⟨⟨fun ⟨r, hr, hkind⟩ => ?_, fun ⟨q, hq, hop⟩ => (hnone hq hop).elim⟩,
      fun q hq hop => (hnone hq hop).elim⟩
    obtain hmet | ⟨u, mu, -, hraised⟩ := hend
    · simp [hmet.fault, hf] at hr
    · obtain ⟨-, r', hr', hkind', -⟩ := perform_raised_fault hraised
      obtain rfl : r' = r := by simpa [hr'] using hr
      exact (hkind' hkind).elim

/-- Settles O41: a micro-operation of an operation names a known register, which is inside the page. -/
theorem operationsStayInRange : Obligations.OperationsStayInRange := by
  intro i s t r hwf hf h hr hkind
  obtain ⟨p, -, rfl⟩ | ⟨-, hmet | ⟨u, mu, hknown, hraised⟩⟩ := exec_reached h
  · cases hr
    cases hkind
  · simp [hmet.fault, hf] at hr
  · obtain ⟨-, r', hr', -, hout⟩ := perform_raised_fault hraised
    obtain rfl : r' = r := by simpa [hr'] using hr
    obtain ⟨j, hj, hmu⟩ := hout hkind
    exact absurd (knownMicro_index_lt hwf hknown hmu) (Nat.not_lt.2 hj)

/-- Settles O42: in ABORTED the sequencer does not step, and of the host events only UNMAP and a reset answer. -/
theorem abortedUntilReset : Obligations.AbortedUntilReset := by
  intro s t hp h
  rcases step_next h with ⟨hb, -⟩ | ⟨-, -, rfl⟩ | ⟨e, rest, -, hi, he⟩
  · simp [hp] at hb
  · exact .inl ⟨hp, rfl, rfl⟩
  · obtain ⟨n, rfl⟩ | ⟨par, rfl⟩ := takeInput_of_aborted (s := { s with inputs := rest }) hp he
    · exact .inl (by simp [hp])
    · exact .inr ⟨par, rest, hi⟩

/-- Settles O57: RUN without a fault ends DONE with the record as it was, and an operation that ends ABORTED has
recorded its fault. -/
theorem exitStatusAfterRun : Obligations.ExitStatusAfterRun := by
  refine ⟨fun s hphase hf hclear hw => ⟨_, runEffect s hphase hclear hw, ?_⟩, fun i s t _ h ht => ⟨?_, ?_⟩⟩
  · simp [exitStatusZero, hf]
  · simp [exitStatusZero, ht]
  · exact Option.isSome_iff_ne_none.2 (exec_aborted_fault h ht)

end

section
/-! PROOFS. Reset, the parameters, and a machine that is asked nothing (spec/70_reset_and_hazards.md R200 to R203). -/

namespace Sys2Proof.Machine

variable {s t : State}

/-- Every step but a reset replays its trace on the registers, under the parameters it found (R61, R203). -/
theorem step_replayed (hreset : s.phase = .busy ∨ ∀ par rest, s.inputs ≠ .reset par :: rest) (h : step s = .next t) :
    Replayed s t := by
  rcases step_next h with ⟨-, hm⟩ | ⟨-, -, rfl⟩ | ⟨e, rest, hb, hi, he⟩
  · exact .of_microStep hm
  · exact .refl t
  · have hno : ∀ par, e ≠ .reset par := by
      rintro par rfl
      exact hreset.resolve_left hb par rest hi
    exact (Replayed.of_takeInput hno he : Replayed { s with inputs := rest } t)

theorem takeInput_reset_of_wf {par : Params} (hpar : par.wf) (s : State) :
    takeInput exec (.reset par) s = .next (restart par s) := if_pos hpar

theorem takeInput_reset_of_not_wf {par : Params} (hpar : ¬ par.wf) (s : State) :
    takeInput exec (.reset par) s = .refused .badParameters := if_neg hpar

end Sys2Proof.Machine

open Sys2Proof Sys2Proof.Machine

/-- Settles O46: a reset binds the parameters it carries, and no other piece of a step writes them. -/
theorem parametersAreFixed : Obligations.ParametersAreFixed := by
  refine ⟨fun s t par rest hb hi h => ?_, fun s t hreset h => (step_replayed hreset h).1⟩
  obtain ⟨-, rfl⟩ := reset_next ((step_event hb hi).symm.trans h)
  rfl

/-- Settles O15: the model's stutter step. -/
theorem nothingHappensUnasked : Obligations.NothingHappensUnasked := fun _ => step_unasked

/-- Settles O45: a reset is `restart` when its parameters meet R8, and is refused when they do not. -/
theorem resetEffect : Obligations.ResetEffect := by
  refine ⟨⟨rfl, rfl, rfl, rfl, rfl, rfl, rfl, rfl⟩, fun s par rest hb hi => ⟨fun hpar => ?_, fun hpar => ?_⟩⟩
  · exact ⟨_, (step_event hb hi).trans (takeInput_reset_of_wf hpar _), by simp⟩
  · exact (step_event hb hi).trans (takeInput_reset_of_not_wf hpar _)

end

section
/-! PROOFS. The intervals inside a word, read from the nominal lengths of its events
(spec/70_reset_and_hazards.md R221; spec/41_serial_transmitter.md R141). -/

namespace Sys2Proof.Machine

open Sys2Proof.Expected

/-- The nominal lengths of the 48 events of a word: in each bit the third and the fifth take a half-period (R141). -/
def wordTimes : List Nat := [0] ++ (List.range 9).flatMap (fun _ => [0, 0, 100, 0, 100]) ++ [0, 0]

/-- The nominal lengths do not depend on the bits sent. -/
theorem map_nominalOf_xferEvents (c : Params) (w : BitVec 9) : (xferEvents c w).map nominalOf = wordTimes := rfl

theorem between_xferEvents (c : Params) (w : BitVec 9) (a b : Nat) :
    between (xferEvents c w) a b = ((wordTimes.drop a).take (b - a)).sum := by
  rw [between, nominalDuration, List.map_take, List.map_drop, map_nominalOf_xferEvents]

/-- The rows of R221 inside one bit: setup, hold, clock low, clock high. -/
theorem between_xferEvents_bit (c : Params) (w : BitVec 9) {j : Nat} (hj : j < 9) :
    between (xferEvents c w) (1 + 5 * j) (4 + 5 * j) = 100 ∧ between (xferEvents c w) (4 + 5 * j) (6 + 5 * j) = 100 ∧
      between (xferEvents c w) (2 + 5 * j) (4 + 5 * j) = 100 ∧
      between (xferEvents c w) (4 + 5 * j) (7 + 5 * j) = 100 := by
  simp only [between_xferEvents]
  revert j
  decide

/-- The row of R221 from one rising edge to the next. -/
theorem between_xferEvents_edges (c : Params) (w : BitVec 9) {j : Nat} (hj : j < 8) :
    between (xferEvents c w) (4 + 5 * j) (4 + 5 * (j + 1)) = 200 := by
  rw [between_xferEvents]
  revert j
  decide

/-- The five events of bit `j`, by position (R141). -/
theorem xferEvents_bit (c : Params) (w : BitVec 9) {j : Nat} (hj : j < 9) :
    (xferEvents c w)[1 + 5 * j]? =
        some (.write (if w.getLsbD (8 - j) then c.gpset else c.gpclr) (pinBit c.pinData)) ∧
      (xferEvents c w)[2 + 5 * j]? = some (.write c.gpclr (pinBit c.pinClk)) ∧
      (xferEvents c w)[3 + 5 * j]? = some (.delay 100) ∧
      (xferEvents c w)[4 + 5 * j]? = some (.write c.gpset (pinBit c.pinClk)) ∧
      (xferEvents c w)[5 + 5 * j]? = some (.delay 100) := by
  have hplace {r : Nat} (hr : r < 5) : (xferEvents c w)[r + 1 + 5 * j]? = (bitEvents c (w.getLsbD (8 - j)))[r]? := by
    rw [← xferEvents_getElem?_bit c w hj hr]
    congr 1
    omega
  simp only [bitEvents_eq] at hplace
  exact ⟨hplace (r := 0) (by omega), hplace (r := 1) (by omega), hplace (r := 2) (by omega),
    hplace (r := 3) (by omega), hplace (r := 4) (by omega)⟩

end Sys2Proof.Machine

open Sys2Proof Sys2Proof.Machine

/-- Settles O23: the events of the table by position, and the sums of their nominal lengths. -/
theorem xferMinimumIntervals : Obligations.XferMinimumIntervals := by
  intro s w hphase hclear
  refine ⟨_, Expected.xferEvents s.par w, exec_xfer_completes hphase (ready_of_clear hclear) w, rfl,
    xferEvents_length _ w, rfl, fun j hj => ?_, rfl, rfl, between_xferEvents _ w 0 4, between_xferEvents _ w 44 47,
    fun j hj => between_xferEvents_edges _ w hj, between_xferEvents _ w 0 47⟩
  obtain ⟨hdata, hlow, hdelay, hhigh, hdelay'⟩ := xferEvents_bit s.par w hj
  exact ⟨hdata, hlow, hdelay, hhigh, hdelay', between_xferEvents_bit s.par w hj⟩

end

section
/-! PROOFS. Two RUNs in a row: which function-select writes show what the registers held before
(spec/70_reset_and_hazards.md R217; spec/41_serial_transmitter.md R144, R145). -/

namespace Sys2Proof.Machine

open Sys2Proof.Expected

variable {c : Params} {f g : Vector Word 7} {p : Fin 28} {S : List (Fin 28)}

/-! ### Registers that differ in the fields of some pins alone -/

/-- A mode setting by bits: the code in the field of the pin, every other bit as before (R120, R121). -/
theorem modeSet_getLsbD (f : Vector Word 7) (p : Fin 28) (code : BitVec 3) {j : Nat} (hj : j < 7) (b : Nat) :
    (inFieldOf p j b → (modeSet f p code)[j].getLsbD b = code.getLsbD (b - fieldShift p)) ∧
      (¬ inFieldOf p j b → (modeSet f p code)[j].getLsbD b = f[j].getLsbD b) := by
  have hset : (modeSet f p code)[j] =
      if p.val / 10 = j then insertField (bankOf f p) (fieldShift p) code else f[j] := Vector.getElem_set _ _
  rw [hset]
  by_cases hbank : p.val / 10 = j
  · subst hbank
    rw [if_pos rfl, insertField_getLsbD _ _ (fieldShift_le _)]
    exact ⟨fun ⟨_, hin⟩ => if_pos hin, fun hout => if_neg fun hin => hout ⟨rfl, hin⟩⟩
  · rw [if_neg hbank]
    exact ⟨fun ⟨hj, _⟩ => absurd hj.symm hbank, fun _ => rfl⟩

/-- A bit in the field of a pin is a bit of its mode (R22). -/
theorem getLsbD_of_inFieldOf (f : Vector Word 7) {j : Nat} (hj : j < 7) {b : Nat} (h : inFieldOf p j b) :
    f[j].getLsbD b = (fieldOf (bankOf f p) (fieldShift p)).getLsbD (b - fieldShift p) := by
  obtain ⟨rfl, hlow, hhigh⟩ := h
  have hb : b - fieldShift p < 3 ∧ fieldShift p + (b - fieldShift p) = b := by
    simp only [fieldShift, Config.fselPins, Config.fselFieldBits]
    omega
  rw [fieldOf, BitVec.getLsbD_extractLsb', hb.2]
  simp [hb.1, bankOf]

/-- Outside the fields of the pins in `S` the registers hold the same. -/
def SameOutside (S : List (Fin 28)) (f g : Vector Word 7) : Prop :=
  ∀ (j : Nat) (hj : j < 7) (b : Nat), (∀ p ∈ S, ¬ inFieldOf p j b) → f[j].getLsbD b = g[j].getLsbD b

namespace SameOutside

theorem refl (S : List (Fin 28)) (f : Vector Word 7) : SameOutside S f f := fun _ _ _ _ => rfl

/-- Setting one more of the pins in one of the two. -/
theorem modeSet_right (h : SameOutside S f g) (hp : p ∈ S) (code : BitVec 3) :
    SameOutside S f (modeSet g p code) := fun j hj b hb =>
  (h j hj b hb).trans ((modeSet_getLsbD g p code hj b).2 (hb p hp)).symm

/-- Setting a pin to the same mode in both: its field is no difference any more. -/
theorem modeSet_both (h : SameOutside (p :: S) f g) (code : BitVec 3) :
    SameOutside S (modeSet f p code) (modeSet g p code) := by
  intro j hj b hb
  obtain ⟨hfin, hfout⟩ := modeSet_getLsbD f p code hj b
  obtain ⟨hgin, hgout⟩ := modeSet_getLsbD g p code hj b
  by_cases hin : inFieldOf p j b
  · rw [hfin hin, hgin hin]
  · rw [hfout hin, hgout hin]
    exact h j hj b (List.forall_mem_cons.2 ⟨hin, hb⟩)

theorem eq (h : SameOutside [] f g) : f = g :=
  Vector.ext fun j hj => BitVec.eq_of_getLsbD_eq fun b _ => h j hj b fun _ hp => absurd hp List.not_mem_nil

/-- The register of a pin is the same in both exactly when every pin of `S` that shares it has the same mode. -/
theorem bankOf_eq_iff (h : SameOutside S f g) (q : Fin 28) :
    bankOf f q = bankOf g q ↔
      ∀ p ∈ S, shareBank q p → fieldOf (bankOf f p) (fieldShift p) = fieldOf (bankOf g p) (fieldShift p) := by
  have hq : q.val / 10 < 7 := by omega
  constructor
  · intro heq p _ hshare
    have hsame : bankOf f p = bankOf g p := by
      simpa only [bankOf, show q.val / 10 = p.val / 10 from hshare] using heq
    rw [hsame]
  · refine fun hfield => BitVec.eq_of_getLsbD_eq fun b _ => ?_
    show f[q.val / 10].getLsbD b = g[q.val / 10].getLsbD b
    by_cases hin : ∃ p ∈ S, inFieldOf p (q.val / 10) b
    · obtain ⟨p, hp, hpb⟩ := hin
      rw [getLsbD_of_inFieldOf f hq hpb, getLsbD_of_inFieldOf g hq hpb, hfield p hp hpb.1]
    · exact h _ hq b fun p hp hpb => hin ⟨p, hp, hpb⟩

end SameOutside

/-! ### The writes of SETUP and of RUN -/

/-- Setting the three modes changes the fields of the three pins alone (R144, R145). -/
theorem SameOutside.threeModes_right (h : SameOutside [c.pinClk, c.pinData, c.pinCs] f g) (code : BitVec 3) :
    SameOutside [c.pinClk, c.pinData, c.pinCs] f (threeModes c code g) :=
  ((h.modeSet_right (by simp) code).modeSet_right (by simp) code).modeSet_right (by simp) code

/-- Setting the three modes leaves nothing of what the three fields held (R144, R145). -/
theorem SameOutside.threeModes_eq (h : SameOutside [c.pinClk, c.pinData, c.pinCs] f g) (code : BitVec 3) :
    threeModes c code f = threeModes c code g :=
  (((h.modeSet_both code).modeSet_both code).modeSet_both code).eq

/-- The writes of the three mode settings. -/
theorem modeEvents_writes (c : Params) (code : BitVec 3) (f : Vector Word 7) :
    (modeEvents c code f).filter isWrite =
      [.write (c.pinClk.val / 10) (bankOf (modeSet f c.pinClk code) c.pinClk),
       .write (c.pinData.val / 10) (bankOf (modeSet (modeSet f c.pinClk code) c.pinData code) c.pinData),
       .write (c.pinCs.val / 10) (bankOf (threeModes c code f) c.pinCs)] := rfl

/-- The clock's write shows the modes of data and chip-select, data's write that of chip-select, where they share its
register; what a write does not show has been set before it (R217). -/
theorem modeEvents_writes_eq_iff (hc : c.wf) (h : SameOutside [c.pinClk, c.pinData, c.pinCs] f g) (code : BitVec 3) :
    (modeEvents c code f).filter isWrite = (modeEvents c code g).filter isWrite ↔
      (shareBank c.pinClk c.pinData → fieldOf (bankOf f c.pinData) (fieldShift c.pinData) =
        fieldOf (bankOf g c.pinData) (fieldShift c.pinData)) ∧
      (shareBank c.pinClk c.pinCs → fieldOf (bankOf f c.pinCs) (fieldShift c.pinCs) =
        fieldOf (bankOf g c.pinCs) (fieldShift c.pinCs)) ∧
      (shareBank c.pinData c.pinCs → fieldOf (bankOf f c.pinCs) (fieldShift c.pinCs) =
        fieldOf (bankOf g c.pinCs) (fieldShift c.pinCs)) := by
  obtain ⟨⟨hclkdata, hclkcs, hdatacs⟩, -⟩ := hc
  have hclk := (h.modeSet_both code).bankOf_eq_iff c.pinClk
  have hdata := ((h.modeSet_both code).modeSet_both code).bankOf_eq_iff c.pinData
  simp only [List.forall_mem_cons, List.not_mem_nil, IsEmpty.forall_iff, implies_true, and_true, field_modeSet,
    if_neg hclkdata, if_neg hclkcs, if_neg hdatacs] at hclk hdata
  rw [modeEvents_writes, modeEvents_writes, h.threeModes_eq code]
  simp only [List.cons.injEq, Event.write.injEq, true_and, and_true, hclk, hdata, and_assoc]

/-- The writes of two RUNs differ at most in the mode settings of SETUP (R147, R217). -/
theorem runEvents_writes_eq_iff (h : SameOutside [c.pinClk, c.pinData, c.pinCs] f g) :
    (runEvents c f).filter isWrite = (runEvents c g).filter isWrite ↔
      (modeEvents c c.modeCode.output f).filter isWrite = (modeEvents c c.modeCode.output g).filter isWrite := by
  simp only [runEvents, setupEvents, h.threeModes_eq c.modeCode.output, List.filter_append, List.append_left_inj]

end Sys2Proof.Machine

open Sys2Proof Sys2Proof.Machine

/-- Settles O55: the first RUN leaves the three fields at Input and the rest of the registers as it was, so the second
differs from it just where a mode setting of SETUP shows the field of a pin handled later. -/
theorem twoRunsSameWritesIff : Obligations.TwoRunsSameWritesIff := by
  intro s hphase hclear hw
  have hwf := (ready_of_clear hclear).wf
  have hsame := ((SameOutside.refl _ s.fsel).threeModes_right (c := s.par) s.par.modeCode.output).threeModes_right
    s.par.modeCode.input
  have hinput {p : Fin 28} := field_threeModes s.par (Expected.threeModes s.par s.par.modeCode.output s.fsel)
    s.par.modeCode.input (p := p)
  refine ⟨_, _, Expected.runEvents s.par s.fsel, _, runEffect s hphase hclear hw, runEffect _ (.inr rfl) hclear hw,
    rfl, rfl, (runEvents_writes_eq_iff hsame).trans ((modeEvents_writes_eq_iff hwf hsame _).trans ?_)⟩
  rw [hinput (.inr (.inl rfl)), hinput (.inr (.inr rfl))]
  rfl

end
